-- ==== Sys2Proof/Word.lean ====
section
/-! DEFINITION. The word types: what the spec treats as bits (00_scope.md R10, glossary of section 6). -/

namespace Sys2Proof

/-- A byte of memory or of an instruction (20_memory.md R40). -/
abbrev Byte := BitVec 8

/-- A doubleword: 32 bits (00_scope.md, glossary). -/
abbrev Dword := BitVec 32

/-- A quadword: 64 bits; also an address and a general register (00_scope.md R12, glossary). -/
abbrev Qword := BitVec 64

/-- The contents of a full vector register ZMMn (10_state.md R20). -/
abbrev Vec := BitVec 512

end Sys2Proof
end

