-- ==== Sys2Proof/Config.lean ====
section
/-! DEFINITION. What an implementation fixes: the parameters of 00_scope.md R7 and R8, 20_memory.md R50 and
R51, and the operating modes of R9. They are plain data that State holds and no instruction writes, so that a
statement over all states holds for every value of them (log 2). The spec leaves no result open, so there is no
free value. -/

namespace Sys2Proof

/-- The modes the spec names and refuses (decision D2, 00_scope.md R6, R9; log 19). -/
inductive OtherMode where
  | realAddress | virtual8086 | code16 | systemManagement
  deriving DecidableEq, Repr

/-- The operating mode (00_scope.md R9): two admitted values; every other mode is refused. -/
inductive Mode where
  | mode64
  | mode32
  | other (m : OtherMode)
  deriving DecidableEq, Repr

/-- Whether the mode is one of the two admitted ones (00_scope.md R9). -/
def Mode.admitted : Mode → Bool
  | .mode64 => true
  | .mode32 => true
  | .other _ => false

/-- MAXVL, the width of a full vector register (00_scope.md R7). -/
inductive MaxVl where
  | v128 | v256 | v512
  deriving DecidableEq, Repr

/-- MAXVL in bits. -/
def MaxVl.bits : MaxVl → Nat
  | .v128 => 128
  | .v256 => 256
  | .v512 => 512

/-- The four rounding modes (10_state.md R25): to nearest even, down, up, toward zero. -/
inductive RoundingMode where
  | rn | rd | ru | rz
  deriving DecidableEq, Repr

/-- The six segments of SegBase (10_state.md R29). -/
inductive Seg where
  | es | cs | ss | ds | fs | gs
  deriving DecidableEq, Repr

/-- The parameters an implementation fixes. -/
structure Config where
  /-- MAXVL (00_scope.md R7). -/
  maxvl : MaxVl
  /-- The extensions present (00_scope.md R8). -/
  sse2 : Bool
  avx : Bool
  avx512f : Bool
  avx512vl : Bool
  avx10_1 : Bool
  /-- `fault_suppression` (20_memory.md R50). -/
  faultSuppression : Bool
  /-- Five-level paging, which moves the canonical boundary of R51 from bit 47 to bit 56. -/
  la57 : Bool
  deriving DecidableEq, Repr

end Sys2Proof
end

