-- ==== Sys2Proof/Machine/Convert.lean ====
section
/-! DEFINITION. `Convert(x, rm, daz)`, the conversion of one binary64 element to a 32-bit integer
(40_conversion.md R100 to R112), in the integer formulation of R103; and, for statements, the same function over
the rationals as R101, R104 and R109 give it. -/

namespace Sys2Proof.Machine

/-- The flags an element or an instruction contributes, a subset of {IE, PE} (40_conversion.md R102). -/
structure FpFlags where
  ie : Bool
  pe : Bool
  deriving DecidableEq, Repr

/-- The empty set of flags. -/
def FpFlags.none : FpFlags := ⟨false, false⟩

/-- Union of flag sets (40_conversion.md R114). -/
def FpFlags.union (a b : FpFlags) : FpFlags := ⟨a.ie || b.ie, a.pe || b.pe⟩

/-- The indefinite integer value (40_conversion.md R106). -/
def indefinite : Dword := 0x80000000#32

/-! ## Fields of a binary64 pattern (40_conversion.md R100, R101) -/

def signBit (x : Qword) : Bool := x.getLsbD 63
def biasedExp (x : Qword) : Nat := (x.extractLsb' 52 11).toNat
def fraction (x : Qword) : Nat := (x.extractLsb' 0 52).toNat

/-- The significand `m` of a finite pattern (40_conversion.md R101). -/
def significand (x : Qword) : Nat :=
  if biasedExp x = 0 then fraction x else 2 ^ 52 + fraction x

/-- `-q`, where the value is `(-1)^s * m * 2^q`, for a pattern with `q < 0` (40_conversion.md R101, R103). -/
def shiftRight (x : Qword) : Nat :=
  if biasedExp x = 0 then 1074 else 1075 - biasedExp x

/-! ## Rounding (40_conversion.md R103) -/

/-- Whether the magnitude is incremented. -/
def roundUp (rm : RoundingMode) (s : Bool) (ipart rem half : Nat) : Bool :=
  match rm with
  | .rn => decide (half < rem) || (decide (rem = half) && decide (ipart % 2 = 1))
  | .rd => s && decide (rem ≠ 0)
  | .ru => !s && decide (rem ≠ 0)
  | .rz => false

/-- `round(rm, (-1)^s * m * 2^-sh)` for `sh > 0`. -/
def roundInt (rm : RoundingMode) (s : Bool) (m sh : Nat) : Int :=
  let mag := m / 2 ^ sh +
    if roundUp rm s (m / 2 ^ sh) (m % 2 ^ sh) (2 ^ (sh - 1)) then 1 else 0
  if s then -(mag : Int) else (mag : Int)

/-- Whether an integer is a signed doubleword (40_conversion.md R105). -/
def inInt32 (n : Int) : Bool := decide (-2 ^ 31 ≤ n) && decide (n ≤ 2 ^ 31 - 1)

/-- `Convert(x, rm, daz)` (40_conversion.md R109, with R103 for the rounding). -/
def convert (x : Qword) (rm : RoundingMode) (daz : Bool) : Dword × FpFlags :=
  if biasedExp x = 2047 then (indefinite, ⟨true, false⟩)
  else if biasedExp x = 0 ∧ fraction x = 0 then (0#32, FpFlags.none)
  else if biasedExp x = 0 ∧ daz = true then (0#32, FpFlags.none)
  else if 1075 ≤ biasedExp x then (indefinite, ⟨true, false⟩)
  else
    let n := roundInt rm (signBit x) (significand x) (shiftRight x)
    if !inInt32 n then (indefinite, ⟨true, false⟩)
    else (BitVec.ofInt 32 n, ⟨false, decide (significand x % 2 ^ shiftRight x ≠ 0)⟩)

/-! ## The same over the rationals -/

/-- `val(x)` of a finite pattern (40_conversion.md R101). -/
def ratValue (x : Qword) : ℚ :=
  (if signBit x then -1 else 1) *
    if biasedExp x = 0 then (fraction x : ℚ) / 2 ^ 1074
    else ((2 ^ 52 + fraction x : ℕ) : ℚ) * 2 ^ biasedExp x / 2 ^ 1075

/-- The four rounding functions (40_conversion.md R104). -/
def ratRound (rm : RoundingMode) (v : ℚ) : ℤ :=
  match rm with
  | .rn =>
    if v - ⌊v⌋ < 1 / 2 then ⌊v⌋
    else if 1 / 2 < v - ⌊v⌋ then ⌊v⌋ + 1
    else if ⌊v⌋ % 2 = 0 then ⌊v⌋ else ⌊v⌋ + 1
  | .rd => ⌊v⌋
  | .ru => ⌈v⌉
  | .rz => if 0 ≤ v then ⌊v⌋ else ⌈v⌉

/-- `Convert(x, rm, daz)` as 40_conversion.md R109 writes it, over exact rationals. -/
def ratConvert (x : Qword) (rm : RoundingMode) (daz : Bool) : Dword × FpFlags :=
  if biasedExp x = 2047 then (indefinite, ⟨true, false⟩)
  else if biasedExp x = 0 ∧ fraction x = 0 then (0#32, FpFlags.none)
  else if biasedExp x = 0 ∧ daz = true then (0#32, FpFlags.none)
  else
    let n := ratRound rm (ratValue x)
    if n < -2 ^ 31 ∨ 2 ^ 31 - 1 < n then (indefinite, ⟨true, false⟩)
    else if (n : ℚ) = ratValue x then (BitVec.ofInt 32 n, FpFlags.none)
    else (BitVec.ofInt 32 n, ⟨false, true⟩)

end Sys2Proof.Machine
end

