-- ==== Sys2Proof/Syntax.lean ====
section
/-! DEFINITION. The instructions as syntax: one constructor per row of spec/opcode_table.json (30_encoding.md
R86), carrying every bit its row does not fix. Extension bits `R X B R' V'` are held as logical values (R10);
`vvvv` is held as stored, since the rule on it is about the stored bits (R78). -/

namespace Sys2Proof

/-- A legacy prefix byte (30_encoding.md R60). `repne` is F2H standing as a prefix before VEX or EVEX; the F2H
of form F1 is part of its opcode (R63) and is not listed. -/
inductive Prefix where
  | seg (s : Seg)
  /-- 67H -/
  | addrSize
  /-- F0H -/
  | lock
  /-- 66H -/
  | opSize
  /-- F2H -/
  | repne
  /-- F3H -/
  | rep
  deriving DecidableEq, Repr

/-- The REX byte 0100 W R X B (30_encoding.md R64). -/
structure Rex where
  w : Bool
  r : Bool
  x : Bool
  b : Bool
  deriving DecidableEq, Repr

/-- What stands before a VEX or EVEX prefix: legacy prefixes, and a REX byte immediately before it, which
raises #UD (30_encoding.md R80, R81). -/
structure VexPrelude where
  prefixes : List Prefix
  rex : Option Rex
  deriving DecidableEq, Repr

/-- The free fields of a two-byte VEX prefix (30_encoding.md R70). -/
structure Vex2 where
  r : Bool
  vvvv : BitVec 4
  deriving DecidableEq, Repr

/-- The free fields of a three-byte VEX prefix (30_encoding.md R71). -/
structure Vex3 where
  r : Bool
  x : Bool
  b : Bool
  w : Bool
  vvvv : BitVec 4
  deriving DecidableEq, Repr

/-- The free fields of an EVEX prefix but `b` and `L'L`, which select the row (30_encoding.md R73, R76). -/
structure Evex where
  r : Bool
  x : Bool
  b : Bool
  /-- `R'` -/
  rHi : Bool
  w : Bool
  vvvv : BitVec 4
  z : Bool
  /-- `V'` -/
  vHi : Bool
  aaa : BitVec 3
  deriving DecidableEq, Repr

/-- The displacement after a base register: none (`mod = 00b`), one byte (01b) or four (10b)
(30_encoding.md R68). -/
inductive Disp where
  | none
  | d8 (d : BitVec 8)
  | d32 (d : BitVec 32)
  deriving DecidableEq, Repr

/-- The memory forms of ModRM and SIB (30_encoding.md R66, R67), register fields without their extension bit. -/
inductive Address where
  /-- `rm` not 100b: base register and displacement. -/
  | base (rm : BitVec 3) (disp : Disp)
  /-- `mod = 00b`, `rm = 101b`: relative to the next instruction in Mode64, absolute in Mode32. -/
  | disp32 (d : BitVec 32)
  /-- A SIB byte with a base register. -/
  | sib (ss : BitVec 2) (index : BitVec 3) (base : BitVec 3) (disp : Disp)
  /-- A SIB byte with `mod = 00b` and `base = 101b`: no base register. -/
  | sibNoBase (ss : BitVec 2) (index : BitVec 3) (d : BitVec 32)
  deriving DecidableEq, Repr

/-- Operand 2, `ModRM:r/m (r)` (30_encoding.md R65). -/
inductive RmOperand where
  | reg (rm : BitVec 3)
  | mem (a : Address)
  deriving DecidableEq, Repr

/-- Whether operand 2 is a register (`mod = 11b`). -/
def RmOperand.isReg : RmOperand → Bool
  | .reg _ => true
  | .mem _ => false

/-- The eleven rows of the opcode table, in its order (30_encoding.md R86). -/
inductive Instr where
  /-- Row 1: F1, `F2 0F E6 /r` (R63, R120). -/
  | cvtpd2dq (ps : List Prefix) (reg : BitVec 3) (rm : RmOperand)
  /-- Row 2: F1, `F2 4x 0F E6 /r` (R63, R64, R120). -/
  | cvtpd2dqRex (ps : List Prefix) (rex : Rex) (reg : BitVec 3) (rm : RmOperand)
  /-- Row 3: F2, two-byte VEX, L = 0 (R70, R72, R125). -/
  | vcvtpd2dqVex128C5 (pre : VexPrelude) (v : Vex2) (reg : BitVec 3) (rm : RmOperand)
  /-- Row 4: F2, three-byte VEX, L = 0 (R71, R72, R125). -/
  | vcvtpd2dqVex128C4 (pre : VexPrelude) (v : Vex3) (reg : BitVec 3) (rm : RmOperand)
  /-- Row 5: F3, two-byte VEX, L = 1 (R70, R72, R126). -/
  | vcvtpd2dqVex256C5 (pre : VexPrelude) (v : Vex2) (reg : BitVec 3) (rm : RmOperand)
  /-- Row 6: F3, three-byte VEX, L = 1 (R71, R72, R126). -/
  | vcvtpd2dqVex256C4 (pre : VexPrelude) (v : Vex3) (reg : BitVec 3) (rm : RmOperand)
  /-- Row 7: F4 (R73, R76, R134); `bc` is EVEX.b, a broadcast, with a memory source only. -/
  | vcvtpd2dqEvex128 (pre : VexPrelude) (e : Evex) (bc : Bool) (reg : BitVec 3) (rm : RmOperand)
  /-- Row 8: F5 (R135). -/
  | vcvtpd2dqEvex256 (pre : VexPrelude) (e : Evex) (bc : Bool) (reg : BitVec 3) (rm : RmOperand)
  /-- Row 9: F6 (R136). -/
  | vcvtpd2dqEvex512 (pre : VexPrelude) (e : Evex) (bc : Bool) (reg : BitVec 3) (rm : RmOperand)
  /-- Row 10: F6 with embedded rounding, register source only (R76, R137). -/
  | vcvtpd2dqEvex512Er (pre : VexPrelude) (e : Evex) (rc : RoundingMode) (reg : BitVec 3) (rm : BitVec 3)
  /-- Row 11: `L'L = 11b` outside row 10, always #UD (R79). -/
  | vcvtpd2dqReservedLength (pre : VexPrelude) (e : Evex) (bc : Bool) (reg : BitVec 3) (rm : RmOperand)
  deriving DecidableEq, Repr

end Sys2Proof
end

