-- ==== Sys2Proof/WellFormed.lean ====
section
/-! DEFINITION. Which terms of Instr some byte sequence the model admits stands for, per mode. A term with a
violated RESERVED field (`vvvv`, `V'`, EVEX `W`, `z` without a mask, LOCK) is well formed: it decodes to its form
and raises #UD (60_exceptions.md R149). -/

namespace Sys2Proof

/-- Whether a prefix is a segment override. -/
def Prefix.isSeg : Prefix → Bool
  | .seg _ => true
  | _ => false

/-- The prefixes that may stand before form F1's F2H: an override and 67H (30_encoding.md R81), and LOCK, which
raises #UD (R80). -/
def Prefix.legacyOk : Prefix → Bool
  | .seg _ | .addrSize | .lock => true
  | .opSize | .repne | .rep => false

/-- No prefix is repeated and there is at most one segment override (30_encoding.md R81). -/
def prefixesOk (ps : List Prefix) : Bool :=
  decide ps.Nodup && decide ((ps.filter Prefix.isSeg).length ≤ 1)

/-- 67H in Mode32 would select 16-bit addressing and is refused (30_encoding.md R84). -/
def addrSizeOk (mode : Mode) (ps : List Prefix) : Bool :=
  match mode with
  | .mode32 => !ps.contains .addrSize
  | _ => true

/-- A base register field is none of the escapes of 30_encoding.md R66 and R67. -/
def Address.wf : Address → Bool
  | Address.base rm disp => rm != 4#3 && (disp != .none || rm != 5#3)
  | .disp32 _ => true
  | .sib _ _ bse disp => disp != .none || bse != 5#3
  | .sibNoBase _ _ _ => true

def RmOperand.wf : RmOperand → Bool
  | .reg _ => true
  | .mem a => a.wf

/-- Prefixes before form F1. -/
def legacyWf (mode : Mode) (ps : List Prefix) : Bool :=
  prefixesOk ps && ps.all Prefix.legacyOk && addrSizeOk mode ps

/-- What stands before VEX or EVEX; in Mode32 there is no REX byte (30_encoding.md R64). -/
def VexPrelude.wf (mode : Mode) (pre : VexPrelude) : Bool :=
  prefixesOk pre.prefixes && addrSizeOk mode pre.prefixes &&
    match mode with
    | .mode32 => pre.rex.isNone
    | _ => true

/-- In Mode32 bits 7:6 of the byte after C5H must be 11b (30_encoding.md R61). -/
def Vex2.wf (mode : Mode) (v : Vex2) : Bool :=
  match mode with
  | .mode32 => !v.r && v.vvvv.msb
  | _ => true

/-- In Mode32 every extension bit is 0 (30_encoding.md R61, R74). -/
def Vex3.wf (mode : Mode) (v : Vex3) : Bool :=
  match mode with
  | .mode32 => !v.r && !v.x && !v.b
  | _ => true

/-- In Mode32 every extension bit is 0 (30_encoding.md R61, R74). -/
def Evex.wf (mode : Mode) (e : Evex) : Bool :=
  match mode with
  | .mode32 => !e.r && !e.x && !e.b && !e.rHi && !e.vHi
  | _ => true

/-- The instruction is one that the given mode's encodings admit. -/
def Instr.wf (mode : Mode) : Instr → Bool
  | .cvtpd2dq ps _ rm => mode.admitted && legacyWf mode ps && rm.wf
  | .cvtpd2dqRex ps _ _ rm => mode == .mode64 && legacyWf mode ps && rm.wf
  | .vcvtpd2dqVex128C5 pre v _ rm => mode.admitted && pre.wf mode && v.wf mode && rm.wf
  | .vcvtpd2dqVex128C4 pre v _ rm => mode.admitted && pre.wf mode && v.wf mode && rm.wf
  | .vcvtpd2dqVex256C5 pre v _ rm => mode.admitted && pre.wf mode && v.wf mode && rm.wf
  | .vcvtpd2dqVex256C4 pre v _ rm => mode.admitted && pre.wf mode && v.wf mode && rm.wf
  | .vcvtpd2dqEvex128 pre e bc _ rm =>
      mode.admitted && pre.wf mode && e.wf mode && rm.wf && !(bc && rm.isReg)
  | .vcvtpd2dqEvex256 pre e bc _ rm =>
      mode.admitted && pre.wf mode && e.wf mode && rm.wf && !(bc && rm.isReg)
  | .vcvtpd2dqEvex512 pre e bc _ rm =>
      mode.admitted && pre.wf mode && e.wf mode && rm.wf && !(bc && rm.isReg)
  | .vcvtpd2dqEvex512Er pre e _ _ _ => mode.admitted && pre.wf mode && e.wf mode
  | .vcvtpd2dqReservedLength pre e bc _ rm =>
      mode.admitted && pre.wf mode && e.wf mode && rm.wf && !(bc && rm.isReg)

end Sys2Proof
end

