-- ==== Sys2Proof/Decode.lean ====
section
/-! DEFINITION. Decoding instruction bytes (30_encoding.md), total on any bytes, refusing by name; then the
encoder, and the instruction's length (R85). -/

namespace Sys2Proof

/-- Why a byte sequence is given no meaning (60_exceptions.md R149: "refused, not faulted"). All are safe: the
model claims nothing of such a sequence. -/
inductive DecodeRefusal where
  /-- The mode is neither Mode64 nor Mode32 (00_scope.md R9). -/
  | modeNotAdmitted
  /-- The bytes end inside an instruction, or it is longer than the 15 bytes of R60. -/
  | truncated
  /-- Not one of the six forms (R61, R82). -/
  | notInScope
  /-- A repeated prefix or several segment overrides (R81). -/
  | repeatedPrefix
  /-- 66H, F3H, or a prefix after F2H, with the legacy form (R81). -/
  | legacyPrefixArrangement
  /-- A REX byte that is not immediately before 0FH, C5H, C4H or 62H (R81). -/
  | misplacedRex
  /-- 67H in Mode32 (R84). -/
  | addressSize16
  /-- C5H, C4H or 62H in Mode32 followed by bits 7:6 other than 11b: LDS, LES, BOUND (R61). -/
  | mode32OtherInstruction
  /-- An extension bit in Mode32 (R74). -/
  | mode32ExtensionBit
  /-- EVEX P0 bits 3:2 not 00b (R79). -/
  | evexP0Reserved
  /-- EVEX P1 bit 2 clear (R79). -/
  | evexP1Reserved
  deriving DecidableEq, Repr

/-- The result of decoding: the instruction and the bytes after it. -/
abbrev DecodeResult := Except DecodeRefusal (Instr × List Byte)

/-! ## Single bytes -/

/-- The prefix byte values of 30_encoding.md R60. -/
def Prefix.toByte : Prefix → Byte
  | .seg .es => 0x26#8
  | .seg .cs => 0x2E#8
  | .seg .ss => 0x36#8
  | .seg .ds => 0x3E#8
  | .seg .fs => 0x64#8
  | .seg .gs => 0x65#8
  | .addrSize => 0x67#8
  | .lock => 0xF0#8
  | .opSize => 0x66#8
  | .repne => 0xF2#8
  | .rep => 0xF3#8

/-- The prefix a byte is, if it is one (30_encoding.md R60). -/
def prefixOfByte (b : Byte) : Option Prefix :=
  if b = 0x26#8 then some (.seg .es)
  else if b = 0x2E#8 then some (.seg .cs)
  else if b = 0x36#8 then some (.seg .ss)
  else if b = 0x3E#8 then some (.seg .ds)
  else if b = 0x64#8 then some (.seg .fs)
  else if b = 0x65#8 then some (.seg .gs)
  else if b = 0x67#8 then some .addrSize
  else if b = 0xF0#8 then some .lock
  else if b = 0x66#8 then some .opSize
  else if b = 0xF2#8 then some .repne
  else if b = 0xF3#8 then some .rep
  else none

/-- The REX byte 0100 W R X B (30_encoding.md R64). -/
def Rex.toByte (r : Rex) : Byte :=
  4#4 ++ BitVec.ofBool r.w ++ BitVec.ofBool r.r ++ BitVec.ofBool r.x ++ BitVec.ofBool r.b

/-- The REX fields of a byte 40H to 4FH (30_encoding.md R64). -/
def rexOfByte (b : Byte) : Option Rex :=
  if b.extractLsb' 4 4 = 4#4 then
    some ⟨b.getLsbD 3, b.getLsbD 2, b.getLsbD 1, b.getLsbD 0⟩
  else none

/-- The rounding-control encoding (10_state.md R25), the same for MXCSR.RC and EVEX.RC. -/
def RoundingMode.ofBits (b : BitVec 2) : RoundingMode :=
  if b = 0#2 then .rn else if b = 1#2 then .rd else if b = 2#2 then .ru else .rz

def RoundingMode.toBits : RoundingMode → BitVec 2
  | .rn => 0#2
  | .rd => 1#2
  | .ru => 2#2
  | .rz => 3#2

/-! ## ModRM, SIB, displacement (30_encoding.md R65 to R68) -/

/-- The displacement that `mod` calls for, `mod` not 11b (30_encoding.md R68). -/
def decodeDisp (mod : BitVec 2) (bs : List Byte) : Except DecodeRefusal (Disp × List Byte) :=
  if mod = 0#2 then .ok (.none, bs)
  else if mod = 1#2 then
    match bs with
    | d :: r => .ok (.d8 d, r)
    | _ => .error .truncated
  else
    match bs with
    | d0 :: d1 :: d2 :: d3 :: r => .ok (.d32 (d3 ++ d2 ++ d1 ++ d0), r)
    | _ => .error .truncated

/-- The four bytes of a displacement that stands without a base register, little-endian. -/
def decodeDisp32 (bs : List Byte) : Except DecodeRefusal (BitVec 32 × List Byte) :=
  match bs with
  | d0 :: d1 :: d2 :: d3 :: r => .ok (d3 ++ d2 ++ d1 ++ d0, r)
  | _ => .error .truncated

/-- The memory operand of a ModRM byte with `mod` not 11b (30_encoding.md R66, R67). -/
def decodeAddress (mod : BitVec 2) (rm : BitVec 3) (bs : List Byte) :
    Except DecodeRefusal (Address × List Byte) :=
  if rm = 4#3 then
    match bs with
    | [] => .error .truncated
    | sib :: r =>
      let ss := sib.extractLsb' 6 2
      let index := sib.extractLsb' 3 3
      let base := sib.extractLsb' 0 3
      if mod = 0#2 ∧ base = 5#3 then
        match decodeDisp32 r with
        | .error e => .error e
        | .ok (d, r') => .ok (.sibNoBase ss index d, r')
      else
        match decodeDisp mod r with
        | .error e => .error e
        | .ok (d, r') => .ok (.sib ss index base d, r')
  else if mod = 0#2 ∧ rm = 5#3 then
    match decodeDisp32 bs with
    | .error e => .error e
    | .ok (d, r') => .ok (.disp32 d, r')
  else
    match decodeDisp mod bs with
    | .error e => .error e
    | .ok (d, r') => .ok (.base rm d, r')

/-- ModRM and what follows it: the `reg` field, operand 2, and the bytes left (30_encoding.md R65). -/
def decodeOperands (bs : List Byte) : Except DecodeRefusal (BitVec 3 × RmOperand × List Byte) :=
  match bs with
  | [] => .error .truncated
  | m :: r =>
    if m.extractLsb' 6 2 = 3#2 then .ok (m.extractLsb' 3 3, .reg (m.extractLsb' 0 3), r)
    else
      match decodeAddress (m.extractLsb' 6 2) (m.extractLsb' 0 3) r with
      | .error e => .error e
      | .ok (a, r') => .ok (m.extractLsb' 3 3, .mem a, r')

/-! ## The three encodings -/

/-- Form F1 from its byte 0FH on (30_encoding.md R63): `ps` are all prefix bytes before it, the last of which
must be F2H; the others must be admitted ones or LOCK (R80, R81). -/
def decodeLegacy (ps : List Prefix) (rex : Option Rex) (bs : List Byte) : DecodeResult :=
  match bs with
  | [] => .error .truncated
  | op :: r =>
    if op ≠ 0xE6#8 ∨ !ps.contains .repne then .error .notInScope
    else if ps.getLast? ≠ some .repne ∨ !ps.dropLast.all Prefix.legacyOk then
      .error .legacyPrefixArrangement
    else
      match decodeOperands r with
      | .error e => .error e
      | .ok (reg, rm, r') =>
        match rex with
        | none => .ok (.cvtpd2dq ps.dropLast reg rm, r')
        | some x => .ok (.cvtpd2dqRex ps.dropLast x reg rm, r')

/-- Forms F2 and F3 after C5H (30_encoding.md R70, R72). -/
def decodeVex2 (mode : Mode) (pre : VexPrelude) (bs : List Byte) : DecodeResult :=
  match bs with
  | p :: op :: r =>
    if mode = .mode32 ∧ p.extractLsb' 6 2 ≠ 3#2 then .error .mode32OtherInstruction
    else if p.extractLsb' 0 2 ≠ 3#2 ∨ op ≠ 0xE6#8 then .error .notInScope
    else
      match decodeOperands r with
      | .error e => .error e
      | .ok (reg, rm, r') =>
        let v : Vex2 := ⟨!p.getLsbD 7, p.extractLsb' 3 4⟩
        if p.getLsbD 2 then .ok (.vcvtpd2dqVex256C5 pre v reg rm, r')
        else .ok (.vcvtpd2dqVex128C5 pre v reg rm, r')
  | _ => .error .truncated

/-- Forms F2 and F3 after C4H (30_encoding.md R71, R72). -/
def decodeVex3 (mode : Mode) (pre : VexPrelude) (bs : List Byte) : DecodeResult :=
  match bs with
  | p0 :: p1 :: op :: r =>
    if mode = .mode32 ∧ p0.extractLsb' 6 2 ≠ 3#2 then .error .mode32OtherInstruction
    else if p0.extractLsb' 0 5 ≠ 1#5 ∨ p1.extractLsb' 0 2 ≠ 3#2 ∨ op ≠ 0xE6#8 then
      .error .notInScope
    else if mode = .mode32 ∧ !p0.getLsbD 5 then .error .mode32ExtensionBit
    else
      match decodeOperands r with
      | .error e => .error e
      | .ok (reg, rm, r') =>
        let v : Vex3 :=
          ⟨!p0.getLsbD 7, !p0.getLsbD 6, !p0.getLsbD 5, p1.getLsbD 7, p1.extractLsb' 3 4⟩
        if p1.getLsbD 2 then .ok (.vcvtpd2dqVex256C4 pre v reg rm, r')
        else .ok (.vcvtpd2dqVex128C4 pre v reg rm, r')
  | _ => .error .truncated

/-- The table of 30_encoding.md R76: the row that `mod`, `b` and `L'L` select. -/
def selectEvex (pre : VexPrelude) (e : Evex) (bc : Bool) (ll : BitVec 2) (reg : BitVec 3)
    (rm : RmOperand) : Instr :=
  match bc, rm with
  | true, .reg s => .vcvtpd2dqEvex512Er pre e (RoundingMode.ofBits ll) reg s
  | _, _ =>
    if ll = 0#2 then .vcvtpd2dqEvex128 pre e bc reg rm
    else if ll = 1#2 then .vcvtpd2dqEvex256 pre e bc reg rm
    else if ll = 2#2 then .vcvtpd2dqEvex512 pre e bc reg rm
    else .vcvtpd2dqReservedLength pre e bc reg rm

/-- The EVEX forms after 62H (30_encoding.md R73, R76, R79). -/
def decodeEvex (mode : Mode) (pre : VexPrelude) (bs : List Byte) : DecodeResult :=
  match bs with
  | p0 :: p1 :: p2 :: op :: r =>
    if mode = .mode32 ∧ p0.extractLsb' 6 2 ≠ 3#2 then .error .mode32OtherInstruction
    else if p0.extractLsb' 0 2 ≠ 1#2 ∨ p1.extractLsb' 0 2 ≠ 3#2 ∨ op ≠ 0xE6#8 then
      .error .notInScope
    else if p0.extractLsb' 2 2 ≠ 0#2 then .error .evexP0Reserved
    else if !p1.getLsbD 2 then .error .evexP1Reserved
    else if mode = .mode32 ∧ (!p0.getLsbD 5 ∨ !p0.getLsbD 4 ∨ !p2.getLsbD 3) then
      .error .mode32ExtensionBit
    else
      match decodeOperands r with
      | .error e => .error e
      | .ok (reg, rm, r') =>
        let e : Evex :=
          ⟨!p0.getLsbD 7, !p0.getLsbD 6, !p0.getLsbD 5, !p0.getLsbD 4, p1.getLsbD 7,
            p1.extractLsb' 3 4, p2.getLsbD 7, !p2.getLsbD 3, p2.extractLsb' 0 3⟩
        .ok (selectEvex pre e (p2.getLsbD 4) (p2.extractLsb' 5 2) reg rm, r')
  | _ => .error .truncated

/-! ## The decoder -/

/-- Collect the legacy prefix bytes an instruction begins with (30_encoding.md R60). -/
def splitPrefixes : List Byte → List Prefix × List Byte
  | [] => ([], [])
  | b :: bs =>
    match prefixOfByte b with
    | some p => (p :: (splitPrefixes bs).1, (splitPrefixes bs).2)
    | none => ([], b :: bs)

/-- The table of 30_encoding.md R61, at the first byte after legacy prefixes and REX. -/
def decodeOpcode (mode : Mode) (ps : List Prefix) (rex : Option Rex) (bs : List Byte) :
    DecodeResult :=
  match bs with
  | [] => .error .truncated
  | b :: r =>
    if b = 0x0F#8 then decodeLegacy ps rex r
    else if b = 0xC5#8 then decodeVex2 mode ⟨ps, rex⟩ r
    else if b = 0xC4#8 then decodeVex3 mode ⟨ps, rex⟩ r
    else if b = 0x62#8 then decodeEvex mode ⟨ps, rex⟩ r
    else if rex.isSome then .error .misplacedRex
    else .error .notInScope

/-- Decode the instruction that begins the bytes. -/
def decode (mode : Mode) (bs : List Byte) : DecodeResult :=
  if !mode.admitted then .error .modeNotAdmitted
  else if !prefixesOk (splitPrefixes bs).1 then .error .repeatedPrefix
  else if !addrSizeOk mode (splitPrefixes bs).1 then .error .addressSize16
  else
    match (splitPrefixes bs).2 with
    | [] => .error .truncated
    | b :: r =>
      match mode, rexOfByte b with
      | .mode64, some x => decodeOpcode mode (splitPrefixes bs).1 (some x) r
      | _, _ => decodeOpcode mode (splitPrefixes bs).1 none (b :: r)

/-! ## The encoder -/

/-- A doubleword's bytes, little-endian (30_encoding.md R68). -/
def bytesOfDword (d : BitVec 32) : List Byte :=
  [d.extractLsb' 0 8, d.extractLsb' 8 8, d.extractLsb' 16 8, d.extractLsb' 24 8]

/-- The `mod` field and the bytes of a displacement (30_encoding.md R68). -/
def Disp.modBits : Disp → BitVec 2
  | .none => 0#2
  | .d8 _ => 1#2
  | .d32 _ => 2#2

def Disp.bytes : Disp → List Byte
  | .none => []
  | .d8 d => [d]
  | .d32 d => bytesOfDword d

/-- ModRM, SIB and displacement (30_encoding.md R65 to R68). -/
def encodeOperands (reg : BitVec 3) : RmOperand → List Byte
  | .reg rm => [3#2 ++ reg ++ rm]
  | .mem (.base rm disp) => (disp.modBits ++ reg ++ rm) :: disp.bytes
  | .mem (.disp32 d) => (0#2 ++ reg ++ 5#3) :: bytesOfDword d
  | .mem (.sib ss index base disp) =>
      (disp.modBits ++ reg ++ 4#3) :: (ss ++ index ++ base) :: disp.bytes
  | .mem (.sibNoBase ss index d) =>
      (0#2 ++ reg ++ 4#3) :: (ss ++ index ++ 5#3) :: bytesOfDword d

/-- The legacy prefixes and REX before a VEX or EVEX prefix. -/
def VexPrelude.bytes (pre : VexPrelude) : List Byte :=
  pre.prefixes.map Prefix.toByte ++
    match pre.rex with
    | none => []
    | some x => [x.toByte]

/-- C5H and the byte `P` of 30_encoding.md R70, with `pp = 11b`. -/
def Vex2.bytes (v : Vex2) (l : Bool) : List Byte :=
  [0xC5#8, BitVec.ofBool (!v.r) ++ v.vvvv ++ BitVec.ofBool l ++ 3#2]

/-- C4H, `P0` and `P1` of 30_encoding.md R71, with `mmmmm = 00001b` and `pp = 11b`. -/
def Vex3.bytes (v : Vex3) (l : Bool) : List Byte :=
  [0xC4#8, BitVec.ofBool (!v.r) ++ BitVec.ofBool (!v.x) ++ BitVec.ofBool (!v.b) ++ 1#5,
    BitVec.ofBool v.w ++ v.vvvv ++ BitVec.ofBool l ++ 3#2]

/-- 62H, `P0`, `P1` and `P2` of 30_encoding.md R73, with `mm = 01b` and `pp = 11b`. -/
def Evex.bytes (e : Evex) (bc : Bool) (ll : BitVec 2) : List Byte :=
  [0x62#8,
    BitVec.ofBool (!e.r) ++ BitVec.ofBool (!e.x) ++ BitVec.ofBool (!e.b) ++
      BitVec.ofBool (!e.rHi) ++ 0#2 ++ 1#2,
    BitVec.ofBool e.w ++ e.vvvv ++ 1#1 ++ 3#2,
    BitVec.ofBool e.z ++ ll ++ BitVec.ofBool bc ++ BitVec.ofBool (!e.vHi) ++ e.aaa]

/-- The bytes of an instruction (30_encoding.md R63, R70 to R76). -/
def encode : Instr → List Byte
  | .cvtpd2dq ps reg rm =>
      ps.map Prefix.toByte ++ [0xF2#8, 0x0F#8, 0xE6#8] ++ encodeOperands reg rm
  | .cvtpd2dqRex ps rex reg rm =>
      ps.map Prefix.toByte ++ [0xF2#8, rex.toByte, 0x0F#8, 0xE6#8] ++ encodeOperands reg rm
  | .vcvtpd2dqVex128C5 pre v reg rm =>
      pre.bytes ++ v.bytes false ++ [0xE6#8] ++ encodeOperands reg rm
  | .vcvtpd2dqVex128C4 pre v reg rm =>
      pre.bytes ++ v.bytes false ++ [0xE6#8] ++ encodeOperands reg rm
  | .vcvtpd2dqVex256C5 pre v reg rm =>
      pre.bytes ++ v.bytes true ++ [0xE6#8] ++ encodeOperands reg rm
  | .vcvtpd2dqVex256C4 pre v reg rm =>
      pre.bytes ++ v.bytes true ++ [0xE6#8] ++ encodeOperands reg rm
  | .vcvtpd2dqEvex128 pre e bc reg rm =>
      pre.bytes ++ e.bytes bc 0#2 ++ [0xE6#8] ++ encodeOperands reg rm
  | .vcvtpd2dqEvex256 pre e bc reg rm =>
      pre.bytes ++ e.bytes bc 1#2 ++ [0xE6#8] ++ encodeOperands reg rm
  | .vcvtpd2dqEvex512 pre e bc reg rm =>
      pre.bytes ++ e.bytes bc 2#2 ++ [0xE6#8] ++ encodeOperands reg rm
  | .vcvtpd2dqEvex512Er pre e rc reg rm =>
      pre.bytes ++ e.bytes true rc.toBits ++ [0xE6#8] ++ encodeOperands reg (.reg rm)
  | .vcvtpd2dqReservedLength pre e bc reg rm =>
      pre.bytes ++ e.bytes bc 3#2 ++ [0xE6#8] ++ encodeOperands reg rm

/-! ## Length (30_encoding.md R85) -/

/-- The displacement bytes: 0, 1 or 4. -/
def Disp.length : Disp → Nat
  | .none => 0
  | .d8 _ => 1
  | .d32 _ => 4

/-- ModRM, SIB if present, and displacement bytes. -/
def RmOperand.length : RmOperand → Nat
  | .reg _ => 1
  | .mem (.base _ disp) => 1 + disp.length
  | .mem (.disp32 _) => 1 + 4
  | .mem (.sib _ _ _ disp) => 1 + 1 + disp.length
  | .mem (.sibNoBase _ _ _) => 1 + 1 + 4

/-- The bytes before a VEX or EVEX prefix. -/
def VexPrelude.length (pre : VexPrelude) : Nat :=
  pre.prefixes.length + if pre.rex.isSome then 1 else 0

/-- `ilen`, the instruction's length in bytes (30_encoding.md R85). -/
def Instr.ilen : Instr → Nat
  | .cvtpd2dq ps _ rm => ps.length + 1 + 2 + rm.length
  | .cvtpd2dqRex ps _ _ rm => ps.length + 1 + 1 + 2 + rm.length
  | .vcvtpd2dqVex128C5 pre _ _ rm => pre.length + 2 + 1 + rm.length
  | .vcvtpd2dqVex128C4 pre _ _ rm => pre.length + 3 + 1 + rm.length
  | .vcvtpd2dqVex256C5 pre _ _ rm => pre.length + 2 + 1 + rm.length
  | .vcvtpd2dqVex256C4 pre _ _ rm => pre.length + 3 + 1 + rm.length
  | .vcvtpd2dqEvex128 pre _ _ _ rm => pre.length + 4 + 1 + rm.length
  | .vcvtpd2dqEvex256 pre _ _ _ rm => pre.length + 4 + 1 + rm.length
  | .vcvtpd2dqEvex512 pre _ _ _ rm => pre.length + 4 + 1 + rm.length
  | .vcvtpd2dqEvex512Er pre _ _ _ _ => pre.length + 4 + 1 + 1
  | .vcvtpd2dqReservedLength pre _ _ _ rm => pre.length + 4 + 1 + rm.length

/-! ## The opcode table's numbering -/

/-- The longest instruction, in bytes (30_encoding.md R60). -/
def maxInstrBytes : Nat := 15

/-- The bytes of an instruction whose bits are numbered as spec/opcode_table.json numbers them (the first byte
lowest), followed by zeros up to the longest instruction. -/
def tableBytes (nbits w : Nat) : List Byte :=
  (List.range maxInstrBytes).map fun i =>
    if 8 * i < nbits then BitVec.ofNat 8 (w / 2 ^ (8 * i)) else 0#8

/-- The instruction the decoder reads from a table word, in Mode64 (row 2 exists in no other mode). -/
def decodeTableWord (nbits w : Nat) : Option Instr :=
  match decode .mode64 (tableBytes nbits w) with
  | .ok (i, _) => some i
  | .error _ => none

end Sys2Proof
end

