-- ==== Sys2Proof/Machine/State.lean ====
section
/-! DEFINITION. The machine's state as plain data (10_state.md), the exceptions and their record
(60_exceptions.md R140, R150), the reasons a step can stop, and the state after reset (10_state.md R35). -/

namespace Sys2Proof.Machine

/-! ## Exceptions -/

/-- The exceptions of 60_exceptions.md R140. `ac` is listed there and never raised: the model refuses instead
(20_memory.md R46). -/
inductive Exception where
  | ud | nm | ss | gp | pf | ac | xm
  deriving DecidableEq, Repr

/-- The bits of a page-fault code that 20_memory.md R48 names (log 21: their positions are not given). -/
structure PageFaultCode where
  p : Bool
  wr : Bool
  us : Bool
  rsvd : Bool
  id : Bool
  pk : Bool
  deriving DecidableEq, Repr

/-- The error code column of 60_exceptions.md R140. -/
inductive ErrorCode where
  | none
  | zero
  | page (c : PageFaultCode)
  deriving DecidableEq, Repr

/-- The outcome `Trap(E, code)` of a step (60_exceptions.md R149, R150). -/
structure Trap where
  exc : Exception
  code : ErrorCode
  deriving DecidableEq, Repr

/-! ## The MemCheck oracle as data (20_memory.md R48, R49, R51, R55; log 7) -/

/-- Why a segment refuses an access: `bounds` is a limit or canonical violation, `unusable` a null segment or
one whose type does not admit the access (60_exceptions.md R145). -/
inductive SegmentCause where
  | bounds
  | unusable
  deriving DecidableEq, Repr

/-- Offsets `first` to `last` of a segment refuse a data read, a fetch, or both (20_memory.md R48). -/
structure SegmentRule where
  seg : Seg
  first : Nat
  last : Nat
  read : Bool
  fetch : Bool
  cause : SegmentCause
  deriving DecidableEq, Repr

/-- A fault of an access as a whole: of its segment, or at page level with bits of the fault code and the
faulting linear address (20_memory.md R48). -/
inductive AccessFault where
  | segment (cause : SegmentCause)
  | page (p us rsvd pk : Bool) (addr : Qword)
  deriving DecidableEq, Repr

/-- MemCheck's answer to one question: a read or fetch of the `n` bytes at offset `ea` of the segment, linear
address `la` (20_memory.md R48: its answer depends on its arguments). -/
structure AccessRule where
  fetch : Bool
  seg : Seg
  ea : Qword
  la : Qword
  n : Nat
  fault : AccessFault
  deriving DecidableEq, Repr

/-- Linear addresses `first` to `last` fault at page level on a data read, on a fetch, or on both; the other
fields are bits of the fault code (20_memory.md R48, R55). -/
structure PageRule where
  first : Nat
  last : Nat
  read : Bool
  fetch : Bool
  p : Bool
  us : Bool
  rsvd : Bool
  pk : Bool
  deriving DecidableEq, Repr

/-- Linear addresses `first` to `last` are not ordinary memory (20_memory.md R49). -/
structure DeviceRule where
  first : Nat
  last : Nat
  deriving DecidableEq, Repr

/-- The answers of the MemCheck oracle: whatever no rule names is `ok`. There are finitely many questions, so
`accesses` alone can hold the answers of any oracle; the other tables say those that concern single bytes. -/
structure Protection where
  segments : List SegmentRule
  accesses : List AccessRule
  pages : List PageRule
  devices : List DeviceRule
  deriving DecidableEq, Repr

/-! ## The state -/

/-- Linear memory: the listed bytes, addresses strictly rising, none of them equal to what an unlisted address
reads as (20_memory.md R40; the form is `Memory.wf` of Machine/Ops.lean). -/
abbrev Memory := List Host.Cell

/-- The stored segment bases (10_state.md R29, R35). -/
structure SegBases where
  es : Qword
  cs : Qword
  ss : Qword
  ds : Qword
  fs : Qword
  gs : Qword
  deriving DecidableEq, Repr

/-- Everything the spec gives the machine (10_state.md R20 to R33; INVENTORY.md, State). -/
structure State where
  mode : Mode
  cfg : Config
  zmm : Vector Vec 32
  k : Vector Qword 8
  mxcsr : Dword
  ip : Qword
  gpr : Vector Qword 16
  rflags : Qword
  cr0 : Qword
  cr4 : Qword
  xcr0 : Qword
  cr2 : Qword
  cpl : BitVec 2
  segBase : SegBases
  mem : Memory
  prot : Protection
  /-- The terminal outcome of the step just taken, if it was a trap (60_exceptions.md R150; log 6). -/
  trap : Option Trap
  deriving DecidableEq, Repr

/-! ## Stops -/

/-- Why the machine stops with a fault. -/
inductive Fault where
  /-- Raised by `step` on a state in which a trap has been taken: "Nothing runs after a `Trap` outcome"
  (60_exceptions.md R150). Safe: the chip goes on in a handler that the spec leaves out (scope R6). -/
  | trapped (t : Trap)
  deriving DecidableEq, Repr

/-- Why a step is given no meaning. All are safe: the model claims nothing where the chip may go on. -/
inductive Refusal where
  /-- Raised by `exec` on an instruction without a meaning. -/
  | notModelled (mnemonic : String)
  /-- Raised by `step`, the decoder gives the bytes no meaning (60_exceptions.md R149). -/
  | notDecoded (r : DecodeRefusal)
  /-- Raised by `step` and every meaning in a mode other than Mode64 and Mode32 (00_scope.md R9). -/
  | modeNotAdmitted
  /-- Raised by `step` on an instruction across the top of the canonical range or a segment limit
  (10_state.md R26). -/
  | placement
  /-- Raised by a VEX or EVEX form's memory read, the operand unaligned under `AlignCheck` (20_memory.md R46). -/
  | alignmentCheck
  /-- Raised by a memory read of something other than ordinary memory (20_memory.md R49), and by `step` on a fetch
  from there, which is the model's choice (log 12: DESIGN CHOICE). -/
  | deviceMemory
  /-- Raised by an enabled EVEX form where MAXVL is less than 512, which 00_scope.md R6 and decision D27 leave
  out, and by form F3 where MAXVL is 128 and no 256-bit source exists (R7; log 13). -/
  | maxvlOutOfScope
  deriving DecidableEq, Repr

/-! ## Reset -/

/-- The parameters of the reset state (log 2: DESIGN CHOICE, but for MAXVL of decision D4 and
`fault_suppression` of 20_memory.md R50). -/
def Config.reset : Config where
  maxvl := .v512
  sse2 := true
  avx := true
  avx512f := true
  avx512vl := true
  avx10_1 := false
  faultSuppression := false
  la57 := false

/-- The state after power-up or RESET (10_state.md R35; log 3 and 4 for what that table does not give). -/
def State.reset : State where
  mode := .other .realAddress
  cfg := Config.reset
  zmm := Vector.replicate 32 0#512
  k := Vector.replicate 8 0#64
  mxcsr := 0x00001F80#32
  ip := 0x0000FFF0#64
  gpr := Vector.replicate 16 0#64
  rflags := 0x00000002#64
  cr0 := 0x60000010#64
  cr4 := 0#64
  xcr0 := 1#64
  cr2 := 0#64
  cpl := 0#2
  segBase := ⟨0#64, 0xFFFF0000#64, 0#64, 0#64, 0#64, 0#64⟩
  mem := []
  prot := ⟨[], [], [], []⟩
  trap := none

end Sys2Proof.Machine
end

