-- ==== Sys2Proof/Machine/Ops.lean ====
section
/-! DEFINITION. The named operations of the machine: registers, memory, the MemCheck oracle, taking an exception
and resuming from one, the common prologue of the forms, and fetching an instruction. -/

namespace Sys2Proof.Machine

/-! ## The outcome of a part of a step -/

/-- What a part of a step answers: a value, a state in which an exception has been taken (`raise`, 00_scope.md
R12), or a refusal. -/
inductive Eff (α : Type) where
  | ok (a : α)
  | raise (s : State)
  | refuse (r : Refusal)
  deriving DecidableEq, Repr

/-- Go on with the value, if there is one: nothing after a `raise` happens (00_scope.md R12). -/
def Eff.andThen {α β : Type} (e : Eff α) (f : α → Eff β) : Eff β :=
  match e with
  | .ok a => f a
  | .raise s => .raise s
  | .refuse r => .refuse r

/-- The step's outcome: a completed instruction and a taken exception are both a next state
(60_exceptions.md R149, log 6). -/
def Eff.outcome (e : Eff State) : Host.Outcome State Fault Refusal :=
  match e with
  | .ok s => .next s
  | .raise s => .next s
  | .refuse r => .refused r

/-! ## Taking an exception (60_exceptions.md R140, R150) -/

/-- The vector numbers of 60_exceptions.md R140. -/
def Exception.vector : Exception → Nat
  | .ud => 6
  | .nm => 7
  | .ss => 12
  | .gp => 13
  | .pf => 14
  | .ac => 17
  | .xm => 19

/-- `raise E(code)`: the step ends with the outcome `Trap(E, code)`; `ip`, the destination, the opmasks, the
general registers and memory stay as they are, and CR2 takes the faulting linear address of a page fault
(60_exceptions.md R140, R150). -/
def State.takeException (s : State) (e : Exception) (code : ErrorCode) (addr : Option Qword) :
    State :=
  { s with trap := some ⟨e, code⟩, cr2 := addr.getD s.cr2 }

/-- The return of 60_exceptions.md R152: the faulting instruction is executed again from its first byte, in the
state the trap left. No instruction in scope does this; statements about restarting use it. -/
def State.resume (s : State) : State :=
  { s with trap := none }

/-! ## Registers -/

/-- An address or instruction pointer of the mode's width, held in 64 bits (10_state.md R26, 20_memory.md
R40). -/
def truncAddr (mode : Mode) (a : Qword) : Qword :=
  match mode with
  | .mode32 => (a.setWidth 32).setWidth 64
  | _ => a

/-- `ip` in the mode's width (10_state.md R26). -/
def State.instrPtr (s : State) : Qword := truncAddr s.mode s.ip

/-- `ip <- ip + ilen`, modulo 2^32 in Mode32 (10_state.md R26). -/
def State.advance (s : State) (ilen : Nat) : State :=
  { s with ip := truncAddr s.mode (s.ip + BitVec.ofNat 64 ilen) }

/-- `ZMM[n]` (00_scope.md R12). -/
def State.readZmm (s : State) (n : BitVec 5) : Vec := s.zmm.get n.toFin

/-- The bits of a vector register that MAXVL gives it (00_scope.md R7). -/
def MaxVl.mask : MaxVl → Vec
  | .v128 => (BitVec.allOnes 128).setWidth 512
  | .v256 => (BitVec.allOnes 256).setWidth 512
  | .v512 => BitVec.allOnes 512

/-- `ZMM[n] <- v`: all MAXVL bits are written; bits at or above MAXVL do not exist and are neither written nor
preserved, which the stored value shows by keeping what it held (00_scope.md R7, R12). -/
def State.writeZmm (s : State) (n : BitVec 5) (v : Vec) : State :=
  { s with
    zmm := s.zmm.set n.toNat
      ((v &&& MaxVl.mask s.cfg.maxvl) ||| (s.readZmm n &&& ~~~(MaxVl.mask s.cfg.maxvl))) }

/-- `K[n]` (00_scope.md R12). -/
def State.readK (s : State) (n : BitVec 3) : Qword := s.k.get n.toFin

/-- `x[i]` (00_scope.md R12). -/
def State.readGpr (s : State) (i : BitVec 4) : Qword := s.gpr.get i.toFin

/-- SegBase: in Mode64 the bases of ES, CS, SS and DS are 0 (10_state.md R29). -/
def State.segmentBase (s : State) (seg : Seg) : Qword :=
  match s.mode, seg with
  | .mode64, .es | .mode64, .cs | .mode64, .ss | .mode64, .ds => 0#64
  | _, .es => s.segBase.es
  | _, .cs => s.segBase.cs
  | _, .ss => s.segBase.ss
  | _, .ds => s.segBase.ds
  | _, .fs => s.segBase.fs
  | _, .gs => s.segBase.gs

/-! ## Memory (20_memory.md R40, R42) -/

/-- What a byte that nothing has written reads as (log 1: DESIGN CHOICE, unsafe). -/
def unlistedByte : Byte := 0#8

/-- One byte of memory. -/
def Memory.read : Memory → Nat → Byte
  | [], _ => unlistedByte
  | (b, v) :: m, a => if b = a then v else Memory.read m a

/-- Write one byte, keeping the canonical form. -/
def Memory.write : Memory → Nat → Byte → Memory
  | [], a, v => if v = unlistedByte then [] else [(a, v)]
  | (b, w) :: m, a, v =>
    if a < b then (if v = unlistedByte then (b, w) :: m else (a, v) :: (b, w) :: m)
    else if a = b then (if v = unlistedByte then m else (a, v) :: m)
    else (b, w) :: Memory.write m a v

/-- Every listed address is at least `lo`, addresses rise strictly, and no listed byte is what an unlisted one
reads as. -/
def Memory.wfFrom : Nat → Memory → Bool
  | _, [] => true
  | lo, (a, v) :: m => decide (lo ≤ a) && v != unlistedByte && Memory.wfFrom (a + 1) m

/-- The canonical form of memory, every address a linear address of at most 64 bits (20_memory.md R40). -/
def Memory.wf (m : Memory) : Bool :=
  Memory.wfFrom 0 m && m.all fun c => decide (c.1 < 2 ^ 64)

/-- The linear address of byte `i` of an operand or an instruction at `la`, modulo 2^A (20_memory.md R40, R47). That
bytes past the top go on at address 0 is the model's reading (log 10: DEDUCED). -/
def State.byteAddr (s : State) (la : Qword) (i : Nat) : Qword :=
  truncAddr s.mode (la + BitVec.ofNat 64 i)

/-- The byte at a linear address. -/
def State.readByte (s : State) (a : Qword) : Byte := s.mem.read a.toNat

/-- Eight bytes, little-endian: byte `i` is bits `8i+7` to `8i` (20_memory.md R42). -/
def State.readQword (s : State) (la : Qword) : Qword :=
  s.readByte (s.byteAddr la 7) ++ s.readByte (s.byteAddr la 6) ++ s.readByte (s.byteAddr la 5) ++
    s.readByte (s.byteAddr la 4) ++ s.readByte (s.byteAddr la 3) ++ s.readByte (s.byteAddr la 2) ++
    s.readByte (s.byteAddr la 1) ++ s.readByte (s.byteAddr la 0)

/-- Write bytes at increasing addresses. No form in scope does (20_memory.md R49); placing a program does. -/
def State.writeBytes (s : State) (la : Qword) : Nat → List Byte → State
  | _, [] => s
  | i, b :: bs =>
    State.writeBytes { s with mem := s.mem.write (s.byteAddr la i).toNat b } la (i + 1) bs

/-- The linear address of an effective address (20_memory.md R47). -/
def State.linear (s : State) (seg : Seg) (ea : Qword) : Qword :=
  truncAddr s.mode (s.segmentBase seg + ea)

/-! ## The MemCheck oracle (20_memory.md R48; log 7) -/

/-- Bits 63:47 all equal, or 63:56 with five-level paging (20_memory.md R51). -/
def canonical (la57 : Bool) (a : Qword) : Bool :=
  if la57 then (a.setWidth 57).signExtend 64 == a else (a.setWidth 48).signExtend 64 == a

/-- #SS(0) for a limit or canonical violation through SS; #GP(0) for one through any other segment, and for a
null or unreadable segment (60_exceptions.md R145). That an unusable SS takes #GP(0) too, where 20_memory.md R48
has #SS(0) for the type checks of SS, is the model's choice (log 27: DESIGN CHOICE). -/
def segmentException (seg : Seg) (cause : SegmentCause) : Exception :=
  match seg, cause with
  | .ss, .bounds => .ss
  | _, _ => .gp

/-- Whether an address is canonical as far as the mode asks for it (20_memory.md R51). -/
def State.canonicalOk (s : State) (a : Qword) : Bool :=
  match s.mode with
  | .mode64 => canonical s.cfg.la57 a
  | _ => true

/-- How an offset violates its segment's limit or type on a read or a fetch, if it does (20_memory.md R48). -/
def State.segmentViolation (s : State) (fetch : Bool) (seg : Seg) (offset : Nat) :
    Option SegmentCause :=
  s.prot.segments.findSome? fun r =>
    if r.seg == seg && decide (r.first ≤ offset) && decide (offset ≤ r.last) &&
        (if fetch then r.fetch else r.read) then
      some r.cause
    else none

/-- The page-level fault at a linear address, if there is one, for a read or a fetch: W/R is 0, and I/D is set
for a fetch (20_memory.md R48, R55). -/
def State.pageFault (s : State) (fetch : Bool) (a : Nat) : Option PageFaultCode :=
  s.prot.pages.findSome? fun r =>
    if decide (r.first ≤ a) && decide (a ≤ r.last) && (if fetch then r.fetch else r.read) then
      some ⟨r.p, false, r.us, r.rsvd, fetch, r.pk⟩
    else none

/-- Whether a linear address lies outside ordinary memory (20_memory.md R49). -/
def State.isDevice (s : State) (a : Nat) : Bool :=
  s.prot.devices.any fun r => decide (r.first ≤ a) && decide (a ≤ r.last)

/-- A part of an operand that MemCheck is asked about at once: its offset in the operand and its bytes. -/
structure Part where
  off : Nat
  n : Nat
  deriving DecidableEq, Repr

/-- The offsets of a part's bytes in the operand. -/
def Part.bytes (p : Part) : List Nat := (List.range p.n).map (p.off + ·)

/-- The offsets of the bytes of several parts. -/
def partBytes (ps : List Part) : List Nat := ps.flatMap Part.bytes

/-- The fault of a part as a whole, if there is one: the answer to `MemCheck(seg, ea, la, n)` at the part's own
`ea` and `la` (20_memory.md R48). -/
def State.partFault (s : State) (fetch : Bool) (seg : Seg) (ea la : Qword) (p : Part) :
    Option AccessFault :=
  s.prot.accesses.findSome? fun r =>
    if r.fetch == fetch && r.seg == seg && r.ea == s.byteAddr ea p.off && r.la == s.byteAddr la p.off &&
        r.n == p.n then
      some r.fault
    else none

/-- The segment and canonical checks (60_exceptions.md R148 rank 4): of each byte, then of each part. -/
def State.segmentFault (s : State) (fetch : Bool) (seg : Seg) (ea la : Qword) (ps : List Part) :
    Option SegmentCause :=
  ((partBytes ps).findSome? fun o =>
    if s.canonicalOk (s.byteAddr la o) then s.segmentViolation fetch seg (s.byteAddr ea o).toNat
    else some .bounds).or
  (ps.findSome? fun p =>
    match s.partFault fetch seg ea la p with
    | some (.segment c) => some c
    | _ => none)

/-- The page-level checks (60_exceptions.md R148 rank 5), with the faulting linear address: of each part, then of
each byte (log 9). -/
def State.translationFault (s : State) (fetch : Bool) (seg : Seg) (ea la : Qword) (ps : List Part) :
    Option (PageFaultCode × Qword) :=
  (ps.findSome? fun p =>
    match s.partFault fetch seg ea la p with
    | some (.page p us rsvd pk a) => some (⟨p, false, us, rsvd, fetch, pk⟩, a)
    | _ => none).or
  ((partBytes ps).findSome? fun o =>
    (s.pageFault fetch (s.byteAddr la o).toNat).map fun c => (c, s.byteAddr la o))

/-- `MemCheck(seg, ea, la, n)` for the given parts of an operand: segment and canonical checks, then page-level
checks (60_exceptions.md R148 ranks 4 and 5), then ordinary memory (20_memory.md R49, for a data read). That a
fetch from other than ordinary memory is refused in the same way is the model's choice (log 12: DESIGN CHOICE):
R55 does not speak of it. So is it that an access with a segment or page fault takes the fault even where a byte
of it lies outside ordinary memory, and is refused only where it has none (log 7: DESIGN CHOICE): R49 asks for the
refusal and R148 gives it no rank. -/
def State.memCheck (s : State) (fetch : Bool) (seg : Seg) (ea la : Qword) (ps : List Part) :
    Eff Unit :=
  match s.segmentFault fetch seg ea la ps with
  | some cause => .raise (s.takeException (segmentException seg cause) .zero none)
  | none =>
    match s.translationFault fetch seg ea la ps with
    | some (c, a) => .raise (s.takeException .pf (.page c) (some a))
    | none =>
      if (partBytes ps).any fun o => s.isDevice (s.byteAddr la o).toNat then .refuse .deviceMemory
      else .ok ()

/-! ## The common prologue (60_exceptions.md R149) -/

/-- The six forms of 00_scope.md R2. -/
inductive Form where
  | f1 | f2 | f3 | f4 | f5 | f6
  deriving DecidableEq, Repr

/-- KL, the number of elements (00_scope.md R13, 43_evex_forms.md R130). -/
def Form.kl : Form → Nat
  | .f1 | .f2 | .f4 => 2
  | .f3 | .f5 => 4
  | .f6 => 8

/-- The EVEX forms. -/
def Form.isEvex : Form → Bool
  | .f1 | .f2 | .f3 => false
  | .f4 | .f5 | .f6 => true

/-- The extension condition of a form (00_scope.md R8). -/
def Config.extensionPresent (c : Config) : Form → Bool
  | .f1 => c.sse2
  | .f2 | .f3 => c.avx
  | .f4 | .f5 => (c.avx512vl && c.avx512f) || c.avx10_1
  | .f6 => c.avx512f || c.avx10_1

/-- CR0.TS (10_state.md R30, R32). -/
def State.ts (s : State) : Bool := s.cr0.getLsbD 3

/-- CR4.OSXMMEXCPT (10_state.md R30, R31). -/
def State.osxmmexcpt (s : State) : Bool := s.cr4.getLsbD 10

/-- `SimdUD(form)`, from the bits of 10_state.md R30 (60_exceptions.md R143; log 23). -/
def State.simdUD (s : State) : Form → Bool
  | .f1 => s.cr0.getLsbD 2 || !s.cr4.getLsbD 9
  | .f2 | .f3 => !s.cr4.getLsbD 18 || s.xcr0.extractLsb' 1 2 != 3#2
  | .f4 | .f5 | .f6 =>
      !s.cr4.getLsbD 18 || s.xcr0.extractLsb' 1 2 != 3#2 || s.xcr0.extractLsb' 5 3 != 7#3

/-- `AlignCheck`: CR0.AM, EFLAGS.AC and privilege level 3 (10_state.md R30, 20_memory.md R46). -/
def State.alignCheck (s : State) : Bool :=
  s.cr0.getLsbD 18 && s.rflags.getLsbD 18 && s.cpl == 3#2

/-- `Precheck(form)`: the exception of 60_exceptions.md R149, `encUD` being whether an encoding condition of
30_encoding.md R78 to R80 holds. -/
def State.precheck (s : State) (form : Form) (encUD : Bool) : Option Exception :=
  if encUD then some .ud
  else if !Config.extensionPresent s.cfg form then some .ud
  else if s.simdUD form then some .ud
  else if s.ts then some .nm
  else none

/-- Whether the registers are as wide as the form needs: for F3 its 256-bit source, for the EVEX forms the 512
bits that 00_scope.md R6 and decision D27 limit them to (R7; log 13). -/
def Config.maxvlOk (c : Config) : Form → Bool
  | .f1 | .f2 => true
  | .f3 => c.maxvl != .v128
  | .f4 | .f5 | .f6 => c.maxvl == .v512

/-- What every form does first: an admitted mode, `Precheck`, and vector registers of the form's width. -/
def State.prologue (s : State) (form : Form) (encUD : Bool) : Eff Unit :=
  if !s.mode.admitted then .refuse .modeNotAdmitted
  else
    match s.precheck form encUD with
    | some e => .raise (s.takeException e .none none)
    | none => if Config.maxvlOk s.cfg form then .ok () else .refuse .maxvlOutOfScope

/-- The encoding conditions of an instruction that has no form: always #UD (30_encoding.md R79). -/
def State.undefinedEncoding (s : State) : Eff State :=
  if !s.mode.admitted then .refuse .modeNotAdmitted
  else .raise (s.takeException .ud .none none)

/-! ## Fetch (20_memory.md R55, 60_exceptions.md R149) -/

/-- Where the instruction's bytes are: CS base + ip (20_memory.md R55), modulo 2^A (log 10). -/
def State.fetchAddr (s : State) : Qword := s.linear .cs s.instrPtr

/-- The bytes from there on, as many as the longest instruction has (30_encoding.md R60). In Mode32 with a CS base
other than 0 they can pass linear FFFFFFFFH and go on at linear 0, of which 20_memory.md R55's "CS base + ip upward"
says nothing: the model's reading (log 10: DEDUCED). -/
def State.fetchWindow (s : State) : List Byte :=
  (List.range maxInstrBytes).map fun i => s.readByte (s.byteAddr s.fetchAddr i)

/-- The code segment's limit admits the instruction's bytes, one by one and as one access (10_state.md R26, 20_memory.md
R48; log 12). -/
def State.withinCodeLimit (s : State) (ilen : Nat) : Bool :=
  ((List.range ilen).all fun i =>
    s.segmentViolation true .cs (s.instrPtr.toNat + i) != some .bounds) &&
  s.partFault true .cs s.instrPtr s.fetchAddr ⟨0, ilen⟩ != some (.segment .bounds)

/-- The instruction does not reach past the top of the canonical range, nor past 2^32 or the code segment's
limit (10_state.md R26; log 12). -/
def State.placementOk (s : State) (ilen : Nat) : Bool :=
  match s.mode with
  | .mode32 => decide (s.instrPtr.toNat + ilen ≤ 2 ^ 32) && s.withinCodeLimit ilen
  | _ =>
      decide (s.instrPtr.toNat + ilen < 2 ^ 64) &&
        ((List.range (ilen + 1)).all fun i => s.canonicalOk (s.instrPtr + BitVec.ofNat 64 i)) &&
        s.withinCodeLimit ilen

/-- The instruction at `ip`: its first byte must be fetchable, the bytes decode, the whole instruction lies
where 10_state.md R26 admits it, and all its bytes are fetchable. Which of these comes first, and that a fetch
from other than ordinary memory is refused, is the model's choice (log 12: DESIGN CHOICE). -/
def State.fetchInstr (s : State) : Eff Instr :=
  if !s.mode.admitted then .refuse .modeNotAdmitted
  else
    (s.memCheck true .cs s.instrPtr s.fetchAddr [⟨0, 1⟩]).andThen fun _ =>
      match decode s.mode s.fetchWindow with
      | .error r => .refuse (.notDecoded r)
      | .ok (i, _) =>
        if s.placementOk i.ilen then
          (s.memCheck true .cs s.instrPtr s.fetchAddr [⟨0, i.ilen⟩]).andThen fun _ => .ok i
        else .refuse .placement

end Sys2Proof.Machine
end

