-- ==== Sys2Proof/Machine/Flags.lean ====
section
/-! DEFINITION. MXCSR (10_state.md R23 to R25) and the floating-point exception response
(40_conversion.md R114 to R116, 60_exceptions.md R146). -/

namespace Sys2Proof.Machine

/-! ## The fields of MXCSR (10_state.md R23) -/

def State.ie (s : State) : Bool := s.mxcsr.getLsbD 0
def State.pe (s : State) : Bool := s.mxcsr.getLsbD 5
def State.daz (s : State) : Bool := s.mxcsr.getLsbD 6
def State.im (s : State) : Bool := s.mxcsr.getLsbD 7
def State.pm (s : State) : Bool := s.mxcsr.getLsbD 12
def State.rc (s : State) : RoundingMode := RoundingMode.ofBits (s.mxcsr.extractLsb' 13 2)

/-- The flag bits of a flag set at their places in MXCSR: IE is bit 0 and PE is bit 5. -/
def FpFlags.bits (fl : FpFlags) : Dword :=
  (BitVec.ofBool fl.ie).setWidth 32 ||| (BitVec.ofBool fl.pe).setWidth 32 <<< 5

/-- `MXCSR.IE <- MXCSR.IE OR ie`, `MXCSR.PE <- MXCSR.PE OR pe`: flags are only set, and no other bit changes
(10_state.md R24, 40_conversion.md R115). -/
def State.recordFlags (s : State) (fl : FpFlags) : State :=
  { s with mxcsr := s.mxcsr ||| fl.bits }

/-! ## The response (40_conversion.md R116) -/

/-- `raise SIMD-FP`: #XM, or #UD where OSXMMEXCPT is 0 (60_exceptions.md R146). -/
def State.simdException (s : State) : Exception := if s.osxmmexcpt then .xm else .ud

/-- `ExceptionResponse(FL)`. -/
def State.exceptionResponse (s : State) (fl : FpFlags) : Eff State :=
  if fl.ie && !s.im then
    .raise ((s.recordFlags ⟨true, false⟩).takeException s.simdException .none none)
  else if fl.pe && !s.pm then
    .raise ((s.recordFlags ⟨fl.ie, true⟩).takeException s.simdException .none none)
  else .ok (s.recordFlags fl)

/-- `FL`, the union of the flags of the `kl` elements (40_conversion.md R114). -/
def flagsOf (kl : Nat) (lane : Nat → Dword × FpFlags) : FpFlags :=
  (List.range kl).foldl (fun acc j => acc.union (lane j).2) FpFlags.none

end Sys2Proof.Machine
end

