-- ==== Sys2Proof/Machine/Operands.lean ====
section
/-! DEFINITION. Every operand form: register numbers (30_encoding.md R74), effective addresses and segments (R66
to R69, R77, R84), the read of the source (20_memory.md R43 to R50, 43_evex_forms.md R131), and the write of the
destination's elements (43_evex_forms.md R130, R132, R133). -/

namespace Sys2Proof.Machine

/-! ## Register numbers (30_encoding.md R74) -/

/-- The logical extension bits of an encoding, 0 where it has none. -/
structure Ext where
  r : Bool
  x : Bool
  b : Bool
  /-- `R'` -/
  rHi : Bool
  deriving DecidableEq, Repr

def Ext.none : Ext := ⟨false, false, false, false⟩
def Ext.ofRex (r : Rex) : Ext := ⟨r.r, r.x, r.b, false⟩
def Ext.ofVex2 (v : Vex2) : Ext := ⟨v.r, false, false, false⟩
def Ext.ofVex3 (v : Vex3) : Ext := ⟨v.r, v.x, v.b, false⟩
def Ext.ofEvex (e : Evex) : Ext := ⟨e.r, e.x, e.b, e.rHi⟩

/-- The destination: `R' : R : reg`. -/
def Ext.dest (e : Ext) (reg : BitVec 3) : BitVec 5 :=
  BitVec.ofBool e.rHi ++ BitVec.ofBool e.r ++ reg

/-- The source register: `X : B : rm` in an EVEX form, `B : rm` in the others. -/
def Ext.source (e : Ext) (form : Form) (rm : BitVec 3) : BitVec 5 :=
  BitVec.ofBool (form.isEvex && e.x) ++ BitVec.ofBool e.b ++ rm

/-- A base register: `B : rm` or `B : base`. -/
def Ext.baseReg (e : Ext) (n : BitVec 3) : BitVec 4 := BitVec.ofBool e.b ++ n

/-- An index register: `X : index`. -/
def Ext.indexReg (e : Ext) (n : BitVec 3) : BitVec 4 := BitVec.ofBool e.x ++ n

/-! ## What an encoding says of its source -/

/-- The parts of an encoding that its source operand depends on. -/
structure SourceCtx where
  form : Form
  ext : Ext
  prefixes : List Prefix
  /-- `ilen` (30_encoding.md R85), for the address relative to the next instruction. -/
  ilen : Nat
  /-- EVEX.b with a memory source (43_evex_forms.md R131). -/
  bcast : Bool
  /-- `enabled(j)` (43_evex_forms.md R132). -/
  enabled : Nat → Bool

/-- The bytes a memory source reads (20_memory.md R43). -/
def SourceCtx.width (c : SourceCtx) : Nat := if c.bcast then 8 else 8 * c.form.kl

/-- `N`, the scale of a one-byte displacement (30_encoding.md R77). -/
def SourceCtx.dispScale (c : SourceCtx) : Nat := if c.form.isEvex then c.width else 1

/-! ## Effective addresses (30_encoding.md R66 to R69, R84) -/

/-- Whether `AS` is 32 (30_encoding.md R66, R84). -/
def addr32 (mode : Mode) (ps : List Prefix) : Bool :=
  match mode with
  | .mode32 => true
  | _ => ps.contains .addrSize

/-- A value modulo 2^AS, zero-extended (30_encoding.md R66). -/
def truncAS (as32 : Bool) (a : Qword) : Qword := if as32 then (a.setWidth 32).setWidth 64 else a

/-- A general register read at `AS` bits (30_encoding.md R66). -/
def State.addrReg (s : State) (as32 : Bool) (i : BitVec 4) : Qword := truncAS as32 (s.readGpr i)

/-- The displacement, sign-extended; the one-byte form is then multiplied by `N` (30_encoding.md R68). -/
def Disp.value (n : Nat) : Disp → Qword
  | .none => 0#64
  | .d8 d => d.signExtend 64 * BitVec.ofNat 64 n
  | .d32 d => d.signExtend 64

/-- `scaled` of 30_encoding.md R67: index number 0100b means no index. -/
def State.scaledIndex (s : State) (as32 : Bool) (ss : BitVec 2) (idx : BitVec 4) : Qword :=
  if idx = 4#4 then 0#64 else s.addrReg as32 idx <<< ss.toNat

/-- The effective address, modulo 2^AS and zero-extended (30_encoding.md R66, R67). -/
def State.effAddr (s : State) (c : SourceCtx) (a : Address) : Qword :=
  let as32 := addr32 s.mode c.prefixes
  truncAS as32 <|
    match a with
    | .base rm disp => s.addrReg as32 (c.ext.baseReg rm) + Disp.value c.dispScale disp
    | .disp32 d =>
      match s.mode with
      | .mode32 => d.signExtend 64
      | _ => s.instrPtr + BitVec.ofNat 64 c.ilen + d.signExtend 64
    | .sib ss index bse disp =>
      s.addrReg as32 (c.ext.baseReg bse) + s.scaledIndex as32 ss (c.ext.indexReg index) +
        Disp.value c.dispScale disp
    | .sibNoBase ss index d =>
      s.scaledIndex as32 ss (c.ext.indexReg index) + d.signExtend 64

/-- SS for a base register number 4 or 5 without extension, else DS (30_encoding.md R69). -/
def defaultSegment (e : Ext) (a : Address) : Seg :=
  let ofBase (n : BitVec 4) : Seg := if n = 4#4 ∨ n = 5#4 then .ss else .ds
  match a with
  | .base rm _ => ofBase (e.baseReg rm)
  | .sib _ _ bse _ => ofBase (e.baseReg bse)
  | .disp32 _ | .sibNoBase _ _ _ => .ds

/-- Whether an override is honoured: in Mode64 only FS and GS are (30_encoding.md R69). -/
def overrideHonoured (mode : Mode) (seg : Seg) : Bool :=
  match mode, seg with
  | .mode64, .es | .mode64, .cs | .mode64, .ss | .mode64, .ds => false
  | _, _ => true

/-- The segment an honoured override prefix names, if there is one (30_encoding.md R69). -/
def segmentOverride (mode : Mode) (ps : List Prefix) : Option Seg :=
  ps.findSome? fun p =>
    match p with
    | .seg seg => if overrideHonoured mode seg then some seg else none
    | _ => none

/-- The segment of a memory operand (30_encoding.md R69). -/
def State.operandSegment (s : State) (c : SourceCtx) (a : Address) : Seg :=
  (segmentOverride s.mode c.prefixes).getD (defaultSegment c.ext a)

/-- The linear address of a memory operand (20_memory.md R47). -/
def State.operandAddr (s : State) (c : SourceCtx) (a : Address) : Qword :=
  s.linear (s.operandSegment c a) (s.effAddr c a)

/-! ## Reading the source -/

/-- The parts of the operand that MemCheck is asked about: the whole operand, or with `fault_suppression` and a
masked-off element the enabled elements of an EVEX form, one by one (20_memory.md R50; log 24). -/
def SourceCtx.checkedParts (c : SourceCtx) (suppress : Bool) : List Part :=
  if suppress && c.form.isEvex && !(List.range c.form.kl).all c.enabled then
    if c.bcast then if (List.range c.form.kl).any c.enabled then [⟨0, 8⟩] else []
    else ((List.range c.form.kl).filter c.enabled).map fun j => ⟨8 * j, 8⟩
  else [⟨0, c.width⟩]

/-- The offsets of the bytes of those parts. -/
def SourceCtx.checkedBytes (c : SourceCtx) (suppress : Bool) : List Nat :=
  partBytes (c.checkedParts suppress)

/-- `MemRead` up to its last line (20_memory.md R47), with the alignment rules R45 and R46. -/
def State.checkOperand (s : State) (c : SourceCtx) (a : Address) : Eff Unit :=
  if c.form = .f1 ∧ (s.operandAddr c a).toNat % 16 ≠ 0 then
    .raise (s.takeException .gp .zero none)
  else
    (s.memCheck false (s.operandSegment c a) (s.effAddr c a) (s.operandAddr c a)
      (c.checkedParts s.cfg.faultSuppression)).andThen fun _ =>
    if c.form ≠ .f1 ∧ s.alignCheck = true ∧ (s.operandAddr c a).toNat % c.width ≠ 0 then
      .refuse .alignmentCheck
    else .ok ()

/-- Source element `j`, `SRC[64*j+63 : 64*j]`: of the register, of memory, or the one broadcast quadword
(43_evex_forms.md R130, R131). -/
def State.sourceElement (s : State) (c : SourceCtx) (rm : RmOperand) (j : Nat) : Qword :=
  match rm with
  | .reg n => (s.readZmm (c.ext.source c.form n)).extractLsb' (64 * j) 64
  | .mem a =>
    s.readQword (s.byteAddr (s.operandAddr c a) (if c.bcast then 0 else 8 * j))

/-- The source of any form: its elements, once a memory operand has passed its checks. -/
def State.loadSource (s : State) (c : SourceCtx) (rm : RmOperand) : Eff (Nat → Qword) :=
  match rm with
  | .reg _ => .ok (s.sourceElement c rm)
  | .mem a => (s.checkOperand c a).andThen fun _ => .ok (s.sourceElement c rm)

/-! ## Writing the destination -/

/-- `r_{kl-1} ++ ... ++ r_1 ++ r_0`, zero-extended (42_vex_forms.md R126, 43_evex_forms.md R138). -/
def packDwords (kl : Nat) (r : Nat → Dword) : Vec :=
  (List.range kl).foldr (fun j acc => acc ||| (r j).setWidth 512 <<< (32 * j)) 0#512

/-- Destination element `j` of the old value, `OLD[32*j+31 : 32*j]` (43_evex_forms.md R138). -/
def dwordOf (v : Vec) (j : Nat) : Dword := v.extractLsb' (32 * j) 32

end Sys2Proof.Machine
end

