-- ==== Sys2Proof/Machine/Vex.lean ====
section
/-! DEFINITION. The VEX forms F2 and F3 (42_vex_forms.md R125, R126). -/

namespace Sys2Proof.Machine

/-- Whether what stands before a VEX or EVEX prefix makes the encoding #UD: LOCK, 66H, F2H, F3H or REX
(30_encoding.md R80). -/
def VexPrelude.isUD (pre : VexPrelude) : Bool :=
  pre.prefixes.any (fun p => p == .lock || p == .opSize || p == .repne || p == .rep) ||
    pre.rex.isSome

/-- `exec_F2` and `exec_F3` of R125 and R126: KL elements, zero-extended to MAXVL bits. The `vvvv` rule is
30_encoding.md R78. -/
def vexBody (form : Form) (pre : VexPrelude) (vvvv : BitVec 4) (ext : Ext) (ilen : Nat)
    (reg : BitVec 3) (rm : RmOperand) (s : State) : Eff State :=
  let c : SourceCtx := ⟨form, ext, pre.prefixes, ilen, false, fun _ => true⟩
  (s.prologue form (VexPrelude.isUD pre || vvvv != 15#4)).andThen fun _ =>
  (s.loadSource c rm).andThen fun src =>
  let lane := fun j => convert (src j) s.rc s.daz
  (s.exceptionResponse (flagsOf form.kl lane)).andThen fun s' =>
  .ok ((s'.writeZmm (ext.dest reg) (packDwords form.kl fun j => (lane j).1)).advance ilen)

/-- Row 3: VEX.128, two-byte prefix (R125). -/
def execVcvtpd2dqVex128C5 (pre : VexPrelude) (v : Vex2) (reg : BitVec 3) (rm : RmOperand)
    (s : State) : Host.Outcome State Fault Refusal :=
  (vexBody .f2 pre v.vvvv (Ext.ofVex2 v) (Instr.vcvtpd2dqVex128C5 pre v reg rm).ilen reg rm s).outcome

/-- Row 4: VEX.128, three-byte prefix, W ignored (30_encoding.md R72, R125). -/
def execVcvtpd2dqVex128C4 (pre : VexPrelude) (v : Vex3) (reg : BitVec 3) (rm : RmOperand)
    (s : State) : Host.Outcome State Fault Refusal :=
  (vexBody .f2 pre v.vvvv (Ext.ofVex3 v) (Instr.vcvtpd2dqVex128C4 pre v reg rm).ilen reg rm s).outcome

/-- Row 5: VEX.256, two-byte prefix (R126). -/
def execVcvtpd2dqVex256C5 (pre : VexPrelude) (v : Vex2) (reg : BitVec 3) (rm : RmOperand)
    (s : State) : Host.Outcome State Fault Refusal :=
  (vexBody .f3 pre v.vvvv (Ext.ofVex2 v) (Instr.vcvtpd2dqVex256C5 pre v reg rm).ilen reg rm s).outcome

/-- Row 6: VEX.256, three-byte prefix, W ignored (30_encoding.md R72, R126). -/
def execVcvtpd2dqVex256C4 (pre : VexPrelude) (v : Vex3) (reg : BitVec 3) (rm : RmOperand)
    (s : State) : Host.Outcome State Fault Refusal :=
  (vexBody .f3 pre v.vvvv (Ext.ofVex3 v) (Instr.vcvtpd2dqVex256C4 pre v reg rm).ilen reg rm s).outcome

end Sys2Proof.Machine
end

