-- ==== Sys2Proof/Machine/Evex.lean ====
section
/-! DEFINITION. The EVEX forms F4, F5 and F6 (43_evex_forms.md R130 to R138). -/

namespace Sys2Proof.Machine

/-- The encoding conditions of an EVEX form that raise #UD: those of 30_encoding.md R80, `vvvv` (R78), `V'`,
`z` without a mask, and W = 0 (R79). -/
def evexEncodingUD (pre : VexPrelude) (e : Evex) : Bool :=
  VexPrelude.isUD pre || e.vvvv != 15#4 || e.vHi || (e.z && e.aaa == 0#3) || !e.w

/-- `enabled(j)`: no writemask, or bit `j` of K[aaa] (43_evex_forms.md R132; `aaa = 000b` does not read k0,
30_encoding.md R75). -/
def State.laneEnabled (s : State) (aaa : BitVec 3) (j : Nat) : Bool :=
  aaa == 0#3 || (s.readK aaa).getLsbD j

/-- Destination element `j` (the table of 43_evex_forms.md R132). -/
def maskedDword (enabled z : Bool) (result old : Dword) : Dword :=
  if enabled then result else if z then 0#32 else old

/-- `exec_EVEX` of R138; `er` is the embedded rounding mode of R137. -/
def evexBody (form : Form) (pre : VexPrelude) (e : Evex) (bcast : Bool) (er : Option RoundingMode)
    (ilen : Nat) (reg : BitVec 3) (rm : RmOperand) (s : State) : Eff State :=
  let c : SourceCtx := ⟨form, Ext.ofEvex e, pre.prefixes, ilen, bcast, s.laneEnabled e.aaa⟩
  let d := (Ext.ofEvex e).dest reg
  (s.prologue form (evexEncodingUD pre e)).andThen fun _ =>
  (s.loadSource c rm).andThen fun src =>
  let old := s.readZmm d
  let lane := fun j => convert (src j) (er.getD s.rc) s.daz
  let flags := flagsOf form.kl fun j =>
    if s.laneEnabled e.aaa j then lane j else (0#32, FpFlags.none)
  let response := if er.isSome then .ok s else s.exceptionResponse flags
  response.andThen fun s' =>
  .ok ((s'.writeZmm d (packDwords form.kl fun j =>
    maskedDword (s.laneEnabled e.aaa j) e.z (lane j).1 (dwordOf old j))).advance ilen)

/-- Row 7: F4 (R134). -/
def execVcvtpd2dqEvex128 (pre : VexPrelude) (e : Evex) (bc : Bool) (reg : BitVec 3)
    (rm : RmOperand) (s : State) : Host.Outcome State Fault Refusal :=
  (evexBody .f4 pre e bc none (Instr.vcvtpd2dqEvex128 pre e bc reg rm).ilen reg rm s).outcome

/-- Row 8: F5 (R135). -/
def execVcvtpd2dqEvex256 (pre : VexPrelude) (e : Evex) (bc : Bool) (reg : BitVec 3)
    (rm : RmOperand) (s : State) : Host.Outcome State Fault Refusal :=
  (evexBody .f5 pre e bc none (Instr.vcvtpd2dqEvex256 pre e bc reg rm).ilen reg rm s).outcome

/-- Row 9: F6 (R136). -/
def execVcvtpd2dqEvex512 (pre : VexPrelude) (e : Evex) (bc : Bool) (reg : BitVec 3)
    (rm : RmOperand) (s : State) : Host.Outcome State Fault Refusal :=
  (evexBody .f6 pre e bc none (Instr.vcvtpd2dqEvex512 pre e bc reg rm).ilen reg rm s).outcome

/-- Row 10: F6 with embedded rounding (R137): the mode is EVEX.RC, and MXCSR is neither written nor able to
raise (40_conversion.md R117). -/
def execVcvtpd2dqEvex512Er (pre : VexPrelude) (e : Evex) (rc : RoundingMode) (reg : BitVec 3)
    (rm : BitVec 3) (s : State) : Host.Outcome State Fault Refusal :=
  (evexBody .f6 pre e false (some rc) (Instr.vcvtpd2dqEvex512Er pre e rc reg rm).ilen reg (.reg rm)
    s).outcome

/-- Row 11: the reserved vector length, always #UD (30_encoding.md R79). -/
def execVcvtpd2dqReservedLength (_pre : VexPrelude) (_e : Evex) (_bc : Bool) (_reg : BitVec 3)
    (_rm : RmOperand) (s : State) : Host.Outcome State Fault Refusal :=
  s.undefinedEncoding.outcome

end Sys2Proof.Machine
end

