-- ==== Sys2Proof/Machine/Legacy.lean ====
section
/-! DEFINITION. The legacy SSE form F1 (41_sse_form.md R120). -/

namespace Sys2Proof.Machine

/-- `exec_F1` of R120: two elements; bits 127:0 of the destination are written, the rest is kept. -/
def legacyBody (ps : List Prefix) (ext : Ext) (ilen : Nat) (reg : BitVec 3) (rm : RmOperand)
    (s : State) : Eff State :=
  let c : SourceCtx := ⟨.f1, ext, ps, ilen, false, fun _ => true⟩
  (s.prologue .f1 (ps.contains .lock)).andThen fun _ =>
  (s.loadSource c rm).andThen fun src =>
  let lane := fun j => convert (src j) s.rc s.daz
  (s.exceptionResponse (flagsOf 2 lane)).andThen fun s' =>
  let upper := s.readZmm (ext.dest reg) &&& ~~~((BitVec.allOnes 128).setWidth 512)
  .ok ((s'.writeZmm (ext.dest reg) (upper ||| packDwords 2 fun j => (lane j).1)).advance ilen)

/-- Row 1: `F2 0F E6 /r` (R120). -/
def execCvtpd2dq (ps : List Prefix) (reg : BitVec 3) (rm : RmOperand) (s : State) :
    Host.Outcome State Fault Refusal :=
  (legacyBody ps Ext.none (Instr.cvtpd2dq ps reg rm).ilen reg rm s).outcome

/-- Row 2: `F2 4x 0F E6 /r`, REX.W without effect (30_encoding.md R64, R120). -/
def execCvtpd2dqRex (ps : List Prefix) (rex : Rex) (reg : BitVec 3) (rm : RmOperand) (s : State) :
    Host.Outcome State Fault Refusal :=
  (legacyBody ps (Ext.ofRex rex) (Instr.cvtpd2dqRex ps rex reg rm).ilen reg rm s).outcome

end Sys2Proof.Machine
end

