-- ==== Sys2Proof/Machine/Dispatch.lean ====
section
/-! DEFINITION. The meaning of each instruction: one arm per row of spec/opcode_table.json. -/

namespace Sys2Proof.Machine

def exec (i : Instr) (s : State) : Host.Outcome State Fault Refusal :=
  match i with
  | .cvtpd2dq ps reg rm => Sys2Proof.Machine.execCvtpd2dq ps reg rm s
  | .cvtpd2dqRex ps rex reg rm => Sys2Proof.Machine.execCvtpd2dqRex ps rex reg rm s
  | .vcvtpd2dqVex128C5 pre v reg rm => Sys2Proof.Machine.execVcvtpd2dqVex128C5 pre v reg rm s
  | .vcvtpd2dqVex128C4 pre v reg rm => Sys2Proof.Machine.execVcvtpd2dqVex128C4 pre v reg rm s
  | .vcvtpd2dqVex256C5 pre v reg rm => Sys2Proof.Machine.execVcvtpd2dqVex256C5 pre v reg rm s
  | .vcvtpd2dqVex256C4 pre v reg rm => Sys2Proof.Machine.execVcvtpd2dqVex256C4 pre v reg rm s
  | .vcvtpd2dqEvex128 pre e bc reg rm => Sys2Proof.Machine.execVcvtpd2dqEvex128 pre e bc reg rm s
  | .vcvtpd2dqEvex256 pre e bc reg rm => Sys2Proof.Machine.execVcvtpd2dqEvex256 pre e bc reg rm s
  | .vcvtpd2dqEvex512 pre e bc reg rm => Sys2Proof.Machine.execVcvtpd2dqEvex512 pre e bc reg rm s
  | .vcvtpd2dqEvex512Er pre e rc reg rm => Sys2Proof.Machine.execVcvtpd2dqEvex512Er pre e rc reg rm s
  | .vcvtpd2dqReservedLength pre e bc reg rm => Sys2Proof.Machine.execVcvtpd2dqReservedLength pre e bc reg rm s

end Sys2Proof.Machine
end

