-- ==== Sys2Proof/Machine/Step.lean ====
section
/-! DEFINITION. One step of the machine (60_exceptions.md R149), and placing an instruction where the next step
fetches it. -/

namespace Sys2Proof.Machine

/-- `Step(state)` (60_exceptions.md R149). After a trap nothing runs (R150). -/
def step (s : State) : Host.Outcome State Fault Refusal :=
  match s.trap with
  | some t => .fault (.trapped t)
  | none =>
    match s.fetchInstr with
    | .ok i => exec i s
    | .raise s' => .next s'
    | .refuse r => .refused r

/-- The state in which the next step fetches: in an admitted mode and with no trap taken, which the reset
state's real-address mode is not (00_scope.md R9, log 5). -/
def State.readyToFetch (s : State) : State :=
  { s with mode := if s.mode.admitted then s.mode else .mode64, trap := none }

/-- The instruction of a table word, followed by zeros up to the longest instruction, stored where the next
step fetches (log 5). -/
def State.withFetchWord (s : State) (nbits w : Nat) : State :=
  s.readyToFetch.writeBytes s.readyToFetch.fetchAddr 0 (tableBytes nbits w)

end Sys2Proof.Machine
end

