-- ==== Sys2Proof/Safety.lean ====
section
/-! DEFINITION. The terms claims are made in: when a form may run, when its operand is readable, when its flags
are masked, what a completed instruction leaves, and the invariant every step keeps. -/

namespace Sys2Proof.Machine

/-! ## When an instruction executes normally -/

/-- `Precheck(form)` has nothing to raise but for the encoding conditions, and the vector registers have the
form's width (60_exceptions.md R149, 00_scope.md R7, R9). -/
def State.enabledFor (s : State) (form : Form) : Bool :=
  s.mode.admitted && Config.extensionPresent s.cfg form && !s.simdUD form && !s.ts &&
    Config.maxvlOk s.cfg form

/-- MemCheck has nothing against byte `o` of an operand, which lies in ordinary memory (20_memory.md R48,
R49). -/
def State.byteOk (s : State) (fetch : Bool) (seg : Seg) (ea la : Qword) (o : Nat) : Bool :=
  s.canonicalOk (s.byteAddr la o) && (s.segmentViolation fetch seg (s.byteAddr ea o).toNat).isNone &&
    (s.pageFault fetch (s.byteAddr la o).toNat).isNone && !s.isDevice (s.byteAddr la o).toNat

/-- MemCheck answers `ok` for these parts of an operand, as wholes and byte by byte (20_memory.md R48, R49). -/
def State.memCheckOk (s : State) (fetch : Bool) (seg : Seg) (ea la : Qword) (ps : List Part) : Bool :=
  (ps.all fun p => (s.partFault fetch seg ea la p).isNone) &&
    (partBytes ps).all (s.byteOk fetch seg ea la)

/-- The segment or a canonical violation refuses some of these parts for this cause (20_memory.md R48, R51). -/
abbrev State.SegmentRefuses (s : State) (fetch : Bool) (seg : Seg) (ea la : Qword) (ps : List Part)
    (cause : SegmentCause) : Prop :=
  (∃ o ∈ partBytes ps, cause = .bounds ∧ s.canonicalOk (s.byteAddr la o) = false ∨
    s.segmentViolation fetch seg (s.byteAddr ea o).toNat = some cause) ∨
  ∃ p ∈ ps, s.partFault fetch seg ea la p = some (.segment cause)

/-- The instruction of `n` bytes at `ip` lies across an edge that 10_state.md R26 names: in Mode64 it or the
address after it leaves the canonical range, in Mode32 it reaches past 2^32, or the code segment's limit refuses
one of its bytes or the whole of it (log 12). -/
abbrev State.Straddles (s : State) (n : Nat) : Prop :=
  s.mode = .mode64 ∧ (2 ^ 64 ≤ s.ip.toNat + n ∨
    ∃ i, i ≤ n ∧ canonical s.cfg.la57 (s.ip + BitVec.ofNat 64 i) = false) ∨
  s.mode = .mode32 ∧ 2 ^ 32 < s.instrPtr.toNat + n ∨
  (∃ i, i < n ∧ s.segmentViolation true .cs (s.instrPtr.toNat + i) = some .bounds) ∨
  s.partFault true .cs s.instrPtr s.fetchAddr ⟨0, n⟩ = some (.segment .bounds)

/-- The source can be read: a register, or a memory operand aligned as 20_memory.md R45 and R46 ask, every
checked byte of which MemCheck admits (R47, R50). -/
def State.readable (s : State) (c : SourceCtx) (rm : RmOperand) : Bool :=
  match rm with
  | .reg _ => true
  | .mem a =>
    (c.form != .f1 || (s.operandAddr c a).toNat % 16 == 0) &&
      s.memCheckOk false (s.operandSegment c a) (s.effAddr c a) (s.operandAddr c a)
        (c.checkedParts s.cfg.faultSuppression) &&
      (c.form == .f1 || !s.alignCheck || (s.operandAddr c a).toNat % c.width == 0)

/-- Every flag that an enabled lane contributes is masked (40_conversion.md R115). -/
def State.masked (s : State) (kl : Nat) (enabled : Nat → Bool) (lane : Nat → Dword × FpFlags) :
    Bool :=
  (List.range kl).all fun j =>
    !enabled j || ((!(lane j).2.ie || s.im) && (!(lane j).2.pe || s.pm))

/-- What element `j` of a source converts to: the doubleword and the flags it contributes (40_conversion.md
R114). -/
def State.lane (s : State) (c : SourceCtx) (rm : RmOperand) (mode : RoundingMode) (j : Nat) :
    Dword × FpFlags :=
  convert (s.sourceElement c rm j) mode s.daz

/-- Two encodings of one source operand: the same vector register, or the same effective address in the same
segment (30_encoding.md R83). -/
def State.SameOperand (s : State) (c c' : SourceCtx) : RmOperand → RmOperand → Prop
  | .reg n, .reg n' => c.ext.source c.form n = c'.ext.source c'.form n'
  | .mem a, .mem a' =>
    s.operandSegment c a = s.operandSegment c' a' ∧ s.effAddr c a = s.effAddr c' a'
  | _, _ => False

/-! ## What an instruction leaves -/

/-- Only vector registers, MXCSR and `ip` may differ; in particular every byte of memory reads as before. -/
def SameElse (s t : State) : Prop :=
  t = { s with zmm := t.zmm, mxcsr := t.mxcsr, ip := t.ip } ∧ ∀ a, t.readByte a = s.readByte a

/-- MXCSR.IE and MXCSR.PE are set where the conditions hold and kept otherwise; every other bit is kept
(10_state.md R24). -/
def StickyFlags (s t : State) (ie pe : Prop) : Prop :=
  (t.ie = true ↔ s.ie = true ∨ ie) ∧ (t.pe = true ↔ s.pe = true ∨ pe) ∧
    ∀ b, b < 32 → b ≠ 0 → b ≠ 5 → t.mxcsr.getLsbD b = s.mxcsr.getLsbD b

/-- The instruction completes: a next state with no trap taken by it, register `d` holding the doublewords `elem`,
every other vector register, and everything but MXCSR's flags and `ip`, as before, and `ip` moved past it. -/
def Completes (i : Instr) (s : State) (d : BitVec 5) (elem : Nat → Dword) (ie pe : Prop) : Prop :=
  ∃ t, exec i s = .next t ∧
    (∀ j, j < 16 → dwordOf (t.readZmm d) j = elem j) ∧
    (∀ n, n ≠ d → t.readZmm n = s.readZmm n) ∧
    StickyFlags s t ie pe ∧
    t.ip = truncAddr s.mode (s.ip + BitVec.ofNat 64 i.ilen) ∧
    SameElse s t

/-- The instruction takes exception `e` with its error code, and nothing else happens (60_exceptions.md
R150). -/
def Traps (i : Instr) (s : State) (e : Exception) (code : ErrorCode) : Prop :=
  exec i s = .next { s with trap := some ⟨e, code⟩ }

/-- Whether some enabled lane contributes IE. -/
def AnyIe (kl : Nat) (enabled : Nat → Bool) (lane : Nat → Dword × FpFlags) : Prop :=
  ∃ j, j < kl ∧ enabled j = true ∧ (lane j).2.ie = true

/-- Whether some enabled lane contributes PE. -/
def AnyPe (kl : Nat) (enabled : Nat → Bool) (lane : Nat → Dword × FpFlags) : Prop :=
  ∃ j, j < kl ∧ enabled j = true ∧ (lane j).2.pe = true

/-- Doubleword `j` of a destination that a VEX or EVEX form writes: results, then zeros up to MAXVL
(42_vex_forms.md R125, 43_evex_forms.md R133). At or above MAXVL the spec has no bits; that the stored ones stay
as they are is the model's choice (log 16: DESIGN CHOICE). -/
def zeroExtended (s : State) (d : BitVec 5) (kl : Nat) (r : Nat → Dword) (j : Nat) : Dword :=
  if j < kl then r j else if 32 * j < s.cfg.maxvl.bits then 0#32 else dwordOf (s.readZmm d) j

end Sys2Proof.Machine

namespace Sys2Proof

open Sys2Proof.Machine

/-! ## What an instruction's source context is -/

/-- The source context of an instruction, for the statements that quantify over instructions; row 11 has no
source. -/
def Instr.sourceCtx (s : State) (i : Instr) : Option (SourceCtx × RmOperand) :=
  match i with
  | .cvtpd2dq ps _ rm => some (⟨.f1, Ext.none, ps, i.ilen, false, fun _ => true⟩, rm)
  | .cvtpd2dqRex ps x _ rm => some (⟨.f1, Ext.ofRex x, ps, i.ilen, false, fun _ => true⟩, rm)
  | .vcvtpd2dqVex128C5 pre v _ rm =>
      some (⟨.f2, Ext.ofVex2 v, pre.prefixes, i.ilen, false, fun _ => true⟩, rm)
  | .vcvtpd2dqVex128C4 pre v _ rm =>
      some (⟨.f2, Ext.ofVex3 v, pre.prefixes, i.ilen, false, fun _ => true⟩, rm)
  | .vcvtpd2dqVex256C5 pre v _ rm =>
      some (⟨.f3, Ext.ofVex2 v, pre.prefixes, i.ilen, false, fun _ => true⟩, rm)
  | .vcvtpd2dqVex256C4 pre v _ rm =>
      some (⟨.f3, Ext.ofVex3 v, pre.prefixes, i.ilen, false, fun _ => true⟩, rm)
  | .vcvtpd2dqEvex128 pre e bc _ rm =>
      some (⟨.f4, Ext.ofEvex e, pre.prefixes, i.ilen, bc, s.laneEnabled e.aaa⟩, rm)
  | .vcvtpd2dqEvex256 pre e bc _ rm =>
      some (⟨.f5, Ext.ofEvex e, pre.prefixes, i.ilen, bc, s.laneEnabled e.aaa⟩, rm)
  | .vcvtpd2dqEvex512 pre e bc _ rm =>
      some (⟨.f6, Ext.ofEvex e, pre.prefixes, i.ilen, bc, s.laneEnabled e.aaa⟩, rm)
  | .vcvtpd2dqEvex512Er pre e _ _ rm =>
      some (⟨.f6, Ext.ofEvex e, pre.prefixes, i.ilen, false, s.laneEnabled e.aaa⟩, .reg rm)
  | .vcvtpd2dqReservedLength _ _ _ _ _ => none

/-- The encoding conditions that raise #UD whatever the state: 30_encoding.md R78 (`vvvv`), R79 (EVEX fields,
the reserved length) and R80 (LOCK, and 66H, F2H, F3H or REX before VEX or EVEX). -/
def Instr.reservedEncoding : Instr → Bool
  | .cvtpd2dq ps _ _ | .cvtpd2dqRex ps _ _ _ => ps.contains .lock
  | .vcvtpd2dqVex128C5 pre v _ _ | .vcvtpd2dqVex256C5 pre v _ _ =>
      !pre.prefixes.all (fun p => p.isSeg || p == .addrSize) || pre.rex.isSome || v.vvvv != 15#4
  | .vcvtpd2dqVex128C4 pre v _ _ | .vcvtpd2dqVex256C4 pre v _ _ =>
      !pre.prefixes.all (fun p => p.isSeg || p == .addrSize) || pre.rex.isSome || v.vvvv != 15#4
  | .vcvtpd2dqEvex128 pre e _ _ _ | .vcvtpd2dqEvex256 pre e _ _ _
  | .vcvtpd2dqEvex512 pre e _ _ _ | .vcvtpd2dqEvex512Er pre e _ _ _ =>
      !pre.prefixes.all (fun p => p.isSeg || p == .addrSize) || pre.rex.isSome ||
        e.vvvv != 15#4 || e.vHi || (e.z && e.aaa == 0#3) || !e.w
  | .vcvtpd2dqReservedLength _ _ _ _ _ => true

/-- The form of an instruction, if it has one. -/
def Instr.form? : Instr → Option Form
  | .cvtpd2dq _ _ _ | .cvtpd2dqRex _ _ _ _ => some .f1
  | .vcvtpd2dqVex128C5 _ _ _ _ | .vcvtpd2dqVex128C4 _ _ _ _ => some .f2
  | .vcvtpd2dqVex256C5 _ _ _ _ | .vcvtpd2dqVex256C4 _ _ _ _ => some .f3
  | .vcvtpd2dqEvex128 _ _ _ _ _ => some .f4
  | .vcvtpd2dqEvex256 _ _ _ _ _ => some .f5
  | .vcvtpd2dqEvex512 _ _ _ _ _ | .vcvtpd2dqEvex512Er _ _ _ _ _ => some .f6
  | .vcvtpd2dqReservedLength _ _ _ _ _ => none

/-- The destination register of an instruction that has a form (30_encoding.md R74). -/
def Instr.destReg : Instr → Option (BitVec 5)
  | .cvtpd2dq _ reg _ => some (Ext.none.dest reg)
  | .cvtpd2dqRex _ x reg _ => some ((Ext.ofRex x).dest reg)
  | .vcvtpd2dqVex128C5 _ v reg _ | .vcvtpd2dqVex256C5 _ v reg _ => some ((Ext.ofVex2 v).dest reg)
  | .vcvtpd2dqVex128C4 _ v reg _ | .vcvtpd2dqVex256C4 _ v reg _ => some ((Ext.ofVex3 v).dest reg)
  | .vcvtpd2dqEvex128 _ e _ reg _ | .vcvtpd2dqEvex256 _ e _ reg _
  | .vcvtpd2dqEvex512 _ e _ reg _ => some ((Ext.ofEvex e).dest reg)
  | .vcvtpd2dqEvex512Er _ e _ reg _ => some ((Ext.ofEvex e).dest reg)
  | .vcvtpd2dqReservedLength _ _ _ _ _ => none

/-- The writemask an instruction reads: the register and how many of its bits (10_state.md R22). -/
def Instr.maskRead : Instr → Option (BitVec 3 × Nat)
  | .vcvtpd2dqEvex128 _ e _ _ _ => some (e.aaa, 2)
  | .vcvtpd2dqEvex256 _ e _ _ _ => some (e.aaa, 4)
  | .vcvtpd2dqEvex512 _ e _ _ _ => some (e.aaa, 8)
  | .vcvtpd2dqEvex512Er _ e _ _ _ => some (e.aaa, 8)
  | _ => none

/-- The fields `aaa` and `z` of an instruction (30_encoding.md R75), both 0 where it has none. -/
def Instr.masking : Instr → BitVec 3 × Bool
  | .vcvtpd2dqEvex128 _ e _ _ _ | .vcvtpd2dqEvex256 _ e _ _ _ | .vcvtpd2dqEvex512 _ e _ _ _
  | .vcvtpd2dqEvex512Er _ e _ _ _ => (e.aaa, e.z)
  | _ => (0#3, false)

/-- The rounding mode an instruction carries, `EVEX.RC` of the `{er}` variant (43_evex_forms.md R137). -/
def Instr.erMode : Instr → Option RoundingMode
  | .vcvtpd2dqEvex512Er _ _ rc _ _ => some rc
  | _ => none

/-- The `{er}` variant (43_evex_forms.md R137). -/
def Instr.isEr : Instr → Bool
  | .vcvtpd2dqEvex512Er _ _ _ _ _ => true
  | _ => false

end Sys2Proof

namespace Sys2Proof.Machine

/-! ## The invariant -/

/-- A recorded trap carries the error code its exception has (60_exceptions.md R140), #AC is never recorded
(20_memory.md R46), and a page fault is never a write (20_memory.md R48, R49). -/
def Trap.wf (t : Trap) : Bool :=
  match t.exc, t.code with
  | .ud, .none | .nm, .none | .xm, .none => true
  | .ss, .zero | .gp, .zero => true
  | .pf, .page c => !c.wr
  | _, _ => false

/-- Memory is in canonical form, MXCSR[31:16] is zero (10_state.md R36), EIP has 32 bits in Mode32 (R26), no
bit at or above MAXVL is set in a vector register (00_scope.md R7), and a recorded trap is one of R140. -/
def State.Inv (s : State) : Prop :=
  s.mem.wf = true ∧ s.mxcsr.extractLsb' 16 16 = 0#16 ∧
    (s.mode = .mode32 → s.ip.toNat < 2 ^ 32) ∧
    (∀ n, s.readZmm n &&& ~~~(MaxVl.mask s.cfg.maxvl) = 0#512) ∧
    ∀ t, s.trap = some t → t.wf = true

end Sys2Proof.Machine
end

