-- ==== Sys2Proof/Certificates/Slice0/Obligations.lean ====
section
/-! DEFINITION. The statements for the provers. None rests on the order of #UD against #NM (U17), nor on the
order of form F1's alignment fault against a MemCheck fault (U16): each hypothesis rules the other condition
out. -/

open Sys2Proof Sys2Proof.Machine

/-! ## Encoding (30_encoding.md) -/

/-- Decoding the bytes of a well-formed instruction gives it back, whatever follows it (30_encoding.md R60 to
R77). -/
def Obligations.DecodeOfEncode : Prop :=
  ∀ (mode : Mode) (i : Instr) (rest : List Byte), i.wf mode = true →
    decode mode (encode i ++ rest) = .ok (i, rest)

/-- The bytes a decoded instruction was read from are its encoding: no bit is dropped (30_encoding.md R60 to
R77). -/
def Obligations.EncodeOfDecode : Prop :=
  ∀ (mode : Mode) (bs : List Byte) (i : Instr) (rest : List Byte), decode mode bs = .ok (i, rest) →
    bs = encode i ++ rest

/-- The decoder answers well-formed instructions only (30_encoding.md R61, R74, R81, R84). -/
def Obligations.DecodedInstrWellFormed : Prop :=
  ∀ (mode : Mode) (bs : List Byte) (i : Instr) (rest : List Byte), decode mode bs = .ok (i, rest) →
    i.wf mode = true

/-- The decoder consumes `ilen` bytes: at least 4, and at most 13 where no reserved encoding makes it #UD
(30_encoding.md R85). -/
def Obligations.DecodeConsumesIlen : Prop :=
  ∀ (mode : Mode) (bs : List Byte) (i : Instr) (rest : List Byte), decode mode bs = .ok (i, rest) →
    bs.length = i.ilen + rest.length ∧ 4 ≤ i.ilen ∧ (i.reservedEncoding = false → i.ilen ≤ 13)

/-- Which register numbers an encoding can name (the table of 10_state.md R21, and 30_encoding.md R74 for Mode32):
the destination of every instruction with a form, and with it the source, base and index numbers its extension
bits can make of any field. -/
def Obligations.ReachableRegisterNumbers : Prop :=
  ∀ (mode : Mode) (i : Instr) (f : Form) (d : BitVec 5) (s : State) (c : SourceCtx) (rm : RmOperand),
    i.wf mode = true → i.form? = some f → i.destReg = some d → i.sourceCtx s = some (c, rm) →
    (mode = .mode32 → d.toNat < 8 ∧ ∀ (n : BitVec 3), (c.ext.source c.form n).toNat < 8 ∧
      (c.ext.baseReg n).toNat < 8 ∧ (c.ext.indexReg n).toNat < 8) ∧
    (f.isEvex = false → d.toNat < 16 ∧ ∀ (n : BitVec 3), (c.ext.source c.form n).toNat < 16)

/-- An EVEX sequence of this opcode with P0[3:2] set or P1[2] clear is refused, not given to a form
(30_encoding.md R79, the model's refusals). -/
def Obligations.EvexReservedBitsRefused : Prop :=
  ∀ (p0 p1 p2 : Byte) rest,
    (p0.extractLsb' 2 2 ≠ 0#2 ∨ p1.getLsbD 2 = false) →
    ∃ r, decode .mode64 (0x62#8 :: p0 :: p1 :: p2 :: 0xE6#8 :: rest) = .error r

/-- The words of 95_test_vectors.md D-DEC-1, 2, 7, 8, 9, 14, 17 and 18 decode to the instructions they stand
for. -/
def Obligations.SpecWordsDecode : Prop :=
  decode .mode64 [0xF2#8, 0x0F#8, 0xE6#8, 0xCA#8] = .ok (.cvtpd2dq [] 1#3 (.reg 2#3), []) ∧
  decode .mode64 [0xF2#8, 0x45#8, 0x0F#8, 0xE6#8, 0xCA#8] =
    .ok (.cvtpd2dqRex [] ⟨false, true, false, true⟩ 1#3 (.reg 2#3), []) ∧
  decode .mode64 [0xC5#8, 0xFB#8, 0xE6#8, 0xCA#8] =
    .ok (.vcvtpd2dqVex128C5 ⟨[], none⟩ ⟨false, 15#4⟩ 1#3 (.reg 2#3), []) ∧
  decode .mode32 [0xC5#8, 0xFF#8, 0xE6#8, 0xCA#8] =
    .ok (.vcvtpd2dqVex256C5 ⟨[], none⟩ ⟨false, 15#4⟩ 1#3 (.reg 2#3), []) ∧
  decode .mode64 [0xC4#8, 0x41#8, 0x7F#8, 0xE6#8, 0x08#8] =
    .ok (.vcvtpd2dqVex256C4 ⟨[], none⟩ ⟨true, false, true, false, 15#4⟩ 1#3
      (.mem (.base 0#3 .none)), []) ∧
  decode .mode64 [0x62#8, 0xF1#8, 0xFF#8, 0x48#8, 0xE6#8, 0xCA#8] =
    .ok (.vcvtpd2dqEvex512 ⟨[], none⟩
      ⟨false, false, false, false, true, 15#4, false, false, 0#3⟩ false 1#3 (.reg 2#3), []) ∧
  decode .mode64 [0x62#8, 0xF1#8, 0xFF#8, 0x78#8, 0xE6#8, 0xC9#8] =
    .ok (.vcvtpd2dqEvex512Er ⟨[], none⟩
      ⟨false, false, false, false, true, 15#4, false, false, 0#3⟩ .rz 1#3 1#3, []) ∧
  decode .mode64 [0x62#8, 0xF1#8, 0xFF#8, 0x68#8, 0xE6#8, 0xCA#8] =
    .ok (.vcvtpd2dqReservedLength ⟨[], none⟩
      ⟨false, false, false, false, true, 15#4, false, false, 0#3⟩ false 1#3 (.reg 2#3), [])

/-! ## The step (60_exceptions.md R149, R150) -/

/-- A step runs the decoded instruction: where the bytes at `ip` decode, may be fetched and straddle no edge that
10_state.md R26 names, the step is `exec` of the instruction and nothing more. -/
def Obligations.StepRunsDecodedInstr : Prop :=
  ∀ (s : State) (i : Instr) (rest : List Byte), s.trap = none → s.mode.admitted = true →
    s.memCheckOk true .cs s.instrPtr s.fetchAddr [⟨0, 1⟩] = true →
    decode s.mode s.fetchWindow = .ok (i, rest) → ¬ s.Straddles i.ilen →
    s.memCheckOk true .cs s.instrPtr s.fetchAddr [⟨0, i.ilen⟩] = true →
    step s = exec i s

/-- The same from the bytes in memory: where the encoding of a well-formed instruction lies at CS base + ip,
the step runs that instruction. -/
def Obligations.StepRunsEncodedInstr : Prop :=
  ∀ (s : State) (i : Instr), s.trap = none → i.wf s.mode = true → ¬ s.Straddles i.ilen →
    s.memCheckOk true .cs s.instrPtr s.fetchAddr [⟨0, 1⟩] = true →
    s.memCheckOk true .cs s.instrPtr s.fetchAddr [⟨0, i.ilen⟩] = true →
    s.fetchWindow.take i.ilen = encode i →
    step s = exec i s

/-- The host's interface, and the model's choice (log 5): the step after placing a table word at reset runs
the instruction the decoder reads from it. -/
def Obligations.PlacedWordRunsAfterReset : Prop :=
  ∀ (nbits w : Nat) (i : Instr), decodeTableWord nbits w = some i →
    step (State.reset.withFetchWord nbits w) = exec i (State.reset.withFetchWord nbits w)

/-- A mode other than Mode64 and Mode32 is refused (00_scope.md R9). -/
def Obligations.OtherModesRefused : Prop :=
  ∀ (s : State) (m : OtherMode), s.mode = .other m → s.trap = none →
    step s = .refused .modeNotAdmitted

/-- A trap leaves the state of 60_exceptions.md R150, and nothing runs after it. -/
def Obligations.TrapIsPreciseAndTerminal : Prop :=
  ∀ (s t : State) (x : Trap), step s = .next t → t.trap = some x →
    t.ip = s.ip ∧ t.zmm = s.zmm ∧ t.k = s.k ∧ t.gpr = s.gpr ∧ t.mem = s.mem ∧
    (∀ (b : Nat), b < 32 → b ≠ 0 → b ≠ 5 → t.mxcsr.getLsbD b = s.mxcsr.getLsbD b) ∧
    (s.ie = true → t.ie = true) ∧ (s.pe = true → t.pe = true) ∧
    (x.exc ≠ .xm → x.exc ≠ .ud → t.mxcsr = s.mxcsr) ∧
    step t = .fault (.trapped x)

/-- The model's choice (log 12), after 20_memory.md R55: a first byte whose page faults on a fetch takes #PF
with I/D set and its linear address in CR2 (log 9), even where it lies outside ordinary memory (log 7). -/
def Obligations.FetchPageFault : Prop :=
  ∀ (s : State) (c : PageFaultCode), s.trap = none → s.mode.admitted = true →
    s.canonicalOk (s.byteAddr s.fetchAddr 0) = true →
    s.segmentViolation true .cs (s.byteAddr s.instrPtr 0).toNat = none →
    s.partFault true .cs s.instrPtr s.fetchAddr ⟨0, 1⟩ = none →
    s.pageFault true (s.byteAddr s.fetchAddr 0).toNat = some c →
    c.id = true ∧ c.wr = false ∧
    step s = .next { s with trap := some ⟨.pf, .page c⟩, cr2 := s.byteAddr s.fetchAddr 0 }

/-- 10_state.md R26, with the model's choice of what such a placement is (log 12): an instruction is refused that
in Mode64 reaches 2^64 or whose bytes or next address are not all canonical, that in Mode32 reaches past 2^32, or
that the code segment's limit refuses, one of its bytes or as one access. -/
def Obligations.StraddlingPlacementRefused : Prop :=
  ∀ (s : State) (i : Instr) (rest : List Byte), s.trap = none → s.mode.admitted = true →
    s.memCheckOk true .cs s.instrPtr s.fetchAddr [⟨0, 1⟩] = true →
    decode s.mode s.fetchWindow = .ok (i, rest) →
    (s.mode = .mode64 ∧ (2 ^ 64 ≤ s.ip.toNat + i.ilen ∨
        ∃ j, j ≤ i.ilen ∧ canonical s.cfg.la57 (s.ip + BitVec.ofNat 64 j) = false) ∨
      s.mode = .mode32 ∧ 2 ^ 32 < s.ip.toNat % 2 ^ 32 + i.ilen ∨
      (∃ j, j < i.ilen ∧ s.segmentViolation true .cs (s.instrPtr.toNat + j) = some .bounds) ∨
      s.partFault true .cs s.instrPtr s.fetchAddr ⟨0, i.ilen⟩ = some (.segment .bounds)) →
    step s = .refused .placement

/-! ## Invariant and frame -/

/-- The reset state meets the invariant. -/
def Obligations.ResetMeetsInv : Prop := State.reset.Inv

/-- Every step keeps the invariant: memory canonical, MXCSR[31:16] zero, EIP of 32 bits in Mode32, nothing at
or above MAXVL, and a recorded trap one of 60_exceptions.md R140. -/
def Obligations.StepKeepsInv : Prop :=
  ∀ (s t : State), s.Inv → step s = .next t → t.Inv

/-- What no step changes: memory (20_memory.md R49), the opmask and general registers (10_state.md R22, R28),
the flags register (R27), the control registers and segment bases (R29, R30), the parameters; and of MXCSR only
IE and PE, by setting them (R24), and of the vector registers at most one. -/
def Obligations.StepFrame : Prop :=
  ∀ (s t : State), step s = .next t →
    (∀ (a : Qword), t.readByte a = s.readByte a) ∧ t.mem = s.mem ∧ t.k = s.k ∧ t.gpr = s.gpr ∧
    t.rflags = s.rflags ∧ t.cr0 = s.cr0 ∧ t.cr4 = s.cr4 ∧ t.xcr0 = s.xcr0 ∧ t.cpl = s.cpl ∧
    t.segBase = s.segBase ∧ t.prot = s.prot ∧ t.cfg = s.cfg ∧ t.mode = s.mode ∧
    (s.ie = true → t.ie = true) ∧ (s.pe = true → t.pe = true) ∧
    (∀ (b : Nat), b < 32 → b ≠ 0 → b ≠ 5 → t.mxcsr.getLsbD b = s.mxcsr.getLsbD b) ∧
    ∃ d, ∀ (n : BitVec 5), n ≠ d → t.readZmm n = s.readZmm n

/-- At reset every form is disabled: in either admitted mode every instruction takes #UD (10_state.md R35; the
parameters are those of log 2). -/
def Obligations.ResetDisablesEveryForm : Prop :=
  ∀ (i : Instr) (mode : Mode), mode.admitted = true →
    Traps i { State.reset with mode := mode } .ud .none

/-- The values of the reset table of 10_state.md R35 (EDX and what the table does not name are the model's
choice, logs 3 and 4, and are not stated). -/
def Obligations.ResetTable : Prop :=
  State.reset.mxcsr = 0x1F80#32 ∧ (∀ (n : BitVec 5), State.reset.readZmm n = 0#512) ∧
  (∀ (n : BitVec 3), State.reset.readK n = 0#64) ∧ (∀ (n : BitVec 4), n ≠ 2#4 →
    State.reset.readGpr n = 0#64) ∧
  State.reset.rflags = 2#64 ∧ State.reset.ip = 0xFFF0#64 ∧
  State.reset.fetchAddr = 0xFFFFFFF0#64 ∧ State.reset.cr0 = 0x60000010#64 ∧
  State.reset.cr4 = 0#64 ∧ State.reset.xcr0 = 1#64 ∧
  State.reset.mode = .other .realAddress ∧ State.reset.cpl = 0#2

/-! ## The conversion (40_conversion.md) -/

/-- The integer formulation is the function of exact rationals that R109 writes. -/
def Obligations.ConvertIsRationalConvert : Prop :=
  ∀ (x : Qword) (rm : RoundingMode) (daz : Bool), convert x rm daz = ratConvert x rm daz

/-- IE is contributed exactly by a NaN, an infinity, and a value whose rounded integer is out of range; the
result is then the indefinite value (R105 to R107). -/
def Obligations.InvalidCondition : Prop :=
  ∀ x rm daz,
    ((convert x rm daz).2.ie = true ↔
      biasedExp x = 2047 ∨ ratRound rm (ratValue x) < -2 ^ 31 ∨
        2 ^ 31 - 1 < ratRound rm (ratValue x)) ∧
    ((convert x rm daz).2.ie = true → (convert x rm daz).1 = 0x80000000#32)

/-- PE is contributed exactly by an element that is not invalid, not flushed by DAZ, and not an integer; it then
gives the rounded integer (R108, R111). -/
def Obligations.PrecisionCondition : Prop :=
  ∀ x rm daz,
    ((convert x rm daz).2.pe = true ↔
      (convert x rm daz).2.ie = false ∧ ¬ (biasedExp x = 0 ∧ daz = true) ∧
        (ratRound rm (ratValue x) : ℚ) ≠ ratValue x) ∧
    ((convert x rm daz).2.pe = true →
      (convert x rm daz).1.toInt = ratRound rm (ratValue x))

/-- A NaN, quiet or signalling, and an infinity, of either sign and any payload, give the indefinite value and
IE alone (R110). -/
def Obligations.NanAndInfinityAreInvalid : Prop :=
  ∀ (x : Qword) (rm : RoundingMode) (daz : Bool), biasedExp x = 2047 →
    convert x rm daz = (0x80000000#32, ⟨true, false⟩)

/-- Denormals (R111): with DAZ zero and no flag in every mode; without DAZ the value the mode gives a tiny
number of its sign, with PE. -/
def Obligations.DenormalSources : Prop :=
  ∀ (x : Qword) (rm : RoundingMode), biasedExp x = 0 → fraction x ≠ 0 →
    convert x rm true = (0#32, ⟨false, false⟩) ∧
    (convert x rm false).2 = ⟨false, true⟩ ∧
    convert x .rn false = (0#32, ⟨false, true⟩) ∧ convert x .rz false = (0#32, ⟨false, true⟩) ∧
    (convert x .rd false).1 = (if signBit x then 0xFFFFFFFF#32 else 0#32) ∧
    (convert x .ru false).1 = (if signBit x then 0#32 else 1#32)

/-- Properties that R109 names: no value of magnitude below 2^31 - 1 is invalid, and no element contributes both
flags. -/
def Obligations.SmallValuesAreValid : Prop :=
  ∀ x rm daz,
    (biasedExp x ≠ 2047 → |ratValue x| < 2 ^ 31 - 1 → (convert x rm daz).2.ie = false) ∧
    ¬ ((convert x rm daz).2.ie = true ∧ (convert x rm daz).2.pe = true)

/-- The result is monotone in the value, for a fixed mode, over the inputs that are not invalid (R109). -/
def Obligations.ConvertIsMonotone : Prop :=
  ∀ (x y : Qword) (rm : RoundingMode) (daz : Bool), (convert x rm daz).2.ie = false →
    (convert y rm daz).2.ie = false →
    ratValue x ≤ ratValue y → (convert x rm daz).1.toInt ≤ (convert y rm daz).1.toInt

/-- The table of R112 whole: 2147483647.25, 2147483647.5, 2^31, -2^31, -2147483648.25, -2147483648.5,
-2147483648.75 and -2147483649, each under RN, RD, RU and RZ. -/
def Obligations.RangeEdges : Prop :=
  let row (x : Qword) := [RoundingMode.rn, .rd, .ru, .rz].map fun rm => convert x rm false
  let top : Dword × FpFlags := (0x7FFFFFFF#32, ⟨false, true⟩)
  let bottom : Dword × FpFlags := (0x80000000#32, ⟨false, true⟩)
  let exact : Dword × FpFlags := (0x80000000#32, ⟨false, false⟩)
  let invalid : Dword × FpFlags := (0x80000000#32, ⟨true, false⟩)
  row 0x41DFFFFFFFD00000#64 = [top, top, invalid, top] ∧
  row 0x41DFFFFFFFE00000#64 = [invalid, top, invalid, top] ∧
  row 0x41E0000000000000#64 = [invalid, invalid, invalid, invalid] ∧
  row 0xC1E0000000000000#64 = [exact, exact, exact, exact] ∧
  row 0xC1E0000000080000#64 = [bottom, invalid, bottom, bottom] ∧
  row 0xC1E0000000100000#64 = [bottom, invalid, bottom, bottom] ∧
  row 0xC1E0000000180000#64 = [invalid, invalid, bottom, bottom] ∧
  row 0xC1E0000000200000#64 = [invalid, invalid, invalid, invalid]

/-! ## Results: where each instruction completes, and with what -/

/-- Rows 1 and 2 (41_sse_form.md R120): the two results in bits 63:0, bits 127:64 zero, the rest kept, IE and PE
sticky, `ip` advanced; every register and memory form. -/
def Obligations.LegacyResult : Prop :=
  (∀ ps reg rm s,
    let i := Instr.cvtpd2dq ps reg rm
    let c : SourceCtx := ⟨.f1, Ext.none, ps, i.ilen, false, fun _ => true⟩
    let d := Ext.none.dest reg
    i.reservedEncoding = false → s.enabledFor .f1 = true → s.readable c rm = true →
    s.masked 2 c.enabled (s.lane c rm s.rc) = true →
    Completes i s d
      (fun j => if j < 2 then (s.lane c rm s.rc j).1 else if j < 4 then 0#32
        else dwordOf (s.readZmm d) j)
      (AnyIe 2 c.enabled (s.lane c rm s.rc)) (AnyPe 2 c.enabled (s.lane c rm s.rc))) ∧
  (∀ ps x reg rm s,
    let i := Instr.cvtpd2dqRex ps x reg rm
    let c : SourceCtx := ⟨.f1, Ext.ofRex x, ps, i.ilen, false, fun _ => true⟩
    let d := (Ext.ofRex x).dest reg
    i.reservedEncoding = false → s.enabledFor .f1 = true → s.readable c rm = true →
    s.masked 2 c.enabled (s.lane c rm s.rc) = true →
    Completes i s d
      (fun j => if j < 2 then (s.lane c rm s.rc j).1 else if j < 4 then 0#32
        else dwordOf (s.readZmm d) j)
      (AnyIe 2 c.enabled (s.lane c rm s.rc)) (AnyPe 2 c.enabled (s.lane c rm s.rc)))

/-- Rows 3 and 4 (42_vex_forms.md R125): the two results, zero-extended to MAXVL bits. That stored bits at or above
MAXVL, which the spec does not have, stay as they are is the model's choice (log 16: DESIGN CHOICE). -/
def Obligations.Vex128Result : Prop :=
  (∀ pre v reg rm s,
    let i := Instr.vcvtpd2dqVex128C5 pre v reg rm
    let c : SourceCtx := ⟨.f2, Ext.ofVex2 v, pre.prefixes, i.ilen, false, fun _ => true⟩
    let d := (Ext.ofVex2 v).dest reg
    i.reservedEncoding = false → s.enabledFor .f2 = true → s.readable c rm = true →
    s.masked 2 c.enabled (s.lane c rm s.rc) = true →
    Completes i s d (zeroExtended s d 2 fun j => (s.lane c rm s.rc j).1)
      (AnyIe 2 c.enabled (s.lane c rm s.rc)) (AnyPe 2 c.enabled (s.lane c rm s.rc))) ∧
  (∀ pre v reg rm s,
    let i := Instr.vcvtpd2dqVex128C4 pre v reg rm
    let c : SourceCtx := ⟨.f2, Ext.ofVex3 v, pre.prefixes, i.ilen, false, fun _ => true⟩
    let d := (Ext.ofVex3 v).dest reg
    i.reservedEncoding = false → s.enabledFor .f2 = true → s.readable c rm = true →
    s.masked 2 c.enabled (s.lane c rm s.rc) = true →
    Completes i s d (zeroExtended s d 2 fun j => (s.lane c rm s.rc j).1)
      (AnyIe 2 c.enabled (s.lane c rm s.rc)) (AnyPe 2 c.enabled (s.lane c rm s.rc)))

/-- Rows 5 and 6 (42_vex_forms.md R126): the four results, zero-extended to MAXVL bits. That stored bits at or above
MAXVL, which the spec does not have, stay as they are is the model's choice (log 16: DESIGN CHOICE). -/
def Obligations.Vex256Result : Prop :=
  (∀ pre v reg rm s,
    let i := Instr.vcvtpd2dqVex256C5 pre v reg rm
    let c : SourceCtx := ⟨.f3, Ext.ofVex2 v, pre.prefixes, i.ilen, false, fun _ => true⟩
    let d := (Ext.ofVex2 v).dest reg
    i.reservedEncoding = false → s.enabledFor .f3 = true → s.readable c rm = true →
    s.masked 4 c.enabled (s.lane c rm s.rc) = true →
    Completes i s d (zeroExtended s d 4 fun j => (s.lane c rm s.rc j).1)
      (AnyIe 4 c.enabled (s.lane c rm s.rc)) (AnyPe 4 c.enabled (s.lane c rm s.rc))) ∧
  (∀ pre v reg rm s,
    let i := Instr.vcvtpd2dqVex256C4 pre v reg rm
    let c : SourceCtx := ⟨.f3, Ext.ofVex3 v, pre.prefixes, i.ilen, false, fun _ => true⟩
    let d := (Ext.ofVex3 v).dest reg
    i.reservedEncoding = false → s.enabledFor .f3 = true → s.readable c rm = true →
    s.masked 4 c.enabled (s.lane c rm s.rc) = true →
    Completes i s d (zeroExtended s d 4 fun j => (s.lane c rm s.rc j).1)
      (AnyIe 4 c.enabled (s.lane c rm s.rc)) (AnyPe 4 c.enabled (s.lane c rm s.rc)))

/-- Rows 7, 8 and 9 (43_evex_forms.md R132 to R136): enabled elements hold their results, masked-off ones are
kept or zeroed by `z`, every higher bit is zero, and only enabled elements contribute flags. -/
def Obligations.EvexResult : Prop :=
  ∀ pre e bc reg rm s f i,
    (f = Form.f4 ∧ i = Instr.vcvtpd2dqEvex128 pre e bc reg rm ∨
      f = Form.f5 ∧ i = Instr.vcvtpd2dqEvex256 pre e bc reg rm ∨
      f = Form.f6 ∧ i = Instr.vcvtpd2dqEvex512 pre e bc reg rm) →
    let c : SourceCtx := ⟨f, Ext.ofEvex e, pre.prefixes, i.ilen, bc, s.laneEnabled e.aaa⟩
    let d := (Ext.ofEvex e).dest reg
    i.reservedEncoding = false → s.enabledFor f = true → s.readable c rm = true →
    s.masked f.kl c.enabled (s.lane c rm s.rc) = true →
    Completes i s d
      (fun j => if j < f.kl then
          (if e.aaa = 0#3 ∨ (s.readK e.aaa).getLsbD j = true then (s.lane c rm s.rc j).1
            else if e.z then 0#32 else dwordOf (s.readZmm d) j)
        else 0#32)
      (AnyIe f.kl c.enabled (s.lane c rm s.rc)) (AnyPe f.kl c.enabled (s.lane c rm s.rc))

/-- Row 10 (43_evex_forms.md R137, 40_conversion.md R117): the same with EVEX.RC, whatever MXCSR's masks, and
with MXCSR not written at all. -/
def Obligations.EmbeddedRoundingResult : Prop :=
  ∀ pre e rc reg rm s,
    let i := Instr.vcvtpd2dqEvex512Er pre e rc reg rm
    let c : SourceCtx := ⟨.f6, Ext.ofEvex e, pre.prefixes, i.ilen, false, s.laneEnabled e.aaa⟩
    let d := (Ext.ofEvex e).dest reg
    i.reservedEncoding = false → s.enabledFor .f6 = true →
    Completes i s d
      (fun j => if j < 8 then
          (if e.aaa = 0#3 ∨ (s.readK e.aaa).getLsbD j = true then (s.lane c (.reg rm) rc j).1
            else if e.z then 0#32 else dwordOf (s.readZmm d) j)
        else 0#32)
      False False ∧
    ∀ (t : State), exec i s = .next t → t.mxcsr = s.mxcsr

/-- Row 11 (30_encoding.md R79): its own effect is #UD, in every state of an admitted mode (CR0.TS being 0, as
U17 asks of a claim). -/
def Obligations.ReservedLengthIsUndefined : Prop :=
  ∀ (pre : VexPrelude) (e : Evex) (bc : Bool) (reg : BitVec 3) (rm : RmOperand) (s : State),
    s.mode.admitted = true → s.ts = false →
    Traps (.vcvtpd2dqReservedLength pre e bc reg rm) s .ud .none

/-- Unmasked floating-point exceptions (40_conversion.md R116, 60_exceptions.md R146): an unmasked Invalid sets
IE alone and raises; otherwise an unmasked Precision sets PE, beside the masked IE, and raises; nothing else is
written; otherwise the instruction completes with the flags recorded. -/
def Obligations.UnmaskedResponse : Prop :=
  ∀ (i : Instr) (s : State) (c : SourceCtx) (rm : RmOperand), i.sourceCtx s = some (c, rm) →
    i.isEr = false → i.reservedEncoding = false →
    s.enabledFor c.form = true → s.readable c rm = true →
    let ie := AnyIe c.form.kl c.enabled (s.lane c rm s.rc)
    let pe := AnyPe c.form.kl c.enabled (s.lane c rm s.rc)
    let x := if s.osxmmexcpt then Exception.xm else Exception.ud
    (ie → s.im = false →
      exec i s = .next { s with mxcsr := s.mxcsr ||| 1#32, trap := some ⟨x, .none⟩ }) ∧
    (ie → s.im = true → pe → s.pm = false →
      exec i s = .next { s with mxcsr := s.mxcsr ||| 33#32, trap := some ⟨x, .none⟩ }) ∧
    (¬ ie → pe → s.pm = false →
      exec i s = .next { s with mxcsr := s.mxcsr ||| 32#32, trap := some ⟨x, .none⟩ }) ∧
    ((ie → s.im = true) → (pe → s.pm = true) →
      ∃ t, exec i s = .next t ∧ t.trap = s.trap ∧ StickyFlags s t ie pe)

/-! ## The other exceptions (60_exceptions.md R140 to R145) -/

/-- A reserved encoding takes #UD: `vvvv` (R141), and the conditions of 30_encoding.md R79 and R80. -/
def Obligations.ReservedEncodingIsUndefined : Prop :=
  ∀ (i : Instr) (s : State), s.mode.admitted = true → s.ts = false → i.reservedEncoding = true →
    Traps i s .ud .none

/-- A form whose extension is absent takes #UD (R142), the extension condition being that of 00_scope.md R8. -/
def Obligations.AbsentExtensionIsUndefined : Prop :=
  ∀ (i : Instr) (s : State) (f : Form), s.mode.admitted = true → s.ts = false → i.form? = some f →
    (match f with
      | .f1 => s.cfg.sse2 = false
      | .f2 | .f3 => s.cfg.avx = false
      | .f4 | .f5 => ¬ (s.cfg.avx512vl = true ∧ s.cfg.avx512f = true ∨ s.cfg.avx10_1 = true)
      | .f6 => ¬ (s.cfg.avx512f = true ∨ s.cfg.avx10_1 = true)) →
    Traps i s .ud .none

/-- A form whose state the system has not enabled takes #UD (R143, with the bits of 10_state.md R30). -/
def Obligations.DisabledStateIsUndefined : Prop :=
  ∀ (i : Instr) (s : State) (f : Form), s.mode.admitted = true → s.ts = false → i.form? = some f →
    (match f with
      | .f1 => s.cr0.getLsbD 2 = true ∨ s.cr4.getLsbD 9 = false
      | .f2 | .f3 => s.cr4.getLsbD 18 = false ∨ s.xcr0.getLsbD 1 = false ∨ s.xcr0.getLsbD 2 = false
      | .f4 | .f5 | .f6 =>
        s.cr4.getLsbD 18 = false ∨ s.xcr0.getLsbD 1 = false ∨ s.xcr0.getLsbD 2 = false ∨
          s.xcr0.getLsbD 5 = false ∨ s.xcr0.getLsbD 6 = false ∨ s.xcr0.getLsbD 7 = false) →
    Traps i s .ud .none

/-- CR0.TS makes every form take #NM, where no #UD condition holds (R144). -/
def Obligations.TaskSwitchedIsDeviceNotAvailable : Prop :=
  ∀ (i : Instr) (s : State) (f : Form), s.mode.admitted = true → i.form? = some f →
    i.reservedEncoding = false →
    Config.extensionPresent s.cfg f = true → s.simdUD f = false → s.cr0.getLsbD 3 = true →
    Traps i s .nm .none

/-- Form F1 takes #GP(0) on a memory operand that is not 16-byte aligned, at every privilege level and whatever
EFLAGS.AC; the operand of any other form passes its checks at every address that MemCheck admits (20_memory.md
R45). -/
def Obligations.LegacyAlignment : Prop :=
  (∀ (i : Instr) (s : State) (c : SourceCtx) (a : Address), i.sourceCtx s = some (c, .mem a) →
    c.form = .f1 → i.reservedEncoding = false →
    s.enabledFor .f1 = true → (s.operandAddr c a).toNat % 16 ≠ 0 →
    s.memCheckOk false (s.operandSegment c a) (s.effAddr c a) (s.operandAddr c a)
      (c.checkedParts s.cfg.faultSuppression) = true →
    Traps i s .gp .zero) ∧
  (∀ (s : State) (c : SourceCtx) (a : Address), c.form ≠ .f1 → s.alignCheck = false →
    s.memCheckOk false (s.operandSegment c a) (s.effAddr c a) (s.operandAddr c a)
      (c.checkedParts s.cfg.faultSuppression) = true →
    s.checkOperand c a = .ok ())

/-- Under AlignCheck a VEX or EVEX form whose operand is not aligned to its width is refused (20_memory.md
R46). -/
def Obligations.AlignCheckRefuses : Prop :=
  ∀ (i : Instr) (s : State) (c : SourceCtx) (a : Address), i.sourceCtx s = some (c, .mem a) →
    c.form ≠ .f1 → i.reservedEncoding = false →
    s.enabledFor c.form = true →
    s.memCheckOk false (s.operandSegment c a) (s.effAddr c a) (s.operandAddr c a)
      (c.checkedParts s.cfg.faultSuppression) = true →
    s.cr0.getLsbD 18 = true → s.rflags.getLsbD 18 = true → s.cpl = 3#2 →
    (s.operandAddr c a).toNat % c.width ≠ 0 →
    exec i s = .refused .alignmentCheck

/-- A limit or canonical violation takes #SS(0) through SS and #GP(0) through any other segment, and a null or
unreadable segment takes #GP(0), where no violation of the other kind occurs (60_exceptions.md R145, 20_memory.md
R48, R51). Model's choices: that the canonical test is of each checked byte's own address (log 8), that addresses
and offsets wrap (log 10), that Mode64 consults the segment tables (log 25), that an unusable SS takes #GP(0)
(log 27), and that the fault is taken even where a byte lies outside ordinary memory (log 7). -/
def Obligations.SegmentViolationTraps : Prop :=
  ∀ (i : Instr) (s : State) (c : SourceCtx) (a : Address) (cause : SegmentCause),
    i.sourceCtx s = some (c, .mem a) → i.reservedEncoding = false →
    s.enabledFor c.form = true →
    (c.form = .f1 → (s.operandAddr c a).toNat % 16 = 0) →
    let refuses := s.SegmentRefuses false (s.operandSegment c a) (s.effAddr c a) (s.operandAddr c a)
      (c.checkedParts s.cfg.faultSuppression)
    refuses cause → (∀ (cause' : SegmentCause), refuses cause' → cause' = cause) →
    Traps i s (if s.operandSegment c a = .ss ∧ cause = .bounds then .ss else .gp) .zero

/-- A page-level violation takes #PF(code), W/R and I/D being 0, of a byte or of a part of the operand as a whole
(60_exceptions.md R145, 20_memory.md R48); that CR2 holds the lowest faulting byte's address is the model's
choice (log 9), and so is it that the fault is taken even where a byte lies outside ordinary memory (log 7). -/
def Obligations.PageFaultTraps : Prop :=
  ∀ (i : Instr) (s : State) (c : SourceCtx) (a : Address),
    i.sourceCtx s = some (c, .mem a) → i.reservedEncoding = false →
    s.enabledFor c.form = true →
    (c.form = .f1 → (s.operandAddr c a).toNat % 16 = 0) →
    let parts := c.checkedParts s.cfg.faultSuppression
    let fault (p : Part) := s.partFault false (s.operandSegment c a) (s.effAddr c a) (s.operandAddr c a) p
    (∀ (cause : SegmentCause), ¬ s.SegmentRefuses false (s.operandSegment c a) (s.effAddr c a)
      (s.operandAddr c a) parts cause) →
    (∀ (o : Nat) (code : PageFaultCode), (∀ p ∈ parts, fault p = none) → o ∈ partBytes parts →
      (∀ o' ∈ partBytes parts, o' < o →
        s.pageFault false (s.byteAddr (s.operandAddr c a) o').toNat = none) →
      s.pageFault false (s.byteAddr (s.operandAddr c a) o).toNat = some code →
      code.wr = false ∧ code.id = false ∧
      exec i s = .next { s with
        trap := some ⟨.pf, .page code⟩, cr2 := s.byteAddr (s.operandAddr c a) o }) ∧
    (∀ (p : Part) (b u r k : Bool) (addr : Qword), p ∈ parts → fault p = some (.page b u r k addr) →
      (∀ p' ∈ parts, p' ≠ p → fault p' = none) →
      (∀ o ∈ partBytes parts, s.pageFault false (s.byteAddr (s.operandAddr c a) o).toNat = none) →
      exec i s = .next { s with trap := some ⟨.pf, .page ⟨b, false, u, r, false, k⟩⟩, cr2 := addr })

/-- An operand that is not ordinary memory is refused (20_memory.md R49). -/
def Obligations.DeviceOperandRefused : Prop :=
  ∀ (i : Instr) (s : State) (c : SourceCtx) (a : Address) (o : Nat),
    i.sourceCtx s = some (c, .mem a) → i.reservedEncoding = false →
    s.enabledFor c.form = true →
    (c.form = .f1 → (s.operandAddr c a).toNat % 16 = 0) →
    let parts := c.checkedParts s.cfg.faultSuppression
    (∀ (cause : SegmentCause), ¬ s.SegmentRefuses false (s.operandSegment c a) (s.effAddr c a)
      (s.operandAddr c a) parts cause) →
    (∀ p ∈ parts,
      s.partFault false (s.operandSegment c a) (s.effAddr c a) (s.operandAddr c a) p = none) →
    (∀ o' ∈ partBytes parts, s.pageFault false (s.byteAddr (s.operandAddr c a) o').toNat = none) →
    o ∈ partBytes parts →
    s.isDevice (s.byteAddr (s.operandAddr c a) o).toNat = true →
    exec i s = .refused .deviceMemory

/-- Which bytes MemCheck is asked about (20_memory.md R50): all of the operand's, as one access; or with
`fault_suppression` those of enabled elements, one by one where some element is masked off, and for a broadcast
its eight bytes when an element is enabled. -/
def Obligations.FaultSuppressionBytes : Prop :=
  ∀ c : SourceCtx, ∀ o,
    (o ∈ c.checkedBytes false ↔ o < c.width) ∧ c.checkedParts false = [⟨0, c.width⟩] ∧
    (c.form.isEvex = true → c.bcast = false →
      (o ∈ c.checkedBytes true ↔ o / 8 < c.form.kl ∧ c.enabled (o / 8) = true) ∧
      ((∃ j, j < c.form.kl ∧ c.enabled j = false) → ∀ (p : Part), p ∈ c.checkedParts true ↔
        ∃ j, j < c.form.kl ∧ c.enabled j = true ∧ p = ⟨8 * j, 8⟩)) ∧
    (c.form.isEvex = true → c.bcast = true →
      (o ∈ c.checkedBytes true ↔ o < 8 ∧ ∃ j, j < c.form.kl ∧ c.enabled j = true))

/-! ## Operands -/

/-- Little-endian (20_memory.md R42): bits 8i+7 to 8i of a data read are the byte at la + i, and instruction
bytes are taken at increasing addresses. That these go on at 0 past the top is the model's reading (log 10). -/
def Obligations.LittleEndianReads : Prop :=
  (∀ (s : State) (la : Qword) (i : Nat), i < 8 →
    (State.readQword s la).extractLsb' (8 * i) 8 = s.readByte (s.byteAddr la i)) ∧
  (∀ (s : State) (i : Nat), i < 15 →
    (State.fetchWindow s)[i]? = some (s.readByte (s.byteAddr s.fetchAddr i)))

/-- The source's elements (43_evex_forms.md R130, R131): element `j` of a register is its bits 64j+63 to 64j;
byte `i` of element `j` in memory is at la + 8j + i; every element of a broadcast is the one quadword at la.
That addresses go on at 0 past the top is the model's reading (log 10). -/
def Obligations.SourceElements : Prop :=
  ∀ (s : State) (c : SourceCtx) j, j < c.form.kl →
    (∀ (n : BitVec 3), s.sourceElement c (.reg n) j =
      (s.readZmm (c.ext.source c.form n)).extractLsb' (64 * j) 64) ∧
    (∀ (a : Address) (i : Nat), i < 8 →
      (s.sourceElement c (.mem a) j).extractLsb' (8 * i) 8 =
        s.readByte (s.byteAddr (s.operandAddr c a) ((if c.bcast then 0 else 8 * j) + i)))

/-- The width of the data read and the scale of a one-byte displacement (20_memory.md R43, 30_encoding.md
R77). -/
def Obligations.WidthsAndScales : Prop :=
  ∀ c : SourceCtx, (c.form.isEvex = false → c.bcast = false) →
    c.width = (if c.bcast then 8 else match c.form with
      | .f1 | .f2 | .f4 => 16
      | .f3 | .f5 => 32
      | .f6 => 64) ∧
    c.dispScale = (match c.form with
      | .f1 | .f2 | .f3 => 1
      | .f4 => if c.bcast then 8 else 16
      | .f5 => if c.bcast then 8 else 32
      | .f6 => if c.bcast then 8 else 64)

/-- Register numbers are assembled from logical bits (30_encoding.md R74): four bits in the legacy and VEX
encodings, `R' : R : reg` and `X : B : rm` in the EVEX ones, and `X` does not extend a base. -/
def Obligations.RegisterNumberAssembly : Prop :=
  ∀ (ps : List Prefix) (pre : VexPrelude) (x : Rex) (v2 : Vex2) (v3 : Vex3) (e : Evex)
    (bc : Bool) (reg n : BitVec 3) (rm : RmOperand) (s : State),
    let dest (i : Instr) (k : Nat) : Prop := i.destReg.map BitVec.toNat = some k
    let source (i : Instr) (k b x' : Nat) : Prop :=
      ∃ c o, i.sourceCtx s = some (c, o) ∧ (c.ext.source c.form n).toNat = k ∧
        (c.ext.baseReg n).toNat = b ∧ (c.ext.indexReg n).toNat = x'
    dest (.cvtpd2dq ps reg rm) reg.toNat ∧
    source (.cvtpd2dq ps reg rm) n.toNat n.toNat n.toNat ∧
    dest (.cvtpd2dqRex ps x reg rm) (8 * x.r.toNat + reg.toNat) ∧
    source (.cvtpd2dqRex ps x reg rm) (8 * x.b.toNat + n.toNat) (8 * x.b.toNat + n.toNat)
      (8 * x.x.toNat + n.toNat) ∧
    (∀ i ∈ [Instr.vcvtpd2dqVex128C5 pre v2 reg rm, .vcvtpd2dqVex256C5 pre v2 reg rm],
      dest i (8 * v2.r.toNat + reg.toNat) ∧ source i n.toNat n.toNat n.toNat) ∧
    (∀ i ∈ [Instr.vcvtpd2dqVex128C4 pre v3 reg rm, .vcvtpd2dqVex256C4 pre v3 reg rm],
      dest i (8 * v3.r.toNat + reg.toNat) ∧
      source i (8 * v3.b.toNat + n.toNat) (8 * v3.b.toNat + n.toNat)
        (8 * v3.x.toNat + n.toNat)) ∧
    (∀ i ∈ [Instr.vcvtpd2dqEvex128 pre e bc reg rm, .vcvtpd2dqEvex256 pre e bc reg rm,
        .vcvtpd2dqEvex512 pre e bc reg rm, .vcvtpd2dqEvex512Er pre e .rn reg n],
      dest i (16 * e.rHi.toNat + 8 * e.r.toNat + reg.toNat) ∧
      source i (16 * e.x.toNat + 8 * e.b.toNat + n.toNat) (8 * e.b.toNat + n.toNat)
        (8 * e.x.toNat + n.toNat))

/-- The effective address without a SIB byte (30_encoding.md R66), as integers modulo 2^AS. -/
def Obligations.EffectiveAddressNoSib : Prop :=
  ∀ (s : State) (c : SourceCtx),
    let m : ℤ := if s.mode = .mode32 ∨ .addrSize ∈ c.prefixes then 2 ^ 32 else 2 ^ 64
    (∀ (rm : BitVec 3), ((s.effAddr c (.base rm .none)).toNat : ℤ) =
      ((s.readGpr (c.ext.baseReg rm)).toNat : ℤ) % m) ∧
    (∀ (rm : BitVec 3) (d : BitVec 8), ((s.effAddr c (.base rm (.d8 d))).toNat : ℤ) =
      ((s.readGpr (c.ext.baseReg rm)).toNat + d.toInt * c.dispScale) % m) ∧
    (∀ (rm : BitVec 3) (d : BitVec 32), ((s.effAddr c (.base rm (.d32 d))).toNat : ℤ) =
      ((s.readGpr (c.ext.baseReg rm)).toNat + d.toInt) % m) ∧
    (∀ (d : BitVec 32), s.mode = .mode64 → ((s.effAddr c (.disp32 d)).toNat : ℤ) =
      ((s.ip.toNat : ℤ) + c.ilen + d.toInt) % m) ∧
    (∀ (d : BitVec 32), s.mode = .mode32 → ((s.effAddr c (.disp32 d)).toNat : ℤ) = d.toInt % m)

/-- The effective address with a SIB byte (30_encoding.md R67), as integers modulo 2^AS: index number 4 means
no index, and `base = 101b` with `mod = 00b` no base. -/
def Obligations.EffectiveAddressSib : Prop :=
  ∀ (s : State) (c : SourceCtx) (ss : BitVec 2) index,
    let m : ℤ := if s.mode = .mode32 ∨ .addrSize ∈ c.prefixes then 2 ^ 32 else 2 ^ 64
    let scaled : ℤ := if c.ext.indexReg index = 4#4 then 0
      else (s.readGpr (c.ext.indexReg index)).toNat * 2 ^ ss.toNat
    (∀ (b : BitVec 3), ((s.effAddr c (.sib ss index b .none)).toNat : ℤ) =
      ((s.readGpr (c.ext.baseReg b)).toNat + scaled) % m) ∧
    (∀ (b : BitVec 3) (d : BitVec 8), ((s.effAddr c (.sib ss index b (.d8 d))).toNat : ℤ) =
      ((s.readGpr (c.ext.baseReg b)).toNat + scaled + d.toInt * c.dispScale) % m) ∧
    (∀ (b : BitVec 3) (d : BitVec 32), ((s.effAddr c (.sib ss index b (.d32 d))).toNat : ℤ) =
      ((s.readGpr (c.ext.baseReg b)).toNat + scaled + d.toInt) % m) ∧
    (∀ (d : BitVec 32), ((s.effAddr c (.sibNoBase ss index d)).toNat : ℤ) = (scaled + d.toInt) % m)

/-- The segment of a memory operand (30_encoding.md R69). -/
def Obligations.OperandSegment : Prop :=
  ∀ (s : State) (c : SourceCtx) a, prefixesOk c.prefixes = true →
    (∀ (seg : Seg), .seg seg ∈ c.prefixes → (s.mode ≠ .mode64 ∨ seg = .fs ∨ seg = .gs) →
      s.operandSegment c a = seg) ∧
    ((∀ (seg : Seg), .seg seg ∈ c.prefixes → s.mode = .mode64 ∧ seg ≠ .fs ∧ seg ≠ .gs) →
      s.operandSegment c a =
        match a with
        | .base n _ | .sib _ _ n _ =>
          if c.ext.b = false ∧ (n = 4#3 ∨ n = 5#3) then Seg.ss else Seg.ds
        | .disp32 _ | .sibNoBase _ _ _ => Seg.ds)

/-- How the segment bases are read (10_state.md R29, 20_memory.md R47, R55): in Mode64 those of ES, CS, SS and DS
are 0 and FS and GS have their own, in Mode32 all six have; a linear address is base plus offset, modulo 2^64 or
2^32, and the fetch address is that of `ip` in CS, modulo 2^32 in Mode32 by the model's reading (log 10). -/
def Obligations.SegmentBases : Prop :=
  ∀ (s : State) (ea : Qword),
    (s.mode = .mode64 →
      (s.linear .fs ea).toNat = (s.segBase.fs.toNat + ea.toNat) % 2 ^ 64 ∧
      (s.linear .gs ea).toNat = (s.segBase.gs.toNat + ea.toNat) % 2 ^ 64 ∧
      (∀ seg ∈ [Seg.es, .cs, .ss, .ds], s.linear seg ea = ea) ∧ s.fetchAddr = s.ip) ∧
    (s.mode = .mode32 →
      (∀ p ∈ [(Seg.es, s.segBase.es), (.cs, s.segBase.cs), (.ss, s.segBase.ss), (.ds, s.segBase.ds),
          (.fs, s.segBase.fs), (.gs, s.segBase.gs)],
        (s.linear p.1 ea).toNat = (p.2.toNat + ea.toNat) % 2 ^ 32) ∧
      s.fetchAddr.toNat = (s.segBase.cs.toNat + s.ip.toNat) % 2 ^ 32) ∧
    ∀ (c : SourceCtx) (a : Address), s.effAddr c a = ea →
      s.operandAddr c a = s.linear (s.operandSegment c a) ea

/-- Redundant displacement forms address the same byte through the same segment (30_encoding.md R83): a zero
displacement of any length, a one-byte displacement and the four-byte one with its scaled value, a SIB byte
without an index, and a lone displacement with or without one. -/
def Obligations.RedundantDisplacements : Prop :=
  ∀ (s : State) (c c' : SourceCtx), c.ext = c'.ext → c.prefixes = c'.prefixes →
    (∀ z ∈ [Disp.d8 0#8, .d32 0#32], ∀ (ss : BitVec 2) (x n : BitVec 3),
      s.effAddr c (.base n .none) = s.effAddr c' (.base n z) ∧
      s.effAddr c (.sib ss x n .none) = s.effAddr c' (.sib ss x n z)) ∧
    (∀ (d : BitVec 8) (e : BitVec 32), e.toInt = d.toInt * c.dispScale → ∀ (ss : BitVec 2) (x n : BitVec 3),
      s.effAddr c (.base n (.d8 d)) = s.effAddr c' (.base n (.d32 e)) ∧
      s.effAddr c (.sib ss x n (.d8 d)) = s.effAddr c' (.sib ss x n (.d32 e))) ∧
    (c.ext.x = false → ∀ (ss : BitVec 2) (n : BitVec 3),
      (∀ (d : Disp), c.dispScale = c'.dispScale →
        s.effAddr c (.base n d) = s.effAddr c' (.sib ss 4#3 n d)) ∧
      ∀ (e : BitVec 32), s.mode = .mode32 → s.effAddr c (.disp32 e) = s.effAddr c' (.sibNoBase ss 4#3 e)) ∧
    ∀ (d d' : Disp) (ss : BitVec 2) (x n : BitVec 3),
      s.operandSegment c (.base n d) = s.operandSegment c' (.base n d') ∧
      s.operandSegment c (.sib ss x n d) = s.operandSegment c' (.sib ss x n d') ∧
      s.operandSegment c (.base n d) = s.operandSegment c' (.sib ss x n d')

/-- The canonical test (20_memory.md R51): bits 63:47 all equal, or 63:56 with five-level paging. -/
def Obligations.CanonicalAddresses : Prop :=
  ∀ (la57 : Bool) (a : Qword), canonical la57 a = true ↔
    ∀ (b : Nat), (if la57 then 56 else 47) ≤ b → b < 64 → a.getLsbD b = a.getLsbD 63

/-- Memory in canonical form is determined by what its bytes read as (the model's representation, log 1). -/
def Obligations.MemoryIsExtensional : Prop :=
  ∀ m m' : Memory, m.wf = true → m'.wf = true → (∀ (a : Nat), m.read a = m'.read a) → m = m'

/-! ## Whole-machine properties -/

/-- Of a writemask register only bits KL-1:0 are read, `aaa = 000b` reads none, and no opmask register is
written (10_state.md R22). -/
def Obligations.WritemaskBitsRead : Prop :=
  ∀ (i : Instr) (s : State) (k' : Vector Qword 8),
    (∀ (aaa : BitVec 3) (kl : Nat), i.maskRead = some (aaa, kl) → aaa ≠ 0#3 → ∀ (j : Nat), j < kl →
      (k'.get aaa.toFin).getLsbD j = (s.readK aaa).getLsbD j) →
    (∀ (t : State), exec i s = .next t → t.k = s.k ∧
      exec i { s with k := k' } = .next { t with k := k' }) ∧
    (∀ (r : Refusal), exec i s = .refused r → exec i { s with k := k' } = .refused r)

/-- Of MXCSR the instruction reads RC (not under embedded rounding), IM, PM and DAZ, and writes only IE and PE,
by setting them (10_state.md R24). -/
def Obligations.MxcsrFieldsReadAndWritten : Prop :=
  ∀ (i : Instr) (s : State) (m : Dword),
    (i.isEr = false → m.extractLsb' 13 2 = s.mxcsr.extractLsb' 13 2) →
    m.getLsbD 7 = s.mxcsr.getLsbD 7 → m.getLsbD 12 = s.mxcsr.getLsbD 12 →
    m.getLsbD 6 = s.mxcsr.getLsbD 6 →
    (∀ (t : State), exec i s = .next t → ∃ fl : FpFlags, t.mxcsr = s.mxcsr ||| fl.bits ∧
      exec i { s with mxcsr := m } = .next { t with mxcsr := m ||| fl.bits }) ∧
    (∀ (r : Refusal), exec i s = .refused r → exec i { s with mxcsr := m } = .refused r)

/-- Equivalent encodings (30_encoding.md R83): two instructions of one form (or of F2 and F4, or of F3 and F5)
with the same destination, source operand, masking, broadcast and embedded rounding have the same effect, `ip`
alone moving by each one's own length; so both VEX spellings, with either W, redundant displacement and SIB
forms, prefixes without effect, and EVEX without writemask against VEX. -/
def Obligations.EquivalentEncodings : Prop :=
  ∀ (i j : Instr) (s : State) (c c' : SourceCtx) (rm rm' : RmOperand), s.trap = none →
    i.sourceCtx s = some (c, rm) → j.sourceCtx s = some (c', rm') →
    i.reservedEncoding = false → j.reservedEncoding = false →
    (c.form = c'.form ∨ c.form.kl = c'.form.kl ∧ c.form ≠ .f1 ∧ c'.form ≠ .f1 ∧
      s.enabledFor c.form = true ∧ s.enabledFor c'.form = true) →
    i.destReg = j.destReg → i.masking = j.masking → i.erMode = j.erMode →
    c.bcast = c'.bcast → s.SameOperand c c' rm rm' →
    (∀ (t : State), exec i s = .next t → exec j s = .next
      (if t.trap = none then { t with ip := truncAddr s.mode (s.ip + BitVec.ofNat 64 j.ilen) } else t)) ∧
    ∀ (r : Refusal), exec i s = .refused r → exec j s = .refused r

/-- Restarting (60_exceptions.md R152): an instruction that trapped, executed again in the state the trap left,
takes the same trap and leaves the same state. -/
def Obligations.RestartTrapsAgain : Prop :=
  ∀ (i : Instr) (s t : State), s.trap = none → exec i s = .next t → t.trap ≠ none →
    exec i t.resume = .next t
end

