-- ==== Sys2Proof/Laws/Convert.lean ====
section
/-! SUPPORT. The rounding of 40_conversion.md R103, on naturals, is the rounding of R104, on rationals. -/

namespace Sys2Proof.Machine

/-- The value of a finite pattern below 2^53 in magnitude as a signed quotient (40_conversion.md R101, R103). -/
theorem ratValue_eq (x : Qword) (h : biasedExp x < 1075) :
    ratValue x = (if signBit x then -1 else 1) * ((significand x : ℚ) / 2 ^ shiftRight x) := by
  unfold ratValue significand shiftRight
  by_cases h0 : biasedExp x = 0
  · simp [h0]
  · simp only [h0, if_false]
    congr 1
    have h1 : (2 : ℚ) ^ 1075 = 2 ^ biasedExp x * 2 ^ (1075 - biasedExp x) := by
      rw [← pow_add]; congr 1; omega
    rw [h1]
    field_simp

theorem shiftRight_pos (x : Qword) (h : biasedExp x < 1075) : 0 < shiftRight x := by
  unfold shiftRight
  split <;> omega

/-- A quotient and its remainder. -/
theorem div_split (m sh : Nat) :
    ((m : ℚ) / 2 ^ sh) = ((m / 2 ^ sh : Nat) : ℚ) + ((m % 2 ^ sh : Nat) : ℚ) / 2 ^ sh := by
  have h : (2 : ℚ) ^ sh ≠ 0 := by positivity
  have := Nat.div_add_mod m (2 ^ sh)
  have h2 : (m : ℚ) = 2 ^ sh * ((m / 2 ^ sh : Nat) : ℚ) + ((m % 2 ^ sh : Nat) : ℚ) := by
    exact_mod_cast this.symm
  field_simp
  rw [h2]

/-- The part of the remainder in the value lies in [0, 1). -/
theorem rem_lt (m sh : Nat) : 0 ≤ ((m % 2 ^ sh : Nat) : ℚ) / 2 ^ sh ∧
    ((m % 2 ^ sh : Nat) : ℚ) / 2 ^ sh < 1 := by
  refine ⟨by positivity, ?_⟩
  rw [div_lt_one (by positivity)]
  exact_mod_cast Nat.mod_lt m (by positivity)

theorem rem_eq_zero (m sh : Nat) : ((m % 2 ^ sh : Nat) : ℚ) / 2 ^ sh = 0 ↔ m % 2 ^ sh = 0 := by
  rw [div_eq_zero_iff]
  simp

theorem rem_half (m sh : Nat) (h : 0 < sh) :
    (((m % 2 ^ sh : Nat) : ℚ) / 2 ^ sh < 1 / 2 ↔ m % 2 ^ sh < 2 ^ (sh - 1)) ∧
    (1 / 2 < ((m % 2 ^ sh : Nat) : ℚ) / 2 ^ sh ↔ 2 ^ (sh - 1) < m % 2 ^ sh) := by
  obtain ⟨k, rfl⟩ : ∃ k, sh = k + 1 := ⟨sh - 1, by omega⟩
  have h2 : (2 : ℚ) ^ (k + 1) = 2 * 2 ^ k := by ring
  have hp : (0 : ℚ) < 2 ^ (k + 1) := by positivity
  constructor
  · rw [div_lt_iff₀ hp, h2]
    have : (1 / 2 * (2 * 2 ^ k) : ℚ) = ((2 ^ k : Nat) : ℚ) := by push_cast; ring
    rw [this, Nat.cast_lt]; rfl
  · rw [lt_div_iff₀ hp, h2]
    have : (1 / 2 * (2 * 2 ^ k) : ℚ) = ((2 ^ k : Nat) : ℚ) := by push_cast; ring
    rw [this, Nat.cast_lt]; rfl

/-- An integer part and a fraction in [0, 1) determine the floor. -/
theorem floor_of_split (v f : ℚ) (n : ℤ) (h : v = n + f) (h0 : 0 ≤ f) (h1 : f < 1) : ⌊v⌋ = n := by
  rw [Int.floor_eq_iff]
  constructor <;> linarith

theorem ceil_of_split (v f : ℚ) (n : ℤ) (h : v = n + f) (h0 : 0 ≤ f) (h1 : f < 1) :
    ⌈v⌉ = if f = 0 then n else n + 1 := by
  split
  · rw [Int.ceil_eq_iff]; constructor <;> linarith
  · have : 0 < f := lt_of_le_of_ne h0 (Ne.symm ‹_›)
    rw [Int.ceil_eq_iff]; push_cast; constructor <;> linarith

end Sys2Proof.Machine
end

