-- ==== Sys2Proof/Laws/Encoding.lean ====
section
/-! SUPPORT. The parts of the decoder and the encoder undo each other: prefix bytes, REX, displacements, ModRM
and SIB; and the encoder's lengths. -/

namespace Sys2Proof

/-! ## Prefix bytes and REX -/

theorem prefixOfByte_toByte (p : Prefix) : prefixOfByte p.toByte = some p := by
  cases p with
  | seg s => cases s <;> rfl
  | _ => rfl

theorem toByte_of_prefixOfByte {b : Byte} {p : Prefix} (h : prefixOfByte b = some p) :
    p.toByte = b := by
  revert p
  decide +revert +kernel

theorem rexOfByte_toByte (r : Rex) : rexOfByte r.toByte = some r := by
  rcases r with ⟨w, r, x, b⟩
  cases w <;> cases r <;> cases x <;> cases b <;> rfl

theorem toByte_of_rexOfByte {b : Byte} {x : Rex} (h : rexOfByte b = some x) : x.toByte = b := by
  have hb : ∀ b : Byte, (rexOfByte b).all fun x => x.toByte == b := by decide +kernel
  have := hb b
  rw [h] at this
  simpa using this

theorem prefixOfByte_rex (r : Rex) : prefixOfByte r.toByte = none := by
  rcases r with ⟨w, r, x, b⟩
  cases w <;> cases r <;> cases x <;> cases b <;> rfl

theorem RoundingMode.ofBits_toBits (m : RoundingMode) : RoundingMode.ofBits m.toBits = m := by
  cases m <;> rfl

theorem RoundingMode.toBits_ofBits (b : BitVec 2) : (RoundingMode.ofBits b).toBits = b := by
  revert b; decide

/-- The prefix bytes an instruction begins with are all collected, and nothing after them. -/
theorem splitPrefixes_map (ps : List Prefix) (b : Byte) (rest : List Byte)
    (hb : prefixOfByte b = none) :
    splitPrefixes (ps.map Prefix.toByte ++ b :: rest) = (ps, b :: rest) := by
  induction ps with
  | nil => simp [splitPrefixes, hb]
  | cons p ps ih => simp [splitPrefixes, prefixOfByte_toByte, ih]

/-- Collecting prefixes loses no byte. -/
theorem splitPrefixes_append (bs : List Byte) :
    (splitPrefixes bs).1.map Prefix.toByte ++ (splitPrefixes bs).2 = bs := by
  induction bs with
  | nil => rfl
  | cons b bs ih =>
    unfold splitPrefixes
    split
    · rename_i p hp
      simp [toByte_of_prefixOfByte hp, ih]
    · rfl

/-- What is left after the prefixes begins with no prefix byte. -/
theorem splitPrefixes_rest {bs : List Byte} {b : Byte} {r : List Byte}
    (h : (splitPrefixes bs).2 = b :: r) : prefixOfByte b = none := by
  induction bs with
  | nil => simp [splitPrefixes] at h
  | cons c bs ih =>
    unfold splitPrefixes at h
    split at h
    · exact ih h
    · rename_i hc
      simp only [List.cons.injEq] at h
      exact h.1 ▸ hc

/-! ## Displacements -/

theorem dword_of_bytes (d : BitVec 32) :
    d.extractLsb' 24 8 ++ d.extractLsb' 16 8 ++ d.extractLsb' 8 8 ++ d.extractLsb' 0 8 = d := by
  apply BitVec.eq_of_getLsbD_eq
  intro i hi
  simp only [BitVec.getLsbD_append, BitVec.getLsbD_extractLsb']
  by_cases h1 : i < 8
  · simp [h1]
  · by_cases h2 : i - 8 < 8
    · simp [h1, h2]; congr 1; omega
    · by_cases h3 : i - 8 - 8 < 8
      · simp [h1, h2, h3]; congr 1; omega
      · simp [h1, h2, h3]
        have : i - 8 - 8 - 8 < 8 := by omega
        simp [this]; congr 1; omega

theorem getLsbD_bytes (d0 d1 d2 d3 : Byte) (i : Nat) :
    BitVec.getLsbD (w := 32) (d3 ++ d2 ++ d1 ++ d0) i =
      if i < 8 then d0.getLsbD i else if i - 8 < 8 then d1.getLsbD (i - 8)
      else if i - 8 - 8 < 8 then d2.getLsbD (i - 8 - 8) else d3.getLsbD (i - 8 - 8 - 8) := by
  change BitVec.getLsbD (w := 8 + 8 + 8 + 8) (d3 ++ d2 ++ d1 ++ d0) i = _
  simp only [BitVec.getLsbD_append]

theorem bytes_of_dword (d0 d1 d2 d3 : Byte) :
    bytesOfDword (d3 ++ d2 ++ d1 ++ d0) = [d0, d1, d2, d3] := by
  have h : ∀ (k : Nat) (b : Byte),
      (∀ i, i < 8 → BitVec.getLsbD (w := 32) (d3 ++ d2 ++ d1 ++ d0) (k + i) = b.getLsbD i) →
      BitVec.extractLsb' (n := 32) k 8 (d3 ++ d2 ++ d1 ++ d0) = b := by
    intro k b hk
    apply BitVec.eq_of_getLsbD_eq
    intro i hi
    rw [BitVec.getLsbD_extractLsb', hk i hi]
    simp [hi]
  unfold bytesOfDword
  rw [h 0 d0, h 8 d1, h 16 d2, h 24 d3] <;> intro i hi <;> rw [getLsbD_bytes]
  · rw [if_neg (by omega), if_neg (by omega), if_neg (by omega)]; congr 1; omega
  · rw [if_neg (by omega), if_neg (by omega), if_pos (by omega)]; congr 1; omega
  · rw [if_neg (by omega), if_pos (by omega)]; congr 1; omega
  · rw [if_pos (by omega)]; congr 1; omega

theorem decodeDisp32_bytes (d : BitVec 32) (rest : List Byte) :
    decodeDisp32 (bytesOfDword d ++ rest) = .ok (d, rest) := by
  simp [decodeDisp32, bytesOfDword, dword_of_bytes]

theorem decodeDisp_bytes (d : Disp) (rest : List Byte) :
    decodeDisp d.modBits (d.bytes ++ rest) = .ok (d, rest) := by
  cases d with
  | none => rfl
  | d8 d => rfl
  | d32 d => simp [decodeDisp, Disp.modBits, Disp.bytes, bytesOfDword, dword_of_bytes]

theorem decodeDisp32_inv {bs r : List Byte} {d : BitVec 32} (h : decodeDisp32 bs = .ok (d, r)) :
    bs = bytesOfDword d ++ r := by
  unfold decodeDisp32 at h
  split at h
  · simp only [Except.ok.injEq, Prod.mk.injEq] at h
    obtain ⟨rfl, rfl⟩ := h
    simp [bytes_of_dword]
  · cases h

theorem decodeDisp_inv {mod : BitVec 2} {bs r : List Byte} {d : Disp} (hm : mod ≠ 3#2)
    (h : decodeDisp mod bs = .ok (d, r)) : d.modBits = mod ∧ bs = d.bytes ++ r := by
  unfold decodeDisp at h
  split at h
  · rename_i hmod
    simp only [Except.ok.injEq, Prod.mk.injEq] at h
    obtain ⟨rfl, rfl⟩ := h
    exact ⟨hmod.symm, rfl⟩
  · split at h
    · rename_i h0 h1
      split at h
      · simp only [Except.ok.injEq, Prod.mk.injEq] at h
        obtain ⟨rfl, rfl⟩ := h
        exact ⟨h1.symm, rfl⟩
      · cases h
    · rename_i h0 h1
      have h2 : mod = 2#2 := by
        revert hm h0 h1; revert mod; decide
      split at h
      · simp only [Except.ok.injEq, Prod.mk.injEq] at h
        obtain ⟨rfl, rfl⟩ := h
        exact ⟨h2.symm, by simp [Disp.bytes, bytes_of_dword]⟩
      · cases h

/-! ## ModRM and SIB -/

theorem modrm_fields (m : BitVec 2) (reg rm : BitVec 3) :
    (m ++ reg ++ rm).extractLsb' 6 2 = m ∧ (m ++ reg ++ rm).extractLsb' 3 3 = reg ∧
      (m ++ reg ++ rm).extractLsb' 0 3 = rm := by
  revert m reg rm; decide +kernel

theorem modrm_of_fields (b : Byte) :
    b.extractLsb' 6 2 ++ b.extractLsb' 3 3 ++ b.extractLsb' 0 3 = b := by
  revert b; decide +kernel

theorem Disp.modBits_ne (d : Disp) : d.modBits ≠ 3#2 := by
  cases d <;> simp [Disp.modBits]

theorem Disp.modBits_eq_zero (d : Disp) : d.modBits = 0#2 ↔ d = .none := by
  cases d <;> simp [Disp.modBits]

/-- Decoding an encoded operand gives it back. -/
theorem decodeOperands_encode (reg : BitVec 3) (rm : RmOperand) (rest : List Byte)
    (h : rm.wf = true) : decodeOperands (encodeOperands reg rm ++ rest) = .ok (reg, rm, rest) := by
  cases rm with
  | reg rm => simp [encodeOperands, decodeOperands, modrm_fields]
  | mem a =>
    cases a with
    | base rm d =>
      simp only [RmOperand.wf, Address.wf, Bool.and_eq_true, bne_iff_ne, ne_eq,
        Bool.or_eq_true] at h
      have h2 : ¬ (d.modBits = 0#2 ∧ rm = 5#3) := by
        rw [Disp.modBits_eq_zero]
        rintro ⟨h3, h4⟩
        exact h.2.elim (fun h => h h3) (fun h => h h4)
      simp [encodeOperands, decodeOperands, modrm_fields, d.modBits_ne, decodeAddress, h.1, h2,
        decodeDisp_bytes]
    | disp32 d =>
      simp [encodeOperands, decodeOperands, modrm_fields, decodeAddress, decodeDisp32_bytes]
    | sib ss ix b d =>
      simp only [RmOperand.wf, Address.wf, bne_iff_ne, ne_eq, Bool.or_eq_true] at h
      have h2 : ¬ (d.modBits = 0#2 ∧ b = 5#3) := by
        rw [Disp.modBits_eq_zero]
        rintro ⟨h3, h4⟩
        exact h.elim (fun h => h h3) (fun h => h h4)
      simp [encodeOperands, decodeOperands, modrm_fields, d.modBits_ne, decodeAddress, h2,
        decodeDisp_bytes]
    | sibNoBase ss ix d =>
      simp [encodeOperands, decodeOperands, modrm_fields, decodeAddress, decodeDisp32_bytes]

/-- A decoded operand is well formed, and its encoding is what was read. -/
theorem decodeOperands_inv {bs r : List Byte} {reg : BitVec 3} {rm : RmOperand}
    (h : decodeOperands bs = .ok (reg, rm, r)) :
    rm.wf = true ∧ bs = encodeOperands reg rm ++ r := by
  unfold decodeOperands at h
  split at h
  · cases h
  · rename_i m bs'
    split at h
    · rename_i hm
      simp only [Except.ok.injEq, Prod.mk.injEq] at h
      obtain ⟨rfl, rfl, rfl⟩ := h
      exact ⟨rfl, by simp [encodeOperands, ← hm, modrm_of_fields]⟩
    · rename_i hm
      split at h
      · cases h
      · rename_i a r' ha
        simp only [Except.ok.injEq, Prod.mk.injEq] at h
        obtain ⟨rfl, rfl, rfl⟩ := h
        have hb := modrm_of_fields m
        unfold decodeAddress at ha
        split at ha
        · rename_i h4
          split at ha
          · cases ha
          · rename_i sib r2
            have hs := modrm_of_fields sib
            dsimp only at ha
            split at ha
            · rename_i h5
              split at ha
              · cases ha
              · rename_i d r3 hd
                simp only [Except.ok.injEq, Prod.mk.injEq] at ha
                obtain ⟨rfl, rfl⟩ := ha
                rw [h5.1, h4] at hb
                rw [h5.2] at hs
                exact ⟨rfl, by simp [encodeOperands, hb, hs, decodeDisp32_inv hd]⟩
            · rename_i h5
              split at ha
              · cases ha
              · rename_i d r3 hd
                simp only [Except.ok.injEq, Prod.mk.injEq] at ha
                obtain ⟨rfl, rfl⟩ := ha
                obtain ⟨hm1, hd1⟩ := decodeDisp_inv hm hd
                rw [h4, ← hm1] at hb
                refine ⟨?_, by simp [encodeOperands, hb, hs, hd1]⟩
                simp only [RmOperand.wf, Address.wf, bne_iff_ne, ne_eq, Bool.or_eq_true]
                rw [← hm1, Disp.modBits_eq_zero] at h5
                tauto
        · rename_i h4
          split at ha
          · rename_i h5
            split at ha
            · cases ha
            · rename_i d r3 hd
              simp only [Except.ok.injEq, Prod.mk.injEq] at ha
              obtain ⟨rfl, rfl⟩ := ha
              rw [h5.1, h5.2] at hb
              exact ⟨rfl, by simp [encodeOperands, hb, decodeDisp32_inv hd]⟩
          · rename_i h5
            split at ha
            · cases ha
            · rename_i d r3 hd
              simp only [Except.ok.injEq, Prod.mk.injEq] at ha
              obtain ⟨rfl, rfl⟩ := ha
              obtain ⟨hm1, hd1⟩ := decodeDisp_inv hm hd
              rw [← hm1] at hb
              refine ⟨?_, by simp [encodeOperands, hb, hd1]⟩
              simp only [RmOperand.wf, Address.wf, Bool.and_eq_true, bne_iff_ne, ne_eq,
                Bool.or_eq_true]
              rw [← hm1, Disp.modBits_eq_zero] at h5
              tauto

/-! ## Lengths -/

theorem encodeOperands_length (reg : BitVec 3) (rm : RmOperand) :
    (encodeOperands reg rm).length = rm.length := by
  cases rm with
  | reg rm => rfl
  | mem a => rcases a with ⟨rm, _ | _ | _⟩ | _ | ⟨_, _, _, _ | _ | _⟩ | _ <;> rfl

theorem VexPrelude.bytes_length (pre : VexPrelude) : pre.bytes.length = pre.length := by
  rcases pre with ⟨ps, _ | x⟩ <;> simp [VexPrelude.bytes, VexPrelude.length]

end Sys2Proof
end

