-- ==== Sys2Proof/Laws/State.lean ====
section
/-! SUPPORT. One lemma per field per state update, true by rfl, so that no proof unfolds an update; then the same
for the reads that depend on few fields. -/

namespace Sys2Proof.Machine

/-! ## takeException -/

@[simp] theorem State.takeException_mode (s : State) (e : Exception) (c : ErrorCode) (a : Option Qword) :
    (s.takeException e c a).mode = s.mode := rfl
@[simp] theorem State.takeException_cfg (s : State) (e : Exception) (c : ErrorCode) (a : Option Qword) :
    (s.takeException e c a).cfg = s.cfg := rfl
@[simp] theorem State.takeException_zmm (s : State) (e : Exception) (c : ErrorCode) (a : Option Qword) :
    (s.takeException e c a).zmm = s.zmm := rfl
@[simp] theorem State.takeException_k (s : State) (e : Exception) (c : ErrorCode) (a : Option Qword) :
    (s.takeException e c a).k = s.k := rfl
@[simp] theorem State.takeException_mxcsr (s : State) (e : Exception) (c : ErrorCode) (a : Option Qword) :
    (s.takeException e c a).mxcsr = s.mxcsr := rfl
@[simp] theorem State.takeException_ip (s : State) (e : Exception) (c : ErrorCode) (a : Option Qword) :
    (s.takeException e c a).ip = s.ip := rfl
@[simp] theorem State.takeException_gpr (s : State) (e : Exception) (c : ErrorCode) (a : Option Qword) :
    (s.takeException e c a).gpr = s.gpr := rfl
@[simp] theorem State.takeException_rflags (s : State) (e : Exception) (c : ErrorCode) (a : Option Qword) :
    (s.takeException e c a).rflags = s.rflags := rfl
@[simp] theorem State.takeException_cr0 (s : State) (e : Exception) (c : ErrorCode) (a : Option Qword) :
    (s.takeException e c a).cr0 = s.cr0 := rfl
@[simp] theorem State.takeException_cr4 (s : State) (e : Exception) (c : ErrorCode) (a : Option Qword) :
    (s.takeException e c a).cr4 = s.cr4 := rfl
@[simp] theorem State.takeException_xcr0 (s : State) (e : Exception) (c : ErrorCode) (a : Option Qword) :
    (s.takeException e c a).xcr0 = s.xcr0 := rfl
@[simp] theorem State.takeException_cr2 (s : State) (e : Exception) (c : ErrorCode) (a : Option Qword) :
    (s.takeException e c a).cr2 = a.getD s.cr2 := rfl
@[simp] theorem State.takeException_cpl (s : State) (e : Exception) (c : ErrorCode) (a : Option Qword) :
    (s.takeException e c a).cpl = s.cpl := rfl
@[simp] theorem State.takeException_segBase (s : State) (e : Exception) (c : ErrorCode) (a : Option Qword) :
    (s.takeException e c a).segBase = s.segBase := rfl
@[simp] theorem State.takeException_mem (s : State) (e : Exception) (c : ErrorCode) (a : Option Qword) :
    (s.takeException e c a).mem = s.mem := rfl
@[simp] theorem State.takeException_prot (s : State) (e : Exception) (c : ErrorCode) (a : Option Qword) :
    (s.takeException e c a).prot = s.prot := rfl
@[simp] theorem State.takeException_trap (s : State) (e : Exception) (c : ErrorCode) (a : Option Qword) :
    (s.takeException e c a).trap = some ⟨e, c⟩ := rfl

/-! ## resume -/

@[simp] theorem State.resume_mode (s : State) :
    (s.resume).mode = s.mode := rfl
@[simp] theorem State.resume_cfg (s : State) :
    (s.resume).cfg = s.cfg := rfl
@[simp] theorem State.resume_zmm (s : State) :
    (s.resume).zmm = s.zmm := rfl
@[simp] theorem State.resume_k (s : State) :
    (s.resume).k = s.k := rfl
@[simp] theorem State.resume_mxcsr (s : State) :
    (s.resume).mxcsr = s.mxcsr := rfl
@[simp] theorem State.resume_ip (s : State) :
    (s.resume).ip = s.ip := rfl
@[simp] theorem State.resume_gpr (s : State) :
    (s.resume).gpr = s.gpr := rfl
@[simp] theorem State.resume_rflags (s : State) :
    (s.resume).rflags = s.rflags := rfl
@[simp] theorem State.resume_cr0 (s : State) :
    (s.resume).cr0 = s.cr0 := rfl
@[simp] theorem State.resume_cr4 (s : State) :
    (s.resume).cr4 = s.cr4 := rfl
@[simp] theorem State.resume_xcr0 (s : State) :
    (s.resume).xcr0 = s.xcr0 := rfl
@[simp] theorem State.resume_cr2 (s : State) :
    (s.resume).cr2 = s.cr2 := rfl
@[simp] theorem State.resume_cpl (s : State) :
    (s.resume).cpl = s.cpl := rfl
@[simp] theorem State.resume_segBase (s : State) :
    (s.resume).segBase = s.segBase := rfl
@[simp] theorem State.resume_mem (s : State) :
    (s.resume).mem = s.mem := rfl
@[simp] theorem State.resume_prot (s : State) :
    (s.resume).prot = s.prot := rfl
@[simp] theorem State.resume_trap (s : State) :
    (s.resume).trap = none := rfl

/-! ## advance -/

@[simp] theorem State.advance_mode (s : State) (n : Nat) :
    (s.advance n).mode = s.mode := rfl
@[simp] theorem State.advance_cfg (s : State) (n : Nat) :
    (s.advance n).cfg = s.cfg := rfl
@[simp] theorem State.advance_zmm (s : State) (n : Nat) :
    (s.advance n).zmm = s.zmm := rfl
@[simp] theorem State.advance_k (s : State) (n : Nat) :
    (s.advance n).k = s.k := rfl
@[simp] theorem State.advance_mxcsr (s : State) (n : Nat) :
    (s.advance n).mxcsr = s.mxcsr := rfl
@[simp] theorem State.advance_ip (s : State) (n : Nat) :
    (s.advance n).ip = truncAddr s.mode (s.ip + BitVec.ofNat 64 n) := rfl
@[simp] theorem State.advance_gpr (s : State) (n : Nat) :
    (s.advance n).gpr = s.gpr := rfl
@[simp] theorem State.advance_rflags (s : State) (n : Nat) :
    (s.advance n).rflags = s.rflags := rfl
@[simp] theorem State.advance_cr0 (s : State) (n : Nat) :
    (s.advance n).cr0 = s.cr0 := rfl
@[simp] theorem State.advance_cr4 (s : State) (n : Nat) :
    (s.advance n).cr4 = s.cr4 := rfl
@[simp] theorem State.advance_xcr0 (s : State) (n : Nat) :
    (s.advance n).xcr0 = s.xcr0 := rfl
@[simp] theorem State.advance_cr2 (s : State) (n : Nat) :
    (s.advance n).cr2 = s.cr2 := rfl
@[simp] theorem State.advance_cpl (s : State) (n : Nat) :
    (s.advance n).cpl = s.cpl := rfl
@[simp] theorem State.advance_segBase (s : State) (n : Nat) :
    (s.advance n).segBase = s.segBase := rfl
@[simp] theorem State.advance_mem (s : State) (n : Nat) :
    (s.advance n).mem = s.mem := rfl
@[simp] theorem State.advance_prot (s : State) (n : Nat) :
    (s.advance n).prot = s.prot := rfl
@[simp] theorem State.advance_trap (s : State) (n : Nat) :
    (s.advance n).trap = s.trap := rfl

/-! ## writeZmm -/

@[simp] theorem State.writeZmm_mode (s : State) (n : BitVec 5) (v : Vec) :
    (s.writeZmm n v).mode = s.mode := rfl
@[simp] theorem State.writeZmm_cfg (s : State) (n : BitVec 5) (v : Vec) :
    (s.writeZmm n v).cfg = s.cfg := rfl
@[simp] theorem State.writeZmm_k (s : State) (n : BitVec 5) (v : Vec) :
    (s.writeZmm n v).k = s.k := rfl
@[simp] theorem State.writeZmm_mxcsr (s : State) (n : BitVec 5) (v : Vec) :
    (s.writeZmm n v).mxcsr = s.mxcsr := rfl
@[simp] theorem State.writeZmm_ip (s : State) (n : BitVec 5) (v : Vec) :
    (s.writeZmm n v).ip = s.ip := rfl
@[simp] theorem State.writeZmm_gpr (s : State) (n : BitVec 5) (v : Vec) :
    (s.writeZmm n v).gpr = s.gpr := rfl
@[simp] theorem State.writeZmm_rflags (s : State) (n : BitVec 5) (v : Vec) :
    (s.writeZmm n v).rflags = s.rflags := rfl
@[simp] theorem State.writeZmm_cr0 (s : State) (n : BitVec 5) (v : Vec) :
    (s.writeZmm n v).cr0 = s.cr0 := rfl
@[simp] theorem State.writeZmm_cr4 (s : State) (n : BitVec 5) (v : Vec) :
    (s.writeZmm n v).cr4 = s.cr4 := rfl
@[simp] theorem State.writeZmm_xcr0 (s : State) (n : BitVec 5) (v : Vec) :
    (s.writeZmm n v).xcr0 = s.xcr0 := rfl
@[simp] theorem State.writeZmm_cr2 (s : State) (n : BitVec 5) (v : Vec) :
    (s.writeZmm n v).cr2 = s.cr2 := rfl
@[simp] theorem State.writeZmm_cpl (s : State) (n : BitVec 5) (v : Vec) :
    (s.writeZmm n v).cpl = s.cpl := rfl
@[simp] theorem State.writeZmm_segBase (s : State) (n : BitVec 5) (v : Vec) :
    (s.writeZmm n v).segBase = s.segBase := rfl
@[simp] theorem State.writeZmm_mem (s : State) (n : BitVec 5) (v : Vec) :
    (s.writeZmm n v).mem = s.mem := rfl
@[simp] theorem State.writeZmm_prot (s : State) (n : BitVec 5) (v : Vec) :
    (s.writeZmm n v).prot = s.prot := rfl
@[simp] theorem State.writeZmm_trap (s : State) (n : BitVec 5) (v : Vec) :
    (s.writeZmm n v).trap = s.trap := rfl

/-! ## recordFlags -/

@[simp] theorem State.recordFlags_mode (s : State) (fl : FpFlags) :
    (s.recordFlags fl).mode = s.mode := rfl
@[simp] theorem State.recordFlags_cfg (s : State) (fl : FpFlags) :
    (s.recordFlags fl).cfg = s.cfg := rfl
@[simp] theorem State.recordFlags_zmm (s : State) (fl : FpFlags) :
    (s.recordFlags fl).zmm = s.zmm := rfl
@[simp] theorem State.recordFlags_k (s : State) (fl : FpFlags) :
    (s.recordFlags fl).k = s.k := rfl
@[simp] theorem State.recordFlags_mxcsr (s : State) (fl : FpFlags) :
    (s.recordFlags fl).mxcsr = s.mxcsr ||| fl.bits := rfl
@[simp] theorem State.recordFlags_ip (s : State) (fl : FpFlags) :
    (s.recordFlags fl).ip = s.ip := rfl
@[simp] theorem State.recordFlags_gpr (s : State) (fl : FpFlags) :
    (s.recordFlags fl).gpr = s.gpr := rfl
@[simp] theorem State.recordFlags_rflags (s : State) (fl : FpFlags) :
    (s.recordFlags fl).rflags = s.rflags := rfl
@[simp] theorem State.recordFlags_cr0 (s : State) (fl : FpFlags) :
    (s.recordFlags fl).cr0 = s.cr0 := rfl
@[simp] theorem State.recordFlags_cr4 (s : State) (fl : FpFlags) :
    (s.recordFlags fl).cr4 = s.cr4 := rfl
@[simp] theorem State.recordFlags_xcr0 (s : State) (fl : FpFlags) :
    (s.recordFlags fl).xcr0 = s.xcr0 := rfl
@[simp] theorem State.recordFlags_cr2 (s : State) (fl : FpFlags) :
    (s.recordFlags fl).cr2 = s.cr2 := rfl
@[simp] theorem State.recordFlags_cpl (s : State) (fl : FpFlags) :
    (s.recordFlags fl).cpl = s.cpl := rfl
@[simp] theorem State.recordFlags_segBase (s : State) (fl : FpFlags) :
    (s.recordFlags fl).segBase = s.segBase := rfl
@[simp] theorem State.recordFlags_mem (s : State) (fl : FpFlags) :
    (s.recordFlags fl).mem = s.mem := rfl
@[simp] theorem State.recordFlags_prot (s : State) (fl : FpFlags) :
    (s.recordFlags fl).prot = s.prot := rfl
@[simp] theorem State.recordFlags_trap (s : State) (fl : FpFlags) :
    (s.recordFlags fl).trap = s.trap := rfl


/-! ## Vector registers -/

theorem State.writeZmm_zmm (s : State) (n : BitVec 5) (v : Vec) :
    (s.writeZmm n v).zmm =
      s.zmm.set n.toNat
        ((v &&& MaxVl.mask s.cfg.maxvl) ||| (s.readZmm n &&& ~~~(MaxVl.mask s.cfg.maxvl))) :=
  rfl

/-- What a written register reads as. -/
theorem State.readZmm_writeZmm (s : State) (n m : BitVec 5) (v : Vec) :
    (s.writeZmm n v).readZmm m =
      if m = n then
        (v &&& MaxVl.mask s.cfg.maxvl) ||| (s.readZmm n &&& ~~~(MaxVl.mask s.cfg.maxvl))
      else s.readZmm m := by
  unfold State.readZmm
  rw [State.writeZmm_zmm]
  simp only [Vector.get_eq_getElem]
  rw [Vector.getElem_set]
  by_cases h : m = n
  · subst h; simp [State.readZmm, Vector.get_eq_getElem]
  · have : ¬ n.toNat = m.toNat := fun e => h (BitVec.eq_of_toNat_eq e.symm)
    simp [h, this]

@[simp] theorem State.readZmm_writeZmm_other (s : State) (n m : BitVec 5) (v : Vec) (h : m ≠ n) :
    (s.writeZmm n v).readZmm m = s.readZmm m := by
  simp [State.readZmm_writeZmm, h]

@[simp] theorem State.readZmm_takeException (s : State) (e : Exception) (c : ErrorCode)
    (a : Option Qword) (n : BitVec 5) : (s.takeException e c a).readZmm n = s.readZmm n := rfl

@[simp] theorem State.readZmm_advance (s : State) (k : Nat) (n : BitVec 5) :
    (s.advance k).readZmm n = s.readZmm n := rfl

@[simp] theorem State.readZmm_recordFlags (s : State) (fl : FpFlags) (n : BitVec 5) :
    (s.recordFlags fl).readZmm n = s.readZmm n := rfl

/-! ## MXCSR -/

/-- The bits of a flag set. -/
theorem FpFlags.getLsbD_bits (fl : FpFlags) (b : Nat) :
    fl.bits.getLsbD b = ((decide (b = 0) && fl.ie) || (decide (b = 5) && fl.pe)) := by
  by_cases hb : b < 32
  · rcases fl with ⟨i, p⟩
    revert b
    cases i <;> cases p <;> decide
  · have h0 : b ≠ 0 := by omega
    have h5 : b ≠ 5 := by omega
    simp [BitVec.getLsbD_of_ge _ _ (Nat.le_of_not_lt hb), h0, h5]

/-- The same, read as an element. -/
theorem FpFlags.getElem_bits (fl : FpFlags) (b : Nat) (h : b < 32) :
    fl.bits[b] = ((decide (b = 0) && fl.ie) || (decide (b = 5) && fl.pe)) := by
  rw [← BitVec.getLsbD_eq_getElem, FpFlags.getLsbD_bits]

@[simp] theorem State.ie_recordFlags (s : State) (fl : FpFlags) :
    (s.recordFlags fl).ie = (s.ie || fl.ie) := by
  simp [State.ie, FpFlags.getElem_bits]

@[simp] theorem State.pe_recordFlags (s : State) (fl : FpFlags) :
    (s.recordFlags fl).pe = (s.pe || fl.pe) := by
  simp [State.pe, FpFlags.getElem_bits]

@[simp] theorem State.im_recordFlags (s : State) (fl : FpFlags) :
    (s.recordFlags fl).im = s.im := by
  simp [State.im, FpFlags.getElem_bits]

@[simp] theorem State.pm_recordFlags (s : State) (fl : FpFlags) :
    (s.recordFlags fl).pm = s.pm := by
  simp [State.pm, FpFlags.getElem_bits]

@[simp] theorem State.daz_recordFlags (s : State) (fl : FpFlags) :
    (s.recordFlags fl).daz = s.daz := by
  simp [State.daz, FpFlags.getElem_bits]

@[simp] theorem State.rc_recordFlags (s : State) (fl : FpFlags) :
    (s.recordFlags fl).rc = s.rc := by
  unfold State.rc
  congr 1
  ext i hi
  simp [BitVec.getElem_extractLsb', FpFlags.getLsbD_bits]
  omega

@[simp] theorem State.simdException_recordFlags (s : State) (fl : FpFlags) :
    (s.recordFlags fl).simdException = s.simdException := rfl

/-- Recording flags twice is recording their union once. -/
theorem State.recordFlags_recordFlags (s : State) (a b : FpFlags) :
    (s.recordFlags a).recordFlags b = s.recordFlags (a.union b) := by
  have : a.bits ||| b.bits = (a.union b).bits := by
    rcases a with ⟨ai, ap⟩; rcases b with ⟨bi, bp⟩
    cases ai <;> cases ap <;> cases bi <;> cases bp <;> decide
  simp [State.recordFlags, BitVec.or_assoc, this]

@[simp] theorem State.recordFlags_none (s : State) : s.recordFlags FpFlags.none = s := by
  have : FpFlags.none.bits = 0#32 := by decide
  simp [State.recordFlags, this]

end Sys2Proof.Machine
end

