-- ==== Sys2Proof/Laws/Memory.lean ====
section
/-! SUPPORT. Memory: a read after a write, the canonical form, and what placing bytes leaves. -/

namespace Sys2Proof.Machine

/-! ## Reads and the canonical form -/

/-- Below the lowest address a well-formed memory lists, every byte reads as an unlisted one. -/
theorem Memory.read_of_lt (m : Memory) (lo a : Nat) (h : Memory.wfFrom lo m = true) (ha : a < lo) :
    Memory.read m a = unlistedByte := by
  induction m generalizing lo with
  | nil => rfl
  | cons c m ih =>
    obtain ⟨b, v⟩ := c
    simp only [Memory.wfFrom, Bool.and_eq_true, decide_eq_true_eq] at h
    have hb : b ≠ a := by omega
    simp only [Memory.read, hb, if_false]
    exact ih (b + 1) h.2 (by omega)

theorem Memory.wfFrom_mono (m : Memory) (lo lo' : Nat) (h : Memory.wfFrom lo m = true)
    (hl : lo' ≤ lo) : Memory.wfFrom lo' m = true := by
  cases m with
  | nil => rfl
  | cons c m =>
    obtain ⟨b, v⟩ := c
    simp only [Memory.wfFrom, Bool.and_eq_true, decide_eq_true_eq] at h ⊢
    exact ⟨⟨by omega, h.1.2⟩, h.2⟩

/-- Reading after a write, in a memory of canonical form. -/
theorem Memory.read_write (m : Memory) (lo a x : Nat) (v : Byte) (h : Memory.wfFrom lo m = true) :
    Memory.read (Memory.write m a v) x = if x = a then v else Memory.read m x := by
  induction m generalizing lo with
  | nil =>
    by_cases hv : v = unlistedByte
    · by_cases hx : x = a <;> simp [Memory.write, Memory.read, hv, hx]
    · by_cases hx : x = a
      · simp [Memory.write, Memory.read, hv, hx]
      · have : ¬ a = x := fun e => hx e.symm
        simp [Memory.write, Memory.read, hv, hx, this]
  | cons c m ih =>
    obtain ⟨b, w⟩ := c
    simp only [Memory.wfFrom, Bool.and_eq_true, decide_eq_true_eq] at h
    have low : ∀ y, y < b + 1 → Memory.read m y = unlistedByte :=
      fun y hy => Memory.read_of_lt m (b + 1) y h.2 hy
    simp only [Memory.write]
    by_cases hab : a < b
    · simp only [hab, if_true]
      by_cases hv : v = unlistedByte
      · simp only [hv, if_true]
        by_cases hx : x = a
        · subst hx
          have : ¬ b = x := by omega
          simp [Memory.read, this, low x (by omega)]
        · simp [hx]
      · simp only [hv, if_false, Memory.read]
        by_cases hx : x = a
        · simp [hx]
        · have : ¬ a = x := fun e => hx e.symm
          simp [hx, this]
    · simp only [hab, if_false]
      by_cases he : a = b
      · subst he
        simp only [if_true]
        by_cases hv : v = unlistedByte
        · simp only [hv, if_true]
          by_cases hx : x = a
          · subst hx; simp [low x (by omega)]
          · have : ¬ a = x := fun e => hx e.symm
            simp [Memory.read, hx, this]
        · simp only [hv, if_false, Memory.read]
          by_cases hx : x = a
          · simp [hx]
          · have : ¬ a = x := fun e => hx e.symm
            simp [hx, this]
      · simp only [he, if_false, Memory.read]
        by_cases hx : b = x
        · have : ¬ x = a := by omega
          simp [hx, this]
        · simp only [hx, if_false]
          exact ih (b + 1) h.2

/-- A write keeps the strictly rising, sparse form. -/
theorem Memory.wfFrom_write (m : Memory) (lo a : Nat) (v : Byte) (h : Memory.wfFrom lo m = true)
    (ha : lo ≤ a) : Memory.wfFrom lo (Memory.write m a v) = true := by
  induction m generalizing lo with
  | nil =>
    by_cases hv : v = unlistedByte <;> simp [Memory.write, Memory.wfFrom, hv, ha]
  | cons c m ih =>
    obtain ⟨b, w⟩ := c
    have h0 := h
    simp only [Memory.wfFrom, Bool.and_eq_true, decide_eq_true_eq] at h
    simp only [Memory.write]
    split
    · split
      · exact h0
      · rename_i hab hv
        simp only [Memory.wfFrom, Bool.and_eq_true, decide_eq_true_eq]
        exact ⟨⟨ha, by simpa using hv⟩, ⟨by omega, h.1.2⟩, h.2⟩
    · split
      · rename_i he
        subst he
        split
        · exact Memory.wfFrom_mono m _ _ h.2 (by omega)
        · rename_i hv
          simp [Memory.wfFrom, ha, hv, h.2]
      · rename_i hab hne
        simp only [Memory.wfFrom, Bool.and_eq_true, decide_eq_true_eq]
        exact ⟨h.1, ih (b + 1) h.2 (by omega)⟩

theorem Memory.mem_write (m : Memory) (a : Nat) (v : Byte) (c : Host.Cell)
    (h : c ∈ Memory.write m a v) : c = (a, v) ∨ c ∈ m := by
  induction m with
  | nil =>
    simp only [Memory.write] at h
    split at h <;> simp_all
  | cons d m ih =>
    obtain ⟨b, w⟩ := d
    simp only [Memory.write] at h
    split at h
    · split at h <;> simp_all
    · split at h
      · split at h
        · exact .inr (List.mem_cons_of_mem _ h)
        · rcases List.mem_cons.1 h with h | h
          · exact .inl h
          · exact .inr (List.mem_cons_of_mem _ h)
      · rcases List.mem_cons.1 h with h | h
        · exact .inr (by simp [h])
        · rcases ih h with h | h
          · exact .inl h
          · exact .inr (List.mem_cons_of_mem _ h)

/-- Every memory operation keeps the canonical form; the write is the only one. -/
theorem Memory.wf_write (m : Memory) (a : Nat) (v : Byte) (h : m.wf = true) (ha : a < 2 ^ 64) :
    (m.write a v).wf = true := by
  simp only [Memory.wf, Bool.and_eq_true] at h ⊢
  refine ⟨Memory.wfFrom_write m 0 a v h.1 (Nat.zero_le _), ?_⟩
  rw [List.all_eq_true] at h ⊢
  intro c hc
  rcases Memory.mem_write m a v c hc with rfl | hm
  · simpa using ha
  · exact h.2 c hm

/-- The reset state's memory has the canonical form. -/
theorem Memory.wf_reset : State.reset.mem.wf = true := rfl

/-! ## Placing bytes -/

/-- Placing bytes changes memory alone, and keeps its form. -/
theorem State.writeBytes_spec (s : State) (la : Qword) (i : Nat) (bs : List Byte)
    (h : s.mem.wf = true) :
    ∃ m : Memory, s.writeBytes la i bs = { s with mem := m } ∧ m.wf = true := by
  induction bs generalizing s i with
  | nil => exact ⟨s.mem, rfl, h⟩
  | cons b bs ih =>
    have hw := Memory.wf_write s.mem (s.byteAddr la i).toNat b h (s.byteAddr la i).isLt
    obtain ⟨m, hm, hwf⟩ := ih { s with mem := s.mem.write (s.byteAddr la i).toNat b } (i + 1) hw
    exact ⟨m, by simpa [State.writeBytes] using hm, hwf⟩

end Sys2Proof.Machine
end

