-- ==== Sys2Proof/Laws/Ops.lean ====
section
/-! SUPPORT. One lemma per shared operation that says once everything it can do. -/

namespace Sys2Proof.Machine

/-! ## Parts of a step -/

theorem Eff.andThen_eq_ok {α β : Type} {e : Eff α} {f : α → Eff β} {b : β} :
    e.andThen f = .ok b ↔ ∃ a, e = .ok a ∧ f a = .ok b := by
  cases e <;> simp [Eff.andThen]

theorem Eff.andThen_eq_raise {α β : Type} {e : Eff α} {f : α → Eff β} {t : State} :
    e.andThen f = .raise t ↔ e = .raise t ∨ ∃ a, e = .ok a ∧ f a = .raise t := by
  cases e <;> simp [Eff.andThen]

theorem Eff.andThen_eq_refuse {α β : Type} {e : Eff α} {f : α → Eff β} {r : Refusal} :
    e.andThen f = .refuse r ↔ e = .refuse r ∨ ∃ a, e = .ok a ∧ f a = .refuse r := by
  cases e <;> simp [Eff.andThen]

theorem Eff.outcome_eq_next {e : Eff State} {t : State} :
    e.outcome = .next t ↔ e = .ok t ∨ e = .raise t := by
  cases e <;> simp [Eff.outcome]

theorem Eff.outcome_ne_fault (e : Eff State) (f : Fault) : e.outcome ≠ .fault f := by
  cases e <;> simp [Eff.outcome]

/-! ## The prologue -/

theorem State.precheck_eq_none {s : State} {form : Form} {u : Bool} :
    s.precheck form u = none ↔
      u = false ∧ Config.extensionPresent s.cfg form = true ∧ s.simdUD form = false ∧ s.ts = false := by
  unfold State.precheck
  cases u <;> cases Config.extensionPresent s.cfg form <;> cases s.simdUD form <;> cases s.ts <;> simp

theorem State.precheck_eq_some {s : State} {form : Form} {u : Bool} {e : Exception}
    (h : s.precheck form u = some e) : e = .ud ∨ e = .nm := by
  unfold State.precheck at h
  split at h
  · exact .inl (by simpa using h.symm)
  · split at h
    · exact .inl (by simpa using h.symm)
    · split at h
      · exact .inl (by simpa using h.symm)
      · split at h
        · exact .inr (by simpa using h.symm)
        · cases h

/-- The prologue passes exactly when the encoding is not reserved and the form is enabled. -/
theorem State.prologue_eq_ok {s : State} {form : Form} {u : Bool} {x : Unit} :
    s.prologue form u = .ok x ↔ u = false ∧ s.enabledFor form = true := by
  unfold State.prologue State.enabledFor
  cases hm : s.mode.admitted
  · simp
  · cases hp : s.precheck form u with
    | none =>
      rw [State.precheck_eq_none] at hp
      obtain ⟨rfl, h1, h2, h3⟩ := hp
      cases hx : Config.maxvlOk s.cfg form <;> simp [h1, h2, h3]
    | some e =>
      have : ¬ s.precheck form u = none := by simp [hp]
      rw [State.precheck_eq_none] at this
      simp only [Bool.not_true, Bool.false_eq_true, if_false, reduceCtorEq, Bool.true_and,
        Bool.and_eq_true, Bool.not_eq_true', false_iff]
      rintro ⟨h0, ⟨⟨h1, h2⟩, h3⟩, -⟩
      exact this ⟨h0, h1, h2, h3⟩

/-- The prologue raises nothing but #UD and #NM. -/
theorem State.prologue_eq_raise {s t : State} {form : Form} {u : Bool}
    (h : s.prologue form u = .raise t) :
    ∃ e, (e = .ud ∨ e = .nm) ∧ t = s.takeException e .none none := by
  unfold State.prologue at h
  split at h
  · cases h
  · split at h
    · rename_i e he
      exact ⟨e, State.precheck_eq_some he, by simpa using h.symm⟩
    · split at h <;> cases h

/-! ## MemCheck -/

theorem segmentException_wf (seg : Seg) (cause : SegmentCause) :
    Trap.wf ⟨segmentException seg cause, .zero⟩ = true := by
  cases seg <;> cases cause <;> rfl

theorem segmentException_memory (seg : Seg) (cause : SegmentCause) :
    segmentException seg cause ≠ .ud ∧ segmentException seg cause ≠ .nm ∧
      segmentException seg cause ≠ .xm := by
  cases seg <;> cases cause <;> decide

theorem State.pageFault_wr {s : State} {fetch : Bool} {a : Nat} {c : PageFaultCode}
    (h : s.pageFault fetch a = some c) : c.wr = false ∧ c.id = fetch := by
  unfold State.pageFault at h
  obtain ⟨r, -, hr⟩ := List.exists_of_findSome?_eq_some h
  rw [Option.ite_none_right_eq_some] at hr
  have hc := Option.some.inj hr.2
  subst hc
  exact ⟨rfl, rfl⟩

theorem Part.mem_bytes {p : Part} {o : Nat} : o ∈ p.bytes ↔ ∃ i, i < p.n ∧ o = p.off + i := by
  simp only [Part.bytes, List.mem_map, List.mem_range, eq_comm]

theorem mem_partBytes {ps : List Part} {o : Nat} :
    o ∈ partBytes ps ↔ ∃ p ∈ ps, ∃ i, i < p.n ∧ o = p.off + i := by
  simp only [partBytes, List.mem_flatMap, Part.mem_bytes]

@[simp] theorem partBytes_whole (n : Nat) : partBytes [⟨0, n⟩] = List.range n := by
  simp [partBytes, Part.bytes]

/-- The segment and canonical checks pass exactly when they refuse no byte and no part. -/
theorem State.segmentFault_eq_none {s : State} {fetch : Bool} {seg : Seg} {ea la : Qword}
    {ps : List Part} :
    s.segmentFault fetch seg ea la ps = none ↔
      (∀ o ∈ partBytes ps, s.canonicalOk (s.byteAddr la o) = true ∧
        s.segmentViolation fetch seg (s.byteAddr ea o).toNat = none) ∧
      ∀ p ∈ ps, ∀ c, s.partFault fetch seg ea la p ≠ some (.segment c) := by
  simp only [State.segmentFault, Option.or_eq_none_iff, List.findSome?_eq_none_iff]
  refine and_congr (forall₂_congr fun o _ => ?_) (forall₂_congr fun p _ => ?_)
  · cases s.canonicalOk (s.byteAddr la o) <;> simp
  · rcases s.partFault fetch seg ea la p with _ | _ | _ <;> simp

/-- A cause that the segment and canonical checks answer is one for which they refuse a byte or a part. -/
theorem State.segmentFault_eq_some {s : State} {fetch : Bool} {seg : Seg} {ea la : Qword}
    {ps : List Part} {cause : SegmentCause} (h : s.segmentFault fetch seg ea la ps = some cause) :
    s.SegmentRefuses fetch seg ea la ps cause := by
  rw [State.segmentFault, Option.or_eq_some_iff] at h
  rcases h with h | ⟨-, h⟩
  · obtain ⟨o, ho, hc⟩ := List.exists_of_findSome?_eq_some h
    refine .inl ⟨o, ho, ?_⟩
    cases hk : s.canonicalOk (s.byteAddr la o) with
    | true => exact .inr (by simpa [hk] using hc)
    | false => exact .inl ⟨by simpa [hk, eq_comm] using hc, rfl⟩
  · obtain ⟨p, hp, hc⟩ := List.exists_of_findSome?_eq_some h
    refine .inr ⟨p, hp, ?_⟩
    split at hc
    · rename_i c hf
      rw [hf, Option.some.inj hc]
    · cases hc

/-- The page-level checks pass exactly when they refuse no byte and no part. -/
theorem State.translationFault_eq_none {s : State} {fetch : Bool} {seg : Seg} {ea la : Qword}
    {ps : List Part} :
    s.translationFault fetch seg ea la ps = none ↔
      (∀ p ∈ ps, ∀ b u r k a, s.partFault fetch seg ea la p ≠ some (.page b u r k a)) ∧
      ∀ o ∈ partBytes ps, s.pageFault fetch (s.byteAddr la o).toNat = none := by
  simp only [State.translationFault, Option.or_eq_none_iff, List.findSome?_eq_none_iff,
    Option.map_eq_none_iff]
  refine and_congr (forall₂_congr fun p _ => ?_) Iff.rfl
  rcases s.partFault fetch seg ea la p with _ | _ | ⟨b, u, r, k, a⟩
  · simp
  · simp
  · exact iff_of_false (by simp) fun h => h b u r k a rfl

/-- A page fault is never a write, and I/D says whether it is a fetch. -/
theorem State.translationFault_wr {s : State} {fetch : Bool} {seg : Seg} {ea la a : Qword}
    {ps : List Part} {c : PageFaultCode} (h : s.translationFault fetch seg ea la ps = some (c, a)) :
    c.wr = false ∧ c.id = fetch := by
  rw [State.translationFault, Option.or_eq_some_iff] at h
  rcases h with h | ⟨-, h⟩
  · obtain ⟨p, -, hc⟩ := List.exists_of_findSome?_eq_some h
    split at hc
    · obtain ⟨rfl, -⟩ := Prod.mk.inj (Option.some.inj hc)
      exact ⟨rfl, rfl⟩
    · cases hc
  · obtain ⟨o, -, hc⟩ := List.exists_of_findSome?_eq_some h
    obtain ⟨d, hd, he⟩ := Option.map_eq_some_iff.1 hc
    obtain ⟨rfl, -⟩ := Prod.mk.inj he
    exact State.pageFault_wr hd

/-- MemCheck answers `ok` exactly when every part and every byte is admitted. -/
theorem State.memCheck_eq_ok {s : State} {fetch : Bool} {seg : Seg} {ea la : Qword}
    {ps : List Part} {x : Unit} :
    s.memCheck fetch seg ea la ps = .ok x ↔ s.memCheckOk fetch seg ea la ps = true := by
  have hok : s.memCheckOk fetch seg ea la ps = true ↔
      s.segmentFault fetch seg ea la ps = none ∧ s.translationFault fetch seg ea la ps = none ∧
        ∀ o ∈ partBytes ps, s.isDevice (s.byteAddr la o).toNat = false := by
    have hp : ∀ p, s.partFault fetch seg ea la p = none ↔
        (∀ c, s.partFault fetch seg ea la p ≠ some (.segment c)) ∧
        ∀ b u r k a, s.partFault fetch seg ea la p ≠ some (.page b u r k a) := by
      intro p
      rcases s.partFault fetch seg ea la p with _ | c | ⟨b, u, r, k, a⟩
      · simp
      · exact iff_of_false (by simp) fun h => h.1 c rfl
      · exact iff_of_false (by simp) fun h => h.2 b u r k a rfl
    simp only [State.segmentFault_eq_none, State.translationFault_eq_none, State.memCheckOk,
      State.byteOk, Bool.and_eq_true, List.all_eq_true, Option.isNone_iff_eq_none, hp,
      Bool.not_eq_true']
    exact ⟨fun ⟨h1, h2⟩ => ⟨⟨fun o ho => (h2 o ho).1.1, fun p hp => (h1 p hp).1⟩,
        ⟨fun p hp => (h1 p hp).2, fun o ho => (h2 o ho).1.2⟩, fun o ho => (h2 o ho).2⟩,
      fun ⟨⟨h1, h2⟩, ⟨h3, h4⟩, h5⟩ => ⟨fun p hp => ⟨h2 p hp, h3 p hp⟩,
        fun o ho => ⟨⟨h1 o ho, h4 o ho⟩, h5 o ho⟩⟩⟩
  rw [hok, State.memCheck]
  cases s.segmentFault fetch seg ea la ps with
  | some c => simp
  | none =>
    cases s.translationFault fetch seg ea la ps with
    | some c => simp
    | none =>
      simp only [true_and]
      by_cases h : (partBytes ps).any fun o => s.isDevice (s.byteAddr la o).toNat
      · simp only [h, if_true, reduceCtorEq, false_iff, not_forall]
        obtain ⟨o, ho, hd⟩ := List.any_eq_true.1 h
        exact ⟨o, ho, by simp [hd]⟩
      · simp only [h, if_false, Bool.false_eq_true, true_iff]
        intro o ho
        by_contra hd
        exact h (List.any_eq_true.2 ⟨o, ho, by simpa using hd⟩)

/-- MemCheck raises #SS, #GP or #PF, each with its error code. -/
theorem State.memCheck_eq_raise {s t : State} {fetch : Bool} {seg : Seg} {ea la : Qword}
    {ps : List Part} (h : s.memCheck fetch seg ea la ps = .raise t) :
    ∃ e c a, t = s.takeException e c a ∧ Trap.wf ⟨e, c⟩ = true ∧ e ≠ .ud ∧ e ≠ .nm ∧ e ≠ .xm := by
  unfold State.memCheck at h
  split at h
  · rename_i cause _
    cases h
    exact ⟨_, _, _, rfl, segmentException_wf seg cause, segmentException_memory seg cause⟩
  · split at h
    · rename_i c a hf
      cases h
      exact ⟨_, _, _, rfl, by simp [Trap.wf, (State.translationFault_wr hf).1], by simp, by simp, by simp⟩
    · split at h <;> cases h

/-- Where one cause alone refuses an access, MemCheck takes the exception of that cause. -/
theorem State.memCheck_of_segmentRefuses {s : State} {fetch : Bool} {seg : Seg} {ea la : Qword}
    {ps : List Part} {cause : SegmentCause} (h : s.SegmentRefuses fetch seg ea la ps cause)
    (hu : ∀ c, s.SegmentRefuses fetch seg ea la ps c → c = cause) :
    s.memCheck fetch seg ea la ps =
      .raise (s.takeException (segmentException seg cause) .zero none) := by
  cases hf : s.segmentFault fetch seg ea la ps with
  | some c => rw [State.memCheck, hf, hu c (State.segmentFault_eq_some hf)]
  | none =>
    obtain ⟨h1, h2⟩ := State.segmentFault_eq_none.1 hf
    rcases h with ⟨o, ho, ⟨-, hc⟩ | hc⟩ | ⟨p, hp, hc⟩
    · simp [(h1 o ho).1] at hc
    · simp [(h1 o ho).2] at hc
    · exact absurd hc (h2 p hp cause)

/-! ## Placement -/

/-- The code segment's limit admits an instruction exactly when it refuses no byte of it, nor the whole. -/
theorem State.withinCodeLimit_iff {s : State} {n : Nat} :
    s.withinCodeLimit n = true ↔
      ¬ ((∃ i, i < n ∧ s.segmentViolation true .cs (s.instrPtr.toNat + i) = some .bounds) ∨
        s.partFault true .cs s.instrPtr s.fetchAddr ⟨0, n⟩ = some (.segment .bounds)) := by
  simp only [State.withinCodeLimit, Bool.and_eq_true, List.all_eq_true, List.mem_range, bne_iff_ne,
    not_or, not_exists, not_and, ne_eq]

/-- A placement is admitted exactly when the instruction straddles no edge. -/
theorem State.placementOk_iff {s : State} {n : Nat} (hm : s.mode.admitted = true) :
    s.placementOk n = true ↔ ¬ s.Straddles n := by
  have hp : s.instrPtr = truncAddr s.mode s.ip := rfl
  unfold State.placementOk State.Straddles
  cases h : s.mode with
  | mode32 =>
    simp only [Bool.and_eq_true, decide_eq_true_eq, State.withinCodeLimit_iff, reduceCtorEq,
      false_and, false_or, true_and, not_or, not_lt]
  | mode64 =>
    rw [h] at hp
    simp only [hp, truncAddr, Bool.and_eq_true, decide_eq_true_eq, List.all_eq_true, List.mem_range,
      State.withinCodeLimit_iff, State.canonicalOk, h, reduceCtorEq, false_and, false_or, true_and,
      not_or, not_le, not_exists, not_and, Nat.lt_succ_iff, Bool.not_eq_false, and_assoc]
  | other m => simp [h, Mode.admitted] at hm

/-! ## The source operand -/

theorem State.checkOperand_eq_ok {s : State} {c : SourceCtx} {a : Address} {x : Unit} :
    s.checkOperand c a = .ok x ↔ s.readable c (.mem a) = true := by
  unfold State.checkOperand State.readable
  by_cases hf : c.form = .f1
  · by_cases hal : (s.operandAddr c a).toNat % 16 = 0
    · simp [hf, hal, Eff.andThen_eq_ok, State.memCheck_eq_ok]
    · simp [hf, hal]
  · simp only [hf, false_and, if_false, not_false_eq_true, ne_eq, true_and, Eff.andThen_eq_ok,
      State.memCheck_eq_ok]
    by_cases hac : s.alignCheck = true ∧ ¬ (s.operandAddr c a).toNat % c.width = 0
    · obtain ⟨h1, h2⟩ := hac
      simp [hf, h1, h2]
    · have h3 : s.alignCheck = false ∨ (s.operandAddr c a).toNat % c.width = 0 := by
        by_cases h : s.alignCheck = true
        · exact .inr (not_not.1 fun hn => hac ⟨h, hn⟩)
        · exact .inl (by simpa using h)
      simp only [hac, if_false, and_true, Bool.and_eq_true, Bool.or_eq_true, Bool.not_eq_true',
        beq_iff_eq, bne_iff_ne, ne_eq, hf, not_false_eq_true, true_or, true_and, false_or, h3]
      exact ⟨fun ⟨_, h⟩ => h, fun h => ⟨(), h⟩⟩

theorem State.checkOperand_eq_raise {s t : State} {c : SourceCtx} {a : Address}
    (h : s.checkOperand c a = .raise t) :
    ∃ e cd ad, t = s.takeException e cd ad ∧ Trap.wf ⟨e, cd⟩ = true ∧
      e ≠ .ud ∧ e ≠ .nm ∧ e ≠ .xm := by
  unfold State.checkOperand at h
  split at h
  · cases h
    exact ⟨_, _, _, rfl, rfl, by simp, by simp, by simp⟩
  · rw [Eff.andThen_eq_raise] at h
    rcases h with h | ⟨_, -, h⟩
    · exact State.memCheck_eq_raise h
    · split at h <;> cases h

/-- The source's elements, exactly when the operand is readable. -/
theorem State.loadSource_eq_ok {s : State} {c : SourceCtx} {rm : RmOperand} {f : Nat → Qword} :
    s.loadSource c rm = .ok f ↔ s.readable c rm = true ∧ f = s.sourceElement c rm := by
  cases rm with
  | reg n => simp [State.loadSource, State.readable, eq_comm]
  | mem a =>
    simp only [State.loadSource, Eff.andThen_eq_ok, State.checkOperand_eq_ok, Eff.ok.injEq]
    exact ⟨fun ⟨_, h, e⟩ => ⟨h, e.symm⟩, fun ⟨h, e⟩ => ⟨(), h, e.symm⟩⟩

/-- Reading the source raises memory faults only. -/
theorem State.loadSource_eq_raise {s t : State} {c : SourceCtx} {rm : RmOperand}
    (h : s.loadSource c rm = .raise t) :
    ∃ e cd ad, t = s.takeException e cd ad ∧ Trap.wf ⟨e, cd⟩ = true ∧
      e ≠ .ud ∧ e ≠ .nm ∧ e ≠ .xm := by
  cases rm with
  | reg n => cases h
  | mem a =>
    simp only [State.loadSource, Eff.andThen_eq_raise, reduceCtorEq, and_false, exists_false,
      or_false] at h
    exact State.checkOperand_eq_raise h

/-! ## The floating-point response -/

theorem flagsOf_ie (kl : Nat) (lane : Nat → Dword × FpFlags) :
    (flagsOf kl lane).ie = true ↔ ∃ j, j < kl ∧ (lane j).2.ie = true := by
  induction kl with
  | zero => simp [flagsOf, FpFlags.none]
  | succ n ih =>
    have : flagsOf (n + 1) lane = (flagsOf n lane).union (lane n).2 := by
      simp [flagsOf, List.range_succ]
    rw [this]
    simp only [FpFlags.union, Bool.or_eq_true, ih]
    constructor
    · rintro (⟨j, hj, h⟩ | h)
      · exact ⟨j, by omega, h⟩
      · exact ⟨n, by omega, h⟩
    · rintro ⟨j, hj, h⟩
      by_cases hn : j = n
      · exact .inr (hn ▸ h)
      · exact .inl ⟨j, by omega, h⟩

theorem flagsOf_pe (kl : Nat) (lane : Nat → Dword × FpFlags) :
    (flagsOf kl lane).pe = true ↔ ∃ j, j < kl ∧ (lane j).2.pe = true := by
  induction kl with
  | zero => simp [flagsOf, FpFlags.none]
  | succ n ih =>
    have : flagsOf (n + 1) lane = (flagsOf n lane).union (lane n).2 := by
      simp [flagsOf, List.range_succ]
    rw [this]
    simp only [FpFlags.union, Bool.or_eq_true, ih]
    constructor
    · rintro (⟨j, hj, h⟩ | h)
      · exact ⟨j, by omega, h⟩
      · exact ⟨n, by omega, h⟩
    · rintro ⟨j, hj, h⟩
      by_cases hn : j = n
      · exact .inr (hn ▸ h)
      · exact .inl ⟨j, by omega, h⟩

/-- The response passes exactly when every flag is masked, and has then recorded them. -/
theorem State.exceptionResponse_eq_ok {s t : State} {fl : FpFlags} :
    s.exceptionResponse fl = .ok t ↔
      (fl.ie = true → s.im = true) ∧ (fl.pe = true → s.pm = true) ∧ t = s.recordFlags fl := by
  unfold State.exceptionResponse
  cases fl.ie <;> cases fl.pe <;> cases s.im <;> cases s.pm <;> simp [eq_comm]

/-- The response raises with the flags recorded so far. -/
theorem State.exceptionResponse_eq_raise {s t : State} {fl : FpFlags}
    (h : s.exceptionResponse fl = .raise t) :
    (fl.ie = true ∧ s.im = false ∧
      t = (s.recordFlags ⟨true, false⟩).takeException s.simdException .none none) ∨
    ((fl.ie = true → s.im = true) ∧ fl.pe = true ∧ s.pm = false ∧
      t = (s.recordFlags ⟨fl.ie, true⟩).takeException s.simdException .none none) := by
  unfold State.exceptionResponse at h
  revert h
  cases fl.ie <;> cases fl.pe <;> cases s.im <;> cases s.pm <;> simp [eq_comm]

theorem State.simdException_wf (s : State) : Trap.wf ⟨s.simdException, .none⟩ = true := by
  unfold State.simdException
  split <;> rfl

theorem State.exceptionResponse_ne_refuse (s : State) (fl : FpFlags) (r : Refusal) :
    s.exceptionResponse fl ≠ .refuse r := by
  unfold State.exceptionResponse
  split
  · simp
  · split <;> simp

end Sys2Proof.Machine
end

