-- ==== Sys2Proof/Laws/Exec.lean ====
section
/-! SUPPORT. What an instruction and a step can do, said once: every next state is either a write of one vector
register with flags recorded and `ip` advanced, or an exception taken with flags recorded. -/

namespace Sys2Proof.Machine

/-- A completed instruction: flags recorded, one vector register written, `ip` advanced. -/
def Wrote (s t : State) : Prop :=
  ∃ fl d v n, t = ((s.recordFlags fl).writeZmm d v).advance n

/-- A trap: flags recorded, an exception of 60_exceptions.md R140 taken. -/
def Raised (s t : State) : Prop :=
  ∃ fl e c a, t = (s.recordFlags fl).takeException e c a ∧ Trap.wf ⟨e, c⟩ = true

theorem Raised.of_plain {s t : State} {e : Exception} {c : ErrorCode} {a : Option Qword}
    (h : t = s.takeException e c a) (hw : Trap.wf ⟨e, c⟩ = true) : Raised s t :=
  ⟨FpFlags.none, e, c, a, by simpa using h, hw⟩

theorem prologue_raised {s t : State} {form : Form} {u : Bool}
    (h : s.prologue form u = .raise t) : Raised s t := by
  obtain ⟨e, he, ht⟩ := State.prologue_eq_raise h
  rcases he with rfl | rfl <;> exact Raised.of_plain ht rfl

theorem loadSource_raised {s t : State} {c : SourceCtx} {rm : RmOperand}
    (h : s.loadSource c rm = .raise t) : Raised s t := by
  obtain ⟨e, cd, a, ht, hw, -⟩ := State.loadSource_eq_raise h
  exact Raised.of_plain ht hw

theorem exceptionResponse_raised {s t : State} {fl : FpFlags}
    (h : s.exceptionResponse fl = .raise t) : Raised s t := by
  rcases State.exceptionResponse_eq_raise h with ⟨-, -, ht⟩ | ⟨-, -, -, ht⟩
  · exact ⟨_, _, _, _, ht, State.simdException_wf s⟩
  · exact ⟨_, _, _, _, ht, State.simdException_wf s⟩

/-! ## The three bodies -/

theorem legacyBody_eq_ok {ps : List Prefix} {ext : Ext} {ilen : Nat} {reg : BitVec 3}
    {rm : RmOperand} {s t : State} (c : SourceCtx) (hc : c = ⟨.f1, ext, ps, ilen, false, fun _ => true⟩) :
    legacyBody ps ext ilen reg rm s = .ok t ↔
      ps.contains .lock = false ∧ s.enabledFor .f1 = true ∧ s.readable c rm = true ∧
      ((flagsOf 2 (s.lane c rm s.rc)).ie = true → s.im = true) ∧
      ((flagsOf 2 (s.lane c rm s.rc)).pe = true → s.pm = true) ∧
      t = ((s.recordFlags (flagsOf 2 (s.lane c rm s.rc))).writeZmm (ext.dest reg)
        (s.readZmm (ext.dest reg) &&& ~~~((BitVec.allOnes 128).setWidth 512) |||
          packDwords 2 fun j => (s.lane c rm s.rc j).1)).advance ilen := by
  subst hc
  simp only [legacyBody, Eff.andThen_eq_ok, State.prologue_eq_ok, State.loadSource_eq_ok,
    State.exceptionResponse_eq_ok, Eff.ok.injEq]
  constructor
  · rintro ⟨_, ⟨h1, h2⟩, f, ⟨h3, rfl⟩, s', ⟨h4, h5, rfl⟩, rfl⟩
    exact ⟨h1, h2, h3, h4, h5, rfl⟩
  · rintro ⟨h1, h2, h3, h4, h5, rfl⟩
    exact ⟨(), ⟨h1, h2⟩, _, ⟨h3, rfl⟩, _, ⟨h4, h5, rfl⟩, rfl⟩

theorem vexBody_eq_ok {form : Form} {pre : VexPrelude} {vvvv : BitVec 4} {ext : Ext} {ilen : Nat}
    {reg : BitVec 3} {rm : RmOperand} {s t : State} (c : SourceCtx)
    (hc : c = ⟨form, ext, pre.prefixes, ilen, false, fun _ => true⟩) :
    vexBody form pre vvvv ext ilen reg rm s = .ok t ↔
      (VexPrelude.isUD pre || vvvv != 15#4) = false ∧ s.enabledFor form = true ∧
      s.readable c rm = true ∧
      ((flagsOf form.kl (s.lane c rm s.rc)).ie = true → s.im = true) ∧
      ((flagsOf form.kl (s.lane c rm s.rc)).pe = true → s.pm = true) ∧
      t = ((s.recordFlags (flagsOf form.kl (s.lane c rm s.rc))).writeZmm (ext.dest reg)
        (packDwords form.kl fun j => (s.lane c rm s.rc j).1)).advance ilen := by
  subst hc
  simp only [vexBody, Eff.andThen_eq_ok, State.prologue_eq_ok, State.loadSource_eq_ok,
    State.exceptionResponse_eq_ok, Eff.ok.injEq]
  constructor
  · rintro ⟨_, ⟨h1, h2⟩, f, ⟨h3, rfl⟩, s', ⟨h4, h5, rfl⟩, rfl⟩
    exact ⟨h1, h2, h3, h4, h5, rfl⟩
  · rintro ⟨h1, h2, h3, h4, h5, rfl⟩
    exact ⟨(), ⟨h1, h2⟩, _, ⟨h3, rfl⟩, _, ⟨h4, h5, rfl⟩, rfl⟩

/-- The lanes of an EVEX form: a masked-off lane contributes no flag (40_conversion.md R114). -/
def maskedLanes (s : State) (aaa : BitVec 3) (c : SourceCtx) (rm : RmOperand) (rm' : RoundingMode)
    (j : Nat) : Dword × FpFlags :=
  if s.laneEnabled aaa j then s.lane c rm rm' j else (0#32, FpFlags.none)

theorem evexBody_eq_ok {form : Form} {pre : VexPrelude} {e : Evex} {bcast : Bool}
    {er : Option RoundingMode} {ilen : Nat} {reg : BitVec 3} {rm : RmOperand} {s t : State}
    (c : SourceCtx)
    (hc : c = ⟨form, Ext.ofEvex e, pre.prefixes, ilen, bcast, s.laneEnabled e.aaa⟩) :
    evexBody form pre e bcast er ilen reg rm s = .ok t ↔
      evexEncodingUD pre e = false ∧ s.enabledFor form = true ∧ s.readable c rm = true ∧
      (er = none →
        ((flagsOf form.kl (maskedLanes s e.aaa c rm s.rc)).ie = true → s.im = true) ∧
        ((flagsOf form.kl (maskedLanes s e.aaa c rm s.rc)).pe = true → s.pm = true)) ∧
      t = ((s.recordFlags (if er.isSome then FpFlags.none else
            flagsOf form.kl (maskedLanes s e.aaa c rm s.rc))).writeZmm
          ((Ext.ofEvex e).dest reg)
          (packDwords form.kl fun j => maskedDword (s.laneEnabled e.aaa j) e.z
            (s.lane c rm (er.getD s.rc) j).1
            (dwordOf (s.readZmm ((Ext.ofEvex e).dest reg)) j))).advance ilen := by
  subst hc
  cases er with
  | none =>
    simp only [evexBody, Eff.andThen_eq_ok, State.prologue_eq_ok, State.loadSource_eq_ok,
      State.exceptionResponse_eq_ok, Eff.ok.injEq, Option.isSome_none, Bool.false_eq_true, if_false,
      forall_const, Option.getD_none]
    constructor
    · rintro ⟨_, ⟨h1, h2⟩, f, ⟨h3, rfl⟩, s', ⟨h4, h5, rfl⟩, rfl⟩
      exact ⟨h1, h2, h3, ⟨h4, h5⟩, rfl⟩
    · rintro ⟨h1, h2, h3, ⟨h4, h5⟩, rfl⟩
      exact ⟨(), ⟨h1, h2⟩, _, ⟨h3, rfl⟩, _, ⟨h4, h5, rfl⟩, rfl⟩
  | some r =>
    simp only [evexBody, Eff.andThen_eq_ok, State.prologue_eq_ok, State.loadSource_eq_ok,
      Eff.ok.injEq, Option.isSome_some, if_true, Option.getD_some, State.recordFlags_none,
      reduceCtorEq, false_imp_iff, true_and]
    constructor
    · rintro ⟨_, ⟨h1, h2⟩, f, ⟨h3, rfl⟩, s', rfl, rfl⟩
      exact ⟨h1, h2, h3, rfl⟩
    · rintro ⟨h1, h2, h3, rfl⟩
      exact ⟨(), ⟨h1, h2⟩, _, ⟨h3, rfl⟩, _, rfl, rfl⟩

theorem legacyBody_raised {ps : List Prefix} {ext : Ext} {ilen : Nat} {reg : BitVec 3}
    {rm : RmOperand} {s t : State} (h : legacyBody ps ext ilen reg rm s = .raise t) : Raised s t := by
  simp only [legacyBody, Eff.andThen_eq_raise, reduceCtorEq, and_false, exists_false, or_false] at h
  rcases h with h | ⟨_, -, h | ⟨_, -, h⟩⟩
  · exact prologue_raised h
  · exact loadSource_raised h
  · exact exceptionResponse_raised h

theorem vexBody_raised {form : Form} {pre : VexPrelude} {vvvv : BitVec 4} {ext : Ext} {ilen : Nat}
    {reg : BitVec 3} {rm : RmOperand} {s t : State}
    (h : vexBody form pre vvvv ext ilen reg rm s = .raise t) : Raised s t := by
  simp only [vexBody, Eff.andThen_eq_raise, reduceCtorEq, and_false, exists_false, or_false] at h
  rcases h with h | ⟨_, -, h | ⟨_, -, h⟩⟩
  · exact prologue_raised h
  · exact loadSource_raised h
  · exact exceptionResponse_raised h

theorem evexBody_raised {form : Form} {pre : VexPrelude} {e : Evex} {bcast : Bool}
    {er : Option RoundingMode} {ilen : Nat} {reg : BitVec 3} {rm : RmOperand} {s t : State}
    (h : evexBody form pre e bcast er ilen reg rm s = .raise t) : Raised s t := by
  cases er <;>
    simp only [evexBody, Eff.andThen_eq_raise, reduceCtorEq, and_false, exists_false, or_false,
      Option.isSome_none, Option.isSome_some, if_true, if_false, Bool.false_eq_true] at h
  · rcases h with h | ⟨_, -, h | ⟨_, -, h⟩⟩
    · exact prologue_raised h
    · exact loadSource_raised h
    · exact exceptionResponse_raised h
  · rcases h with h | ⟨_, -, h⟩
    · exact prologue_raised h
    · exact loadSource_raised h

/-- A body's outcome, given what it does when it passes and when it raises. -/
theorem outcome_next {s t : State} {e : Eff State} (h : e.outcome = .next t)
    (hok : ∀ u, e = .ok u → Wrote s u) (hr : ∀ u, e = .raise u → Raised s u) :
    Wrote s t ∨ Raised s t := by
  rw [Eff.outcome_eq_next] at h
  rcases h with h | h
  · exact .inl (hok t h)
  · exact .inr (hr t h)

/-- Everything an instruction can do. -/
theorem exec_next {i : Instr} {s t : State} (h : exec i s = .next t) : Wrote s t ∨ Raised s t := by
  have legacy : ∀ ps ext n reg rm, ∀ u, legacyBody ps ext n reg rm s = .ok u → Wrote s u :=
    fun ps ext n reg rm u hu => ⟨_, _, _, _, ((legacyBody_eq_ok _ rfl).1 hu).2.2.2.2.2⟩
  have vex : ∀ f p v ext n reg rm, ∀ u, vexBody f p v ext n reg rm s = .ok u → Wrote s u :=
    fun f p v ext n reg rm u hu => ⟨_, _, _, _, ((vexBody_eq_ok _ rfl).1 hu).2.2.2.2.2⟩
  have evex : ∀ f p e b r n reg rm, ∀ u, evexBody f p e b r n reg rm s = .ok u → Wrote s u :=
    fun f p e b r n reg rm u hu => ⟨_, _, _, _, ((evexBody_eq_ok _ rfl).1 hu).2.2.2.2⟩
  cases i with
  | cvtpd2dq => exact outcome_next h (legacy _ _ _ _ _) (fun _ => legacyBody_raised)
  | cvtpd2dqRex => exact outcome_next h (legacy _ _ _ _ _) (fun _ => legacyBody_raised)
  | vcvtpd2dqVex128C5 => exact outcome_next h (vex _ _ _ _ _ _ _) (fun _ => vexBody_raised)
  | vcvtpd2dqVex128C4 => exact outcome_next h (vex _ _ _ _ _ _ _) (fun _ => vexBody_raised)
  | vcvtpd2dqVex256C5 => exact outcome_next h (vex _ _ _ _ _ _ _) (fun _ => vexBody_raised)
  | vcvtpd2dqVex256C4 => exact outcome_next h (vex _ _ _ _ _ _ _) (fun _ => vexBody_raised)
  | vcvtpd2dqEvex128 => exact outcome_next h (evex _ _ _ _ _ _ _ _) (fun _ => evexBody_raised)
  | vcvtpd2dqEvex256 => exact outcome_next h (evex _ _ _ _ _ _ _ _) (fun _ => evexBody_raised)
  | vcvtpd2dqEvex512 => exact outcome_next h (evex _ _ _ _ _ _ _ _) (fun _ => evexBody_raised)
  | vcvtpd2dqEvex512Er => exact outcome_next h (evex _ _ _ _ _ _ _ _) (fun _ => evexBody_raised)
  | vcvtpd2dqReservedLength =>
    refine outcome_next h (fun u hu => ?_) (fun u hu => ?_) <;>
      simp only [State.undefinedEncoding] at hu <;> split at hu
    · cases hu
    · cases hu
    · cases hu
    · cases hu; exact Raised.of_plain rfl rfl

/-- No meaning ends in a fault. -/
theorem exec_ne_fault (i : Instr) (s : State) (f : Fault) : exec i s ≠ .fault f := by
  cases i <;> exact Eff.outcome_ne_fault _ f

/-! ## Fetch and step -/

theorem fetchInstr_raised {s t : State} (h : s.fetchInstr = .raise t) : Raised s t := by
  unfold State.fetchInstr at h
  split at h
  · cases h
  · rw [Eff.andThen_eq_raise] at h
    rcases h with h | ⟨_, -, h⟩
    · obtain ⟨e, c, a, ht, hw, -⟩ := State.memCheck_eq_raise h
      exact Raised.of_plain ht hw
    · split at h
      · cases h
      · split at h
        · rw [Eff.andThen_eq_raise] at h
          rcases h with h | ⟨_, -, h⟩
          · obtain ⟨e, c, a, ht, hw, -⟩ := State.memCheck_eq_raise h
            exact Raised.of_plain ht hw
          · cases h
        · cases h

/-- Everything a step can do. -/
theorem step_next {s t : State} (h : step s = .next t) :
    s.trap = none ∧ (Wrote s t ∨ Raised s t) := by
  unfold step at h
  split at h
  · cases h
  · rename_i hn
    refine ⟨hn, ?_⟩
    split at h
    · exact exec_next h
    · rename_i u hu
      cases h
      exact .inr (fetchInstr_raised hu)
    · cases h

end Sys2Proof.Machine
end

