-- ==== Sys2Proof/Laws/Operands.lean ====
section
/-! SUPPORT. Doublewords of a vector register: packing results, and writing a register. -/

namespace Sys2Proof.Machine

theorem getLsbD_dwordOf (v : Vec) (j b : Nat) :
    (dwordOf v j).getLsbD b = (decide (b < 32) && v.getLsbD (32 * j + b)) := by
  simp [dwordOf, BitVec.getLsbD_extractLsb']

/-- Bit `b` of packed doublewords is bit `b % 32` of doubleword `b / 32`. -/
theorem getLsbD_packDwords (kl : Nat) (r : Nat → Dword) (b : Nat) (hk : kl ≤ 16) :
    (packDwords kl r).getLsbD b = (decide (b / 32 < kl) && (r (b / 32)).getLsbD (b % 32)) := by
  have general : ∀ l : List Nat, (∀ j ∈ l, j < 16) →
      (l.foldr (fun j acc => acc ||| (r j).setWidth 512 <<< (32 * j)) (0#512)).getLsbD b =
        (decide (b / 32 ∈ l) && (r (b / 32)).getLsbD (b % 32)) := by
    intro l hl
    induction l with
    | nil => simp
    | cons j l ih =>
      have hj := hl j (by simp)
      rw [List.foldr_cons, BitVec.getLsbD_or, ih fun k hk => hl k (by simp [hk]),
        BitVec.getLsbD_shiftLeft, BitVec.getLsbD_setWidth]
      by_cases hb : b / 32 = j
      · have h1 : b < 512 := by omega
        have h2 : ¬ b < 32 * j := by omega
        have h3 : b - 32 * j = b % 32 := by omega
        have h4 : b % 32 < 512 := by omega
        simp [hb, h1, h2, h3, h4]
      · by_cases h2 : b < 32 * j
        · simp [h2, hb]
        · have h3 : (r j).getLsbD (b - 32 * j) = false := BitVec.getLsbD_of_ge _ _ (by omega)
          simp [hb, h3]
  rw [packDwords, general _ fun j hj => by rw [List.mem_range] at hj; omega]
  simp

/-- Doubleword `j` of packed results (43_evex_forms.md R130). -/
theorem dwordOf_packDwords (kl : Nat) (r : Nat → Dword) (j : Nat) (hk : kl ≤ 16) :
    dwordOf (packDwords kl r) j = if j < kl then r j else 0#32 := by
  apply BitVec.eq_of_getLsbD_eq
  intro b hb
  have h1 : (32 * j + b) / 32 = j := by omega
  have h2 : (32 * j + b) % 32 = b := by omega
  rw [getLsbD_dwordOf, getLsbD_packDwords _ _ _ hk, h1, h2]
  split <;> simp_all

theorem MaxVl.getLsbD_mask (m : MaxVl) (b : Nat) :
    (MaxVl.mask m).getLsbD b = decide (b < m.bits) := by
  rw [Bool.eq_iff_iff, decide_eq_true_iff]
  cases m <;> simp only [MaxVl.mask, MaxVl.bits, BitVec.getLsbD_setWidth, BitVec.getLsbD_allOnes,
    Bool.and_eq_true, decide_eq_true_iff]
  all_goals omega

/-- Doubleword `j` of a written register: the value's below MAXVL, the old one above (00_scope.md R7). -/
theorem dwordOf_writeZmm (s : State) (d : BitVec 5) (v : Vec) (j : Nat) :
    dwordOf ((s.writeZmm d v).readZmm d) j =
      if 32 * j < s.cfg.maxvl.bits then dwordOf v j else dwordOf (s.readZmm d) j := by
  apply BitVec.eq_of_getLsbD_eq
  intro b hb
  have hm : ∀ m : MaxVl, 32 * j + b < m.bits ↔ 32 * j < m.bits := by
    intro m; cases m <;> simp [MaxVl.bits] <;> omega
  rw [getLsbD_dwordOf, State.readZmm_writeZmm, if_pos rfl, BitVec.getLsbD_or, BitVec.getLsbD_and,
    BitVec.getLsbD_and, BitVec.getLsbD_not, MaxVl.getLsbD_mask]
  simp only [hm]
  split <;> rename_i h <;> rw [getLsbD_dwordOf] <;> simp only [h, hb, decide_true, decide_false,
    Bool.true_and, Bool.and_true, Bool.and_false, Bool.not_true, Bool.not_false, Bool.or_false,
    Bool.false_or]
  by_cases h5 : 32 * j + b < 512
  · simp [h5]
  · simp [h5, BitVec.getLsbD_of_ge _ _ (Nat.le_of_not_lt h5)]

/-- Form F1 keeps the destination from doubleword 4 on (41_sse_form.md R120). -/
theorem dwordOf_legacy (old : Vec) (r : Nat → Dword) (j : Nat) :
    dwordOf (old &&& ~~~((BitVec.allOnes 128).setWidth 512) ||| packDwords 2 r) j =
      if j < 2 then r j else if j < 4 then 0#32 else dwordOf old j := by
  apply BitVec.eq_of_getLsbD_eq
  intro b hb
  have h1 : (32 * j + b) / 32 = j := by omega
  have h2 : (32 * j + b) % 32 = b := by omega
  rw [getLsbD_dwordOf, BitVec.getLsbD_or, BitVec.getLsbD_and, BitVec.getLsbD_not,
    getLsbD_packDwords _ _ _ (by omega), h1, h2, BitVec.getLsbD_setWidth, BitVec.getLsbD_allOnes]
  by_cases hj : j < 2
  · have h3 : 32 * j + b < 128 := by omega
    have h4 : 32 * j + b < 512 := by omega
    simp [hj, h3, h4, hb]
  · by_cases hj4 : j < 4
    · have h3 : 32 * j + b < 128 := by omega
      have h4 : 32 * j + b < 512 := by omega
      simp [hj, hj4, h3, h4]
    · have h3 : ¬ 32 * j + b < 128 := by omega
      simp only [hj, hj4, if_false]
      rw [getLsbD_dwordOf]
      by_cases h4 : 32 * j + b < 512
      · simp [h3, h4, hb]
      · simp [h3, BitVec.getLsbD_of_ge _ _ (Nat.le_of_not_lt h4)]

end Sys2Proof.Machine
end

