-- ==== Sys2Proof/Laws/PerInstr.lean ====
section
/-! SUPPORT. Statements about every instruction as syntax, one lemma per constructor. -/

namespace Sys2Proof.Laws

/-- The encoder writes `ilen` bytes (30_encoding.md R85). -/
def EncodedLength.Statement (i : Instr) : Prop := (encode i).length = i.ilen

theorem EncodedLength.cvtpd2dq (ps : List Prefix) (reg : BitVec 3) (rm : RmOperand) :
    EncodedLength.Statement (.cvtpd2dq ps reg rm) := by
  simp [EncodedLength.Statement, encode, Instr.ilen, encodeOperands_length]; omega

theorem EncodedLength.cvtpd2dqRex (ps : List Prefix) (rex : Rex) (reg : BitVec 3) (rm : RmOperand) :
    EncodedLength.Statement (.cvtpd2dqRex ps rex reg rm) := by
  simp [EncodedLength.Statement, encode, Instr.ilen, encodeOperands_length]; omega

theorem EncodedLength.vcvtpd2dqVex128C5 (pre : VexPrelude) (v : Vex2) (reg : BitVec 3)
    (rm : RmOperand) : EncodedLength.Statement (.vcvtpd2dqVex128C5 pre v reg rm) := by
  simp [EncodedLength.Statement, encode, Instr.ilen, encodeOperands_length, pre.bytes_length,
    Vex2.bytes]; omega

theorem EncodedLength.vcvtpd2dqVex128C4 (pre : VexPrelude) (v : Vex3) (reg : BitVec 3)
    (rm : RmOperand) : EncodedLength.Statement (.vcvtpd2dqVex128C4 pre v reg rm) := by
  simp [EncodedLength.Statement, encode, Instr.ilen, encodeOperands_length, pre.bytes_length,
    Vex3.bytes]; omega

theorem EncodedLength.vcvtpd2dqVex256C5 (pre : VexPrelude) (v : Vex2) (reg : BitVec 3)
    (rm : RmOperand) : EncodedLength.Statement (.vcvtpd2dqVex256C5 pre v reg rm) := by
  simp [EncodedLength.Statement, encode, Instr.ilen, encodeOperands_length, pre.bytes_length,
    Vex2.bytes]; omega

theorem EncodedLength.vcvtpd2dqVex256C4 (pre : VexPrelude) (v : Vex3) (reg : BitVec 3)
    (rm : RmOperand) : EncodedLength.Statement (.vcvtpd2dqVex256C4 pre v reg rm) := by
  simp [EncodedLength.Statement, encode, Instr.ilen, encodeOperands_length, pre.bytes_length,
    Vex3.bytes]; omega

theorem EncodedLength.vcvtpd2dqEvex128 (pre : VexPrelude) (e : Evex) (bc : Bool) (reg : BitVec 3)
    (rm : RmOperand) : EncodedLength.Statement (.vcvtpd2dqEvex128 pre e bc reg rm) := by
  simp [EncodedLength.Statement, encode, Instr.ilen, encodeOperands_length, pre.bytes_length,
    Evex.bytes]; omega

theorem EncodedLength.vcvtpd2dqEvex256 (pre : VexPrelude) (e : Evex) (bc : Bool) (reg : BitVec 3)
    (rm : RmOperand) : EncodedLength.Statement (.vcvtpd2dqEvex256 pre e bc reg rm) := by
  simp [EncodedLength.Statement, encode, Instr.ilen, encodeOperands_length, pre.bytes_length,
    Evex.bytes]; omega

theorem EncodedLength.vcvtpd2dqEvex512 (pre : VexPrelude) (e : Evex) (bc : Bool) (reg : BitVec 3)
    (rm : RmOperand) : EncodedLength.Statement (.vcvtpd2dqEvex512 pre e bc reg rm) := by
  simp [EncodedLength.Statement, encode, Instr.ilen, encodeOperands_length, pre.bytes_length,
    Evex.bytes]; omega

theorem EncodedLength.vcvtpd2dqEvex512Er (pre : VexPrelude) (e : Evex) (rc : RoundingMode)
    (reg : BitVec 3) (rm : BitVec 3) :
    EncodedLength.Statement (.vcvtpd2dqEvex512Er pre e rc reg rm) := by
  simp [EncodedLength.Statement, encode, Instr.ilen, encodeOperands_length, pre.bytes_length,
    Evex.bytes, RmOperand.length]

theorem EncodedLength.vcvtpd2dqReservedLength (pre : VexPrelude) (e : Evex) (bc : Bool)
    (reg : BitVec 3) (rm : RmOperand) :
    EncodedLength.Statement (.vcvtpd2dqReservedLength pre e bc reg rm) := by
  simp [EncodedLength.Statement, encode, Instr.ilen, encodeOperands_length, pre.bytes_length,
    Evex.bytes]; omega

end Sys2Proof.Laws
end

