-- ==== Sys2Proof/Laws/Shape.lean ====
section
/-! SUPPORT. The one shape every instruction with a form has: the prologue, the source, the response, the write
(60_exceptions.md R149, 41_sse_form.md R120, 42_vex_forms.md R125, 43_evex_forms.md R138). -/

namespace Sys2Proof.Machine

/-- What stands before VEX or EVEX, in the words of 30_encoding.md R80. -/
theorem VexPrelude.isUD_eq (pre : VexPrelude) :
    VexPrelude.isUD pre =
      (!pre.prefixes.all (fun p => p.isSeg || p == .addrSize) || pre.rex.isSome) := by
  unfold VexPrelude.isUD
  congr 1
  rw [Bool.eq_iff_iff]
  simp only [List.any_eq_true, Bool.not_eq_true', List.all_eq_false]
  constructor <;> rintro ⟨p, hp, h⟩ <;> exact ⟨p, hp, by cases p <;> simp_all [Prefix.isSeg]⟩

/-- What follows the read of the source depends on its elements alone. -/
theorem loadSource_andThen {α : Type} (s : State) (c : SourceCtx) (rm : RmOperand)
    (f : (Nat → Qword) → Eff α) :
    (s.loadSource c rm).andThen f = (s.loadSource c rm).andThen fun _ => f (s.sourceElement c rm) := by
  cases rm with
  | reg n => rfl
  | mem a =>
    simp only [State.loadSource]
    cases s.checkOperand c a <;> rfl

/-- An instruction with a form: what it does, with the flags of its enabled elements. -/
theorem exec_shape {i : Instr} {s : State} {c : SourceCtx} {rm : RmOperand}
    (h : i.sourceCtx s = some (c, rm)) :
    ∃ (fl : FpFlags) (d : BitVec 5) (v : Vec),
      i.form? = some c.form ∧ i.destReg = some d ∧
      exec i s = ((s.prologue c.form i.reservedEncoding).andThen fun _ =>
        (s.loadSource c rm).andThen fun _ =>
        (if i.isEr then .ok s else s.exceptionResponse fl).andThen fun s' =>
        .ok ((s'.writeZmm d v).advance i.ilen)).outcome ∧
      (i.isEr = false →
        (fl.ie = true ↔ AnyIe c.form.kl c.enabled (s.lane c rm s.rc)) ∧
        (fl.pe = true ↔ AnyPe c.form.kl c.enabled (s.lane c rm s.rc))) := by
  have every : ∀ (kl : Nat) (lane : Nat → Dword × FpFlags),
      ((flagsOf kl lane).ie = true ↔ AnyIe kl (fun _ => true) lane) ∧
      ((flagsOf kl lane).pe = true ↔ AnyPe kl (fun _ => true) lane) := by
    intro kl lane
    rw [flagsOf_ie, flagsOf_pe]
    simp [AnyIe, AnyPe]
  have some' : ∀ (kl : Nat) (en : Nat → Bool) (lane : Nat → Dword × FpFlags),
      ((flagsOf kl fun j => if en j then lane j else (0#32, FpFlags.none)).ie = true ↔
        AnyIe kl en lane) ∧
      ((flagsOf kl fun j => if en j then lane j else (0#32, FpFlags.none)).pe = true ↔
        AnyPe kl en lane) := by
    intro kl en lane
    rw [flagsOf_ie, flagsOf_pe]
    constructor <;> refine exists_congr fun j => and_congr_right fun _ => ?_ <;>
      cases en j <;> simp [FpFlags.none]
  have legacy : ∀ ps ext n reg rm, ∃ fl v,
      (legacyBody ps ext n reg rm s) =
        ((s.prologue .f1 (ps.contains .lock)).andThen fun _ =>
        (s.loadSource ⟨.f1, ext, ps, n, false, fun _ => true⟩ rm).andThen fun _ =>
        (s.exceptionResponse fl).andThen fun s' => .ok ((s'.writeZmm (ext.dest reg) v).advance n)) ∧
      (fl.ie = true ↔ AnyIe 2 (fun _ => true)
        (s.lane ⟨.f1, ext, ps, n, false, fun _ => true⟩ rm s.rc)) ∧
      (fl.pe = true ↔ AnyPe 2 (fun _ => true)
        (s.lane ⟨.f1, ext, ps, n, false, fun _ => true⟩ rm s.rc)) := by
    intro ps ext n reg rm
    exact ⟨_, _, by rw [legacyBody, loadSource_andThen]; rfl, every _ _⟩
  have vex : ∀ f pre vv ext n reg rm, ∃ fl v,
      (vexBody f pre vv ext n reg rm s) =
        ((s.prologue f (!pre.prefixes.all (fun p => p.isSeg || p == .addrSize) || pre.rex.isSome ||
          vv != 15#4)).andThen fun _ =>
        (s.loadSource ⟨f, ext, pre.prefixes, n, false, fun _ => true⟩ rm).andThen fun _ =>
        (s.exceptionResponse fl).andThen fun s' => .ok ((s'.writeZmm (ext.dest reg) v).advance n)) ∧
      (fl.ie = true ↔ AnyIe f.kl (fun _ => true)
        (s.lane ⟨f, ext, pre.prefixes, n, false, fun _ => true⟩ rm s.rc)) ∧
      (fl.pe = true ↔ AnyPe f.kl (fun _ => true)
        (s.lane ⟨f, ext, pre.prefixes, n, false, fun _ => true⟩ rm s.rc)) := by
    intro f pre vv ext n reg rm
    exact ⟨_, _, by rw [vexBody, loadSource_andThen, VexPrelude.isUD_eq]; rfl, every _ _⟩
  have evex : ∀ f pre e bc n reg rm, ∃ fl v,
      (evexBody f pre e bc none n reg rm s) =
        ((s.prologue f (!pre.prefixes.all (fun p => p.isSeg || p == .addrSize) || pre.rex.isSome ||
          e.vvvv != 15#4 || e.vHi || (e.z && e.aaa == 0#3) || !e.w)).andThen fun _ =>
        (s.loadSource ⟨f, Ext.ofEvex e, pre.prefixes, n, bc, s.laneEnabled e.aaa⟩ rm).andThen fun _ =>
        (s.exceptionResponse fl).andThen fun s' =>
        .ok ((s'.writeZmm ((Ext.ofEvex e).dest reg) v).advance n)) ∧
      (fl.ie = true ↔ AnyIe f.kl (s.laneEnabled e.aaa)
        (s.lane ⟨f, Ext.ofEvex e, pre.prefixes, n, bc, s.laneEnabled e.aaa⟩ rm s.rc)) ∧
      (fl.pe = true ↔ AnyPe f.kl (s.laneEnabled e.aaa)
        (s.lane ⟨f, Ext.ofEvex e, pre.prefixes, n, bc, s.laneEnabled e.aaa⟩ rm s.rc)) := by
    intro f pre e bc n reg rm
    exact ⟨_, _, by rw [evexBody, loadSource_andThen, evexEncodingUD, VexPrelude.isUD_eq]; rfl,
      some' _ _ _⟩
  have er : ∀ f pre e rc n reg rm, ∃ v,
      (evexBody f pre e false (some rc) n reg rm s) =
        ((s.prologue f (!pre.prefixes.all (fun p => p.isSeg || p == .addrSize) || pre.rex.isSome ||
          e.vvvv != 15#4 || e.vHi || (e.z && e.aaa == 0#3) || !e.w)).andThen fun _ =>
        (s.loadSource ⟨f, Ext.ofEvex e, pre.prefixes, n, false, s.laneEnabled e.aaa⟩ rm).andThen fun _ =>
        (Eff.ok s).andThen fun s' =>
        .ok ((s'.writeZmm ((Ext.ofEvex e).dest reg) v).advance n)) := by
    intro f pre e rc n reg rm
    exact ⟨_, by rw [evexBody, loadSource_andThen, evexEncodingUD, VexPrelude.isUD_eq]; rfl⟩
  cases i with
  | cvtpd2dq ps reg rm =>
    obtain ⟨rfl, rfl⟩ := Prod.mk.inj (Option.some.inj h)
    obtain ⟨fl, w, hb, hf⟩ := legacy ps Ext.none _ reg rm
    exact ⟨fl, _, w, rfl, rfl, congrArg Eff.outcome hb, fun _ => hf⟩
  | cvtpd2dqRex ps x reg rm =>
    obtain ⟨rfl, rfl⟩ := Prod.mk.inj (Option.some.inj h)
    obtain ⟨fl, w, hb, hf⟩ := legacy ps (Ext.ofRex x) _ reg rm
    exact ⟨fl, _, w, rfl, rfl, congrArg Eff.outcome hb, fun _ => hf⟩
  | vcvtpd2dqVex128C5 pre v reg rm =>
    obtain ⟨rfl, rfl⟩ := Prod.mk.inj (Option.some.inj h)
    obtain ⟨fl, w, hb, hf⟩ := vex .f2 pre v.vvvv (Ext.ofVex2 v) _ reg rm
    exact ⟨fl, _, w, rfl, rfl, congrArg Eff.outcome hb, fun _ => hf⟩
  | vcvtpd2dqVex128C4 pre v reg rm =>
    obtain ⟨rfl, rfl⟩ := Prod.mk.inj (Option.some.inj h)
    obtain ⟨fl, w, hb, hf⟩ := vex .f2 pre v.vvvv (Ext.ofVex3 v) _ reg rm
    exact ⟨fl, _, w, rfl, rfl, congrArg Eff.outcome hb, fun _ => hf⟩
  | vcvtpd2dqVex256C5 pre v reg rm =>
    obtain ⟨rfl, rfl⟩ := Prod.mk.inj (Option.some.inj h)
    obtain ⟨fl, w, hb, hf⟩ := vex .f3 pre v.vvvv (Ext.ofVex2 v) _ reg rm
    exact ⟨fl, _, w, rfl, rfl, congrArg Eff.outcome hb, fun _ => hf⟩
  | vcvtpd2dqVex256C4 pre v reg rm =>
    obtain ⟨rfl, rfl⟩ := Prod.mk.inj (Option.some.inj h)
    obtain ⟨fl, w, hb, hf⟩ := vex .f3 pre v.vvvv (Ext.ofVex3 v) _ reg rm
    exact ⟨fl, _, w, rfl, rfl, congrArg Eff.outcome hb, fun _ => hf⟩
  | vcvtpd2dqEvex128 pre e bc reg rm =>
    obtain ⟨rfl, rfl⟩ := Prod.mk.inj (Option.some.inj h)
    obtain ⟨fl, w, hb, hf⟩ := evex .f4 pre e bc _ reg rm
    exact ⟨fl, _, w, rfl, rfl, congrArg Eff.outcome hb, fun _ => hf⟩
  | vcvtpd2dqEvex256 pre e bc reg rm =>
    obtain ⟨rfl, rfl⟩ := Prod.mk.inj (Option.some.inj h)
    obtain ⟨fl, w, hb, hf⟩ := evex .f5 pre e bc _ reg rm
    exact ⟨fl, _, w, rfl, rfl, congrArg Eff.outcome hb, fun _ => hf⟩
  | vcvtpd2dqEvex512 pre e bc reg rm =>
    obtain ⟨rfl, rfl⟩ := Prod.mk.inj (Option.some.inj h)
    obtain ⟨fl, w, hb, hf⟩ := evex .f6 pre e bc _ reg rm
    exact ⟨fl, _, w, rfl, rfl, congrArg Eff.outcome hb, fun _ => hf⟩
  | vcvtpd2dqEvex512Er pre e rc reg n =>
    obtain ⟨rfl, rfl⟩ := Prod.mk.inj (Option.some.inj h)
    obtain ⟨w, hb⟩ := er .f6 pre e rc _ reg (.reg n)
    exact ⟨FpFlags.none, _, w, rfl, rfl, congrArg Eff.outcome hb, fun h => by cases h⟩
  | vcvtpd2dqReservedLength => cases h

end Sys2Proof.Machine
end

