-- ==== Sys2Proof/Tests/Slice0.lean ====
section
/-! SUPPORT. The model's own tests: ill-formed terms that WellFormed refuses, words written out from the spec's
encodings, single steps from 95_test_vectors.md (each test names its vector), and for every statement with
hypotheses a state and operands that meet all of them. -/

namespace Sys2Proof.Tests

-- One theorem at a time: each kernel evaluation takes a thread of its own, and the check limits their memory.
set_option Elab.async false

open Sys2Proof Sys2Proof.Machine

/-! ## Helpers -/

/-- The setting of 95_test_vectors.md: every form enabled, MXCSR 1F80H. -/
def ready : State :=
  { State.reset with
    mode := .mode64, ip := 0x401000#64, cr0 := 0x31#64, cr4 := 0x40600#64, xcr0 := 0xE7#64 }

def ready32 : State := { ready with mode := .mode32, segBase := { ready.segBase with cs := 0#64 } }

def bytes (l : List Nat) : List Byte := l.map (BitVec.ofNat 8)

/-- A state with the bytes at the fetch address. -/
def withCode (s : State) (l : List Nat) : State := s.writeBytes s.fetchAddr 0 (bytes l)

def withZmm (s : State) (n : Nat) (v : Vec) : State :=
  { s with zmm := s.zmm.setIfInBounds n v }

def withGpr (s : State) (n : Nat) (v : Qword) : State :=
  { s with gpr := s.gpr.setIfInBounds n v }

def withK (s : State) (n : Nat) (v : Qword) : State :=
  { s with k := s.k.setIfInBounds n v }

/-- Quadwords, element 0 first. -/
def vec (l : List Qword) : Vec := l.foldr (fun q acc => acc <<< 64 ||| q.setWidth 512) 0#512

def withMem (s : State) (a : Qword) (l : List Qword) : State :=
  s.writeBytes a 0 (l.flatMap fun q => (List.range 8).map fun i => q.extractLsb' (8 * i) 8)

def withPages (s : State) (l : List PageRule) : State := { s with prot := { s.prot with pages := l } }
def withSegments (s : State) (l : List SegmentRule) : State :=
  { s with prot := { s.prot with segments := l } }
def withAccesses (s : State) (l : List AccessRule) : State :=
  { s with prot := { s.prot with accesses := l } }
def withDevices (s : State) (l : List DeviceRule) : State :=
  { s with prot := { s.prot with devices := l } }

def nextOf (o : Host.Outcome State Fault Refusal) : Option State :=
  match o with
  | .next s => some s
  | .fault _ => none
  | .refused _ => none

def refusalOf (o : Host.Outcome State Fault Refusal) : Option Refusal :=
  match o with
  | .next _ => none
  | .fault _ => none
  | .refused r => some r

/-- A next state with a decidable property. -/
theorem exists_next {o : Host.Outcome State Fault Refusal} (p : State → Bool)
    (h : (nextOf o).any p = true) : ∃ t, o = .next t ∧ p t = true := by
  cases o with
  | next s => exact ⟨s, rfl, h⟩
  | fault _ => cases h
  | refused _ => cases h

theorem exists_refused {o : Host.Outcome State Fault Refusal} (h : (refusalOf o).isSome = true) :
    ∃ r, o = .refused r := by
  cases o with
  | next _ => cases h
  | fault _ => cases h
  | refused r => exact ⟨r, rfl⟩

/-- What the step leaves in register `n` (its low `w` bits) and in MXCSR, `ip` and the trap. -/
def leaves (s : State) (n : BitVec 5) (w : Nat) : Option (BitVec w × Dword × Qword × Option Trap) :=
  (nextOf (step s)).map fun t => ((t.readZmm n).setWidth w, t.mxcsr, t.ip, t.trap)

def ones : Vec := BitVec.allOnes 512
def evex0 : Evex := ⟨false, false, false, false, true, 15#4, false, false, 0#3⟩
def plain : VexPrelude := ⟨[], none⟩
def rax : Address := .base 0#3 .none
def xmm2 : RmOperand := .reg 2#3

/-! ## WellFormed: an ill-formed term for each check -/

theorem test_wf_other_mode : (Instr.cvtpd2dq [] 1#3 xmm2).wf (.other .code16) = false := by decide
theorem test_wf_repeated_prefix :
    (Instr.cvtpd2dq [.addrSize, .addrSize] 1#3 xmm2).wf .mode64 = false := by decide
theorem test_wf_two_segments :
    (Instr.vcvtpd2dqVex128C5 ⟨[.seg .fs, .seg .gs], none⟩ ⟨false, 15#4⟩ 1#3 xmm2).wf .mode64 = false := by
  decide
theorem test_wf_legacy_opsize : (Instr.cvtpd2dq [.opSize] 1#3 xmm2).wf .mode64 = false := by decide
theorem test_wf_addr16 : (Instr.cvtpd2dq [.addrSize] 1#3 xmm2).wf .mode32 = false := by decide
theorem test_wf_rex_mode32 :
    (Instr.cvtpd2dqRex [] ⟨false, false, false, false⟩ 1#3 xmm2).wf .mode32 = false := by decide
theorem test_wf_rex_before_vex_mode32 :
    (Instr.vcvtpd2dqVex128C5 ⟨[], some ⟨false, false, false, false⟩⟩ ⟨false, 15#4⟩ 1#3 xmm2).wf .mode32 =
      false := by decide
theorem test_wf_vex2_mode32_r :
    (Instr.vcvtpd2dqVex256C5 plain ⟨true, 15#4⟩ 1#3 xmm2).wf .mode32 = false := by decide
theorem test_wf_vex2_mode32_vvvv :
    (Instr.vcvtpd2dqVex256C5 plain ⟨false, 7#4⟩ 1#3 xmm2).wf .mode32 = false := by decide
theorem test_wf_vex3_mode32 :
    (Instr.vcvtpd2dqVex128C4 plain ⟨false, false, true, false, 15#4⟩ 1#3 xmm2).wf .mode32 = false := by
  decide
theorem test_wf_evex_mode32 :
    (Instr.vcvtpd2dqEvex512 plain { evex0 with vHi := true } false 1#3 xmm2).wf .mode32 = false := by decide
theorem test_wf_base_escape_sib :
    (Instr.cvtpd2dq [] 1#3 (.mem (.base 4#3 (.d8 0#8)))).wf .mode64 = false := by decide
theorem test_wf_base_escape_disp32 :
    (Instr.cvtpd2dq [] 1#3 (.mem (.base 5#3 .none))).wf .mode64 = false := by decide
theorem test_wf_sib_base_escape :
    (Instr.cvtpd2dq [] 1#3 (.mem (.sib 0#2 0#3 5#3 .none))).wf .mode64 = false := by decide
theorem test_wf_broadcast_register :
    (Instr.vcvtpd2dqEvex128 plain evex0 true 1#3 xmm2).wf .mode64 = false := by decide
theorem test_wf_reserved_length_broadcast_register :
    (Instr.vcvtpd2dqReservedLength plain evex0 true 1#3 xmm2).wf .mode64 = false := by decide

/-! ## Decoding (95_test_vectors.md, section 4.1): every constructor, and the refusals -/

/-- D-DEC-4. -/
theorem test_decode_row1_sib : decode .mode64 (bytes [0xF2, 0x0F, 0xE6, 0x4C, 0x8B, 0x10]) =
    .ok (.cvtpd2dq [] 1#3 (.mem (.sib 2#2 1#3 3#3 (.d8 0x10#8))), []) := by decide +kernel
/-- D-DEC-3. -/
theorem test_decode_row2 : decode .mode64 (bytes [0xF2, 0x48, 0x0F, 0xE6, 0xCA]) =
    .ok (.cvtpd2dqRex [] ⟨true, false, false, false⟩ 1#3 xmm2, []) := by decide +kernel
/-- D-DEC-13. -/
theorem test_decode_row3_disp32 :
    decode .mode64 (bytes [0xC5, 0xFB, 0xE6, 0x88, 0x78, 0x56, 0x34, 0x12]) =
      .ok (.vcvtpd2dqVex128C5 plain ⟨false, 15#4⟩ 1#3 (.mem (.base 0#3 (.d32 0x12345678#32))), []) := by
  decide +kernel
/-- D-DEC-10. -/
theorem test_decode_row4 : decode .mode64 (bytes [0xC4, 0xA1, 0x7B, 0xE6, 0x0C, 0x20]) =
    .ok (.vcvtpd2dqVex128C4 plain ⟨false, true, false, false, 15#4⟩ 1#3
      (.mem (.sib 0#2 4#3 0#3 .none)), []) := by decide +kernel
/-- D-DEC-8. -/
theorem test_decode_row5 : decode .mode64 (bytes [0xC5, 0xFF, 0xE6, 0xCA]) =
    .ok (.vcvtpd2dqVex256C5 plain ⟨false, 15#4⟩ 1#3 xmm2, []) := by decide +kernel
/-- D-DEC-9. -/
theorem test_decode_row6 : decode .mode64 (bytes [0xC4, 0x41, 0x7F, 0xE6, 0x08]) =
    .ok (.vcvtpd2dqVex256C4 plain ⟨true, false, true, false, 15#4⟩ 1#3 (.mem rax), []) := by
  decide +kernel
/-- D-F4-7 and D-F4-5. -/
theorem test_decode_row7 :
    decode .mode64 (bytes [0x62, 0xE1, 0xFF, 0x08, 0xE6, 0xCA]) =
      .ok (.vcvtpd2dqEvex128 plain { evex0 with rHi := true } false 1#3 xmm2, []) ∧
    decode .mode64 (bytes [0x62, 0xF1, 0xFF, 0x1B, 0xE6, 0x48, 0x01]) =
      .ok (.vcvtpd2dqEvex128 plain { evex0 with aaa := 3#3 } true 1#3
        (.mem (.base 0#3 (.d8 1#8))), []) := by decide +kernel
/-- D-F5-1. -/
theorem test_decode_row8 : decode .mode64 (bytes [0x62, 0xF1, 0xFF, 0xA9, 0xE6, 0xCA]) =
    .ok (.vcvtpd2dqEvex256 plain { evex0 with z := true, aaa := 1#3 } false 1#3 xmm2, []) := by
  decide +kernel
/-- D-F6-9. -/
theorem test_decode_row9 : decode .mode64 (bytes [0x62, 0x01, 0xFF, 0xCF, 0xE6, 0xCE]) =
    .ok (.vcvtpd2dqEvex512 plain ⟨true, true, true, true, true, 15#4, true, false, 7#3⟩ false 1#3
      (.reg 6#3), []) := by decide +kernel
/-- D-ER-2. -/
theorem test_decode_row10 : decode .mode64 (bytes [0x62, 0xF1, 0xFF, 0x38, 0xE6, 0xCA]) =
    .ok (.vcvtpd2dqEvex512Er plain evex0 .rd 1#3 2#3, []) := by decide +kernel
/-- D-DEC-19. -/
theorem test_decode_row11 : decode .mode64 (bytes [0x62, 0xF1, 0xFF, 0x78, 0xE6, 0x08]) =
    .ok (.vcvtpd2dqReservedLength plain evex0 true 1#3 (.mem rax), []) := by decide +kernel
/-- D-DEC-24, 27 and 28: refused. -/
theorem test_decode_refused :
    ([[0x62, 0xF9, 0xFF, 0x48, 0xE6, 0xCA], [0x62, 0xF5, 0xFF, 0x48, 0xE6, 0xCA],
      [0x62, 0xF1, 0xFB, 0x48, 0xE6, 0xCA], [0x66, 0xF2, 0x0F, 0xE6, 0xCA],
      [0xF2, 0x66, 0x0F, 0xE6, 0xCA], [0xF3, 0xF2, 0x0F, 0xE6, 0xCA], [0xF2, 0xF3, 0x0F, 0xE6, 0xCA],
      [0x41, 0xF2, 0x0F, 0xE6, 0xCA], [0x0F, 0xE6, 0xCA], [0x66, 0x0F, 0xE6, 0xCA],
      [0xF3, 0x0F, 0xE6, 0xCA]].all fun l => !(decode .mode64 (bytes l)).isOk) = true := by
  decide +kernel
/-- D-DEC-29 and 30, Mode32. -/
theorem test_decode_mode32 :
    decode .mode32 (bytes [0x62, 0xF1, 0xFF, 0x48, 0xE6, 0xCA]) =
      .ok (.vcvtpd2dqEvex512 plain evex0 false 1#3 xmm2, []) ∧
    decode .mode32 (bytes [0x62, 0x31, 0xFF, 0x48, 0xE6, 0xCA]) = .error .mode32OtherInstruction ∧
    decode .mode32 (bytes [0xF2, 0x0F, 0xE6, 0x05, 0x00, 0x10, 0x00, 0x00]) =
      .ok (.cvtpd2dq [] 0#3 (.mem (.disp32 0x1000#32)), []) := by decide +kernel
/-- The numbering of spec/opcode_table.json: the first byte is the least significant. -/
theorem test_table_word : decodeTableWord 32 0xCAE60FF2 = some (.cvtpd2dq [] 1#3 xmm2) := by
  decide +kernel

/-! ## Single steps (95_test_vectors.md, sections 3 and 4.2) -/

/-- D-F1-10: little-endian memory source, the upper bits kept. -/
theorem test_row1_memory :
    leaves (withCode (withMem (withGpr (withZmm ready 1 ones) 0 0x1000#64) 0x1000#64
        [0x3FF8000000000000#64, 0xC004000000000000#64]) [0xF2, 0x0F, 0xE6, 0x08]) 1#5 160 =
      some (0xFFFFFFFF0000000000000000FFFFFFFE00000002#160, 0x1FA0#32, 0x401004#64, none) := by
  decide +kernel
/-- D-F1-11: misaligned, with a NaN and IM = 0. -/
theorem test_row1_misaligned :
    leaves { withCode (withMem (withGpr (withZmm ready 1 ones) 0 0x1008#64) 0x1008#64
        [0x7FF8000000000000#64, 0#64]) [0xF2, 0x0F, 0xE6, 0x08] with mxcsr := 0x1F00#32 } 1#5 512 =
      some (ones, 0x1F00#32, 0x401000#64, some ⟨.gp, .zero⟩) := by decide +kernel
/-- D-F1-9. -/
theorem test_row2 :
    leaves (withCode (withZmm (withZmm ready 9 ones) 10
        (vec [0x4045000000000000#64, 0xBFF0000000000000#64])) [0xF2, 0x45, 0x0F, 0xE6, 0xCA]) 9#5 160 =
      some (0xFFFFFFFF0000000000000000FFFFFFFF0000002A#160, 0x1F80#32, 0x401005#64, none) := by
  decide +kernel
/-- D-F2-1. -/
theorem test_row3 :
    leaves (withCode (withZmm (withZmm ready 1 ones) 2
        (vec [0x3FF8000000000000#64, 0xC01C000000000000#64])) [0xC5, 0xFB, 0xE6, 0xCA]) 1#5 512 =
      some (0xFFFFFFF900000002#512, 0x1FA0#32, 0x401004#64, none) := by decide +kernel
/-- D-XM-2: the masked Invalid is recorded before the unmasked Precision raises. -/
theorem test_row3_precision_trap :
    leaves { withCode (withZmm (withZmm ready 1 ones) 2
        (vec [0x3FF8000000000000#64, 0x7FF8000000000000#64])) [0xC5, 0xFB, 0xE6, 0xCA] with
        mxcsr := 0x0F80#32 } 1#5 512 =
      some (ones, 0x0FA1#32, 0x401000#64, some ⟨.xm, .none⟩) := by decide +kernel
/-- D-F2-2, W = 1. -/
theorem test_row4 :
    leaves (withCode (withZmm (withZmm ready 1 ones) 2
        (vec [0x3FF8000000000000#64, 0xC01C000000000000#64])) [0xC4, 0xE1, 0xFB, 0xE6, 0xCA]) 1#5 512 =
      some (0xFFFFFFF900000002#512, 0x1FA0#32, 0x401005#64, none) := by decide +kernel
/-- D-F3-1. -/
theorem test_row5 :
    leaves (withCode (withZmm (withZmm ready 1 ones) 2
        (vec [0x3FF8000000000000#64, 0xC01C000000000000#64, 0x4058C00000000000#64,
          0xBFE0000000000000#64])) [0xC5, 0xFF, 0xE6, 0xCA]) 1#5 512 =
      some (0x00000063FFFFFFF900000002#512, 0x1FA0#32, 0x401004#64, none) := by decide +kernel
/-- D-F3-2. -/
theorem test_row6 :
    leaves (withCode (withZmm (withZmm ready 1 ones) 10
        (vec [0x3FF0000000000000#64, 0x4000000000000000#64, 0x4008000000000000#64,
          0x4045000000000000#64])) [0xC4, 0xC1, 0x7F, 0xE6, 0xCA]) 1#5 512 =
      some (0x0000002A000000030000000200000001#512, 0x1F80#32, 0x401005#64, none) := by decide +kernel
/-- D-F4-2: merging, the masked-off NaN raises nothing. -/
theorem test_row7_merge :
    leaves (withCode (withK (withZmm (withZmm ready 1 ones) 2
        (vec [0x7FF8000000000000#64, 0x400D99999999999A#64])) 1 2#64)
        [0x62, 0xF1, 0xFF, 0x09, 0xE6, 0xCA]) 1#5 512 =
      some (0x00000004FFFFFFFF#512, 0x1FA0#32, 0x401006#64, none) := by decide +kernel
/-- D-F4-5: broadcast, with a scaled one-byte displacement. -/
theorem test_row7_broadcast :
    leaves (withCode (withMem (withGpr (withK (withZmm ready 1 0x2222222211111111#512) 3 1#64)
        0 0x3000#64) 0x3008#64 [0x4004000000000000#64])
        [0x62, 0xF1, 0xFF, 0x1B, 0xE6, 0x48, 0x01]) 1#5 512 =
      some (0x2222222200000002#512, 0x1FA0#32, 0x401007#64, none) := by decide +kernel
/-- D-F5-1: zeroing. -/
theorem test_row8 :
    leaves (withCode (withK (withZmm ready 2 (vec [0x3FE0000000000000#64, 0x7FF8000000000000#64,
        0x4004000000000000#64, 0x400C000000000000#64])) 1 6#64)
        [0x62, 0xF1, 0xFF, 0xA9, 0xE6, 0xCA]) 1#5 512 =
      some (0x00000000000000028000000000000000#512, 0x1FA1#32, 0x401006#64, none) := by decide +kernel
/-- D-F6-6: the negative one-byte displacement is scaled by 64. -/
theorem test_row9 :
    leaves (withCode (withMem (withGpr ready 0 0x3040#64) 0x3000#64
        [0x3FF0000000000000#64, 0x4000000000000000#64])
        [0x62, 0xF1, 0xFF, 0x48, 0xE6, 0x48, 0xFF]) 1#5 512 =
      some (0x0000000200000001#512, 0x1F80#32, 0x401007#64, none) := by decide +kernel
/-- D-F6-10: the bytes of masked-off elements fault or not by `fault_suppression`. -/
theorem test_row9_suppression :
    let s := withCode (withPages (withMem (withK (withGpr ready 0 0x1000#64) 1 1#64) 0x1000#64
      [0x4004000000000000#64]) [⟨0x1008, 0x103F, true, false, false, true, false, false⟩])
      [0x62, 0xF1, 0xFF, 0x49, 0xE6, 0x08]
    (leaves s 1#5 32 =
      some (0#32, 0x1F80#32, 0x401000#64, some ⟨.pf, .page ⟨false, false, true, false, false, false⟩⟩)) ∧
    leaves { s with cfg := { s.cfg with faultSuppression := true } } 1#5 32 =
      some (2#32, 0x1FA0#32, 0x401006#64, none) := by decide +kernel
/-- D-ER-5: every mask clear, no flag, no trap. -/
theorem test_row10 :
    leaves { withCode (withZmm ready 2 (vec [0x3FE0000000000000#64, 0x7FF8000000000000#64,
        0x4004000000000000#64])) [0x62, 0xF1, 0xFF, 0x18, 0xE6, 0xCA] with mxcsr := 0#32 } 1#5 512 =
      some (0x000000028000000000000000#512, 0#32, 0x401006#64, none) := by decide +kernel
/-- D-DEC-18. -/
theorem test_row11 :
    leaves (withCode (withZmm ready 1 ones) [0x62, 0xF1, 0xFF, 0x68, 0xE6, 0xCA]) 1#5 512 =
      some (ones, 0x1F80#32, 0x401000#64, some ⟨.ud, .none⟩) := by decide +kernel
/-- D-PRI-5: a non-canonical address through SS. -/
theorem test_stack_segment :
    (leaves (withCode (withGpr ready 4 0x0000800000000000#64) [0xC5, 0xFB, 0xE6, 0x0C, 0x24]) 1#5 1).map
      (fun x => x.2.2.2) = some (some ⟨.ss, .zero⟩) := by decide +kernel

/-- 20_memory.md R48: a code segment that may be fetched from and not read, as data through a CS override. -/
theorem test_execute_only_code_segment :
    (leaves (withCode (withSegments (withGpr ready32 0 0x1000#64)
        [⟨.cs, 0, 0xFFFFFFFF, true, false, .unusable⟩]) [0x2E, 0xC5, 0xFB, 0xE6, 0x08]) 1#5 1).map
      (fun x => x.2.2.2) = some (some ⟨.gp, .zero⟩) := by decide +kernel
/-- 20_memory.md R48: an access of 16 bytes that is refused as a whole, because it wraps at 2^32. -/
theorem test_whole_access_refused :
    (leaves (withCode (withAccesses (withGpr ready32 0 0xFFFFFFF8#64)
        [⟨false, .ds, 0xFFFFFFF8#64, 0xFFFFFFF8#64, 16, .segment .bounds⟩]) [0xC5, 0xFB, 0xE6, 0x08])
      1#5 1).map (fun x => x.2.2.2) = some (some ⟨.gp, .zero⟩) := by decide +kernel

/-- 10_state.md R26: a code segment's limit that the whole instruction straddles is refused, and no #GP(0). -/
theorem test_whole_fetch_straddles_limit :
    refusalOf (step (withAccesses (withCode ready32 [0xF2, 0x0F, 0xE6, 0xCA])
      [⟨true, .cs, 0x401000#64, 0x401000#64, 4, .segment .bounds⟩])) = some .placement := by decide +kernel

/-! ## Witnesses: for every statement with hypotheses, values that meet all of them -/

/-- The longest encodings of each kind, and the last register numbers. -/
theorem witness_DecodeOfEncode :
    (Instr.cvtpd2dq [.seg .gs, .addrSize, .lock] 7#3 (.mem (.sib 3#2 7#3 7#3 (.d32 0xFFFFFFFF#32)))).wf
      .mode64 = true ∧
    (Instr.cvtpd2dqRex [] ⟨true, true, true, true⟩ 7#3 (.reg 7#3)).wf .mode64 = true ∧
    (Instr.vcvtpd2dqVex256C5 ⟨[.rep], none⟩ ⟨false, 8#4⟩ 7#3 (.mem (.disp32 0#32))).wf .mode32 = true ∧
    (Instr.vcvtpd2dqVex128C4 ⟨[.seg .fs], some ⟨true, true, true, true⟩⟩ ⟨true, true, true, true, 0#4⟩ 7#3
      (.mem (.sibNoBase 3#2 4#3 0#32))).wf .mode64 = true ∧
    (Instr.vcvtpd2dqEvex512 plain ⟨true, true, true, true, false, 0#4, true, true, 7#3⟩ true 7#3
      (.mem (.base 5#3 (.d8 0#8)))).wf .mode64 = true ∧
    (Instr.vcvtpd2dqEvex512Er plain evex0 .rz 7#3 7#3).wf .mode32 = true ∧
    (Instr.vcvtpd2dqReservedLength plain evex0 true 1#3 (.mem rax)).wf .mode32 = true := by decide +kernel

theorem witness_EncodeOfDecode : decode .mode64 (bytes [0xC5, 0xFB, 0xE6, 0xCA, 0x90]) =
    .ok (.vcvtpd2dqVex128C5 plain ⟨false, 15#4⟩ 1#3 xmm2, bytes [0x90]) := by decide +kernel

theorem witness_DecodedInstrWellFormed : decode .mode32 (bytes [0xC5, 0xFF, 0xE6, 0xCA]) =
    .ok (.vcvtpd2dqVex256C5 plain ⟨false, 15#4⟩ 1#3 xmm2, []) := by decide +kernel

/-- Lengths 4 and 13. -/
theorem witness_DecodeConsumesIlen :
    decode .mode64 (bytes [0xF2, 0x0F, 0xE6, 0xCA]) = .ok (.cvtpd2dq [] 1#3 xmm2, []) ∧
    decode .mode64 (bytes [0x64, 0x67, 0x62, 0xF1, 0xFF, 0x48, 0xE6, 0x8C, 0x8B, 0x78, 0x56, 0x34, 0x12]) =
      .ok (.vcvtpd2dqEvex512 ⟨[.seg .fs, .addrSize], none⟩ evex0 false 1#3
        (.mem (.sib 2#2 1#3 3#3 (.d32 0x12345678#32))), []) ∧
    (Instr.vcvtpd2dqEvex512 ⟨[.seg .fs, .addrSize], none⟩ evex0 false 1#3
      (.mem (.sib 2#2 1#3 3#3 (.d32 0x12345678#32)))).ilen = 13 ∧
    (Instr.vcvtpd2dqEvex512 ⟨[.seg .fs, .addrSize], none⟩ evex0 false 1#3
      (.mem (.sib 2#2 1#3 3#3 (.d32 0x12345678#32)))).reservedEncoding = false := by decide +kernel

/-- Register 7 in Mode32, with a register and with a memory source, and register 15 of a VEX form in Mode64. -/
theorem witness_ReachableRegisterNumbers :
    (∀ rm ∈ [RmOperand.reg 7#3, .mem (.sib 0#2 7#3 7#3 .none)], ∃ c,
      (Instr.vcvtpd2dqEvex512 plain evex0 false 7#3 rm).wf .mode32 = true ∧
      (Instr.vcvtpd2dqEvex512 plain evex0 false 7#3 rm).form? = some .f6 ∧
      (Instr.vcvtpd2dqEvex512 plain evex0 false 7#3 rm).destReg = some 7#5 ∧
      (Instr.vcvtpd2dqEvex512 plain evex0 false 7#3 rm).sourceCtx ready = some (c, rm)) ∧
    (∃ c, (Instr.vcvtpd2dqVex128C4 plain ⟨true, false, true, false, 15#4⟩ 7#3 (.reg 7#3)).wf .mode64 = true ∧
      (Instr.vcvtpd2dqVex128C4 plain ⟨true, false, true, false, 15#4⟩ 7#3 (.reg 7#3)).form? = some .f2 ∧
      (Instr.vcvtpd2dqVex128C4 plain ⟨true, false, true, false, 15#4⟩ 7#3 (.reg 7#3)).destReg = some 15#5 ∧
      (Instr.vcvtpd2dqVex128C4 plain ⟨true, false, true, false, 15#4⟩ 7#3 (.reg 7#3)).sourceCtx ready =
        some (c, .reg 7#3)) := by
  refine ⟨?_, _, rfl, rfl, rfl, rfl⟩
  simp only [List.forall_mem_cons, List.not_mem_nil, false_imp_iff, implies_true, and_true]
  exact ⟨⟨_, rfl, rfl, rfl, rfl⟩, ⟨_, rfl, rfl, rfl, rfl⟩⟩

theorem witness_EvexReservedBitsRefused :
    (0xF5#8).extractLsb' 2 2 ≠ 0#2 ∧ (0xF9#8).extractLsb' 2 2 ≠ 0#2 ∧ (0xFB#8).getLsbD 2 = false := by decide

/-- A state with `F2 0F E6 CA` at `ip`. -/
def atIp : State := withCode ready [0xF2, 0x0F, 0xE6, 0xCA]

theorem witness_StepRunsDecodedInstr :
    atIp.trap = none ∧ atIp.mode.admitted = true ∧
    atIp.memCheckOk true .cs atIp.instrPtr atIp.fetchAddr [⟨0, 1⟩] = true ∧
    decode atIp.mode atIp.fetchWindow = .ok (.cvtpd2dq [] 1#3 xmm2, List.replicate 11 0#8) ∧
    ¬ atIp.Straddles (Instr.cvtpd2dq [] 1#3 xmm2).ilen ∧
    atIp.memCheckOk true .cs atIp.instrPtr atIp.fetchAddr [⟨0, (Instr.cvtpd2dq [] 1#3 xmm2).ilen⟩] =
      true := by decide +kernel

/-- In Mode32 with the last byte at FFFFFFFFH. -/
theorem witness_StepRunsEncodedInstr :
    let s := withCode { ready32 with ip := 0xFFFFFFFC#64 } [0xF2, 0x0F, 0xE6, 0xCA];
    let i := Instr.cvtpd2dq [] 1#3 xmm2;
    s.trap = none ∧ i.wf s.mode = true ∧ ¬ s.Straddles i.ilen ∧
    s.memCheckOk true .cs s.instrPtr s.fetchAddr [⟨0, 1⟩] = true ∧
    s.memCheckOk true .cs s.instrPtr s.fetchAddr [⟨0, i.ilen⟩] = true ∧
    s.fetchWindow.take i.ilen = encode i := by decide +kernel

theorem witness_PlacedWordRunsAfterReset :
    decodeTableWord 48 0xCAE668FFF162 =
      some (.vcvtpd2dqReservedLength plain evex0 false 1#3 xmm2) := by decide +kernel

theorem witness_OtherModesRefused :
    State.reset.mode = .other .realAddress ∧ State.reset.trap = none := by decide

/-- A trap with flags recorded (#XM), and one without (#NM). -/
theorem witness_TrapIsPreciseAndTerminal :
    (∃ t, step { withCode (withZmm ready 2 (vec [0x3FF8000000000000#64])) [0xC5, 0xFB, 0xE6, 0xCA] with
        mxcsr := 0x0FA1#32 } = .next t ∧
      decide (t.trap = some ⟨.xm, .none⟩) = true) ∧
    (∃ t, step { atIp with cr0 := 0x39#64 } = .next t ∧ decide (t.trap = some ⟨.nm, .none⟩) = true) :=
  ⟨exists_next _ (by decide +kernel), exists_next _ (by decide +kernel)⟩

theorem witness_FetchPageFault :
    let s := withPages ready [⟨0x401000, 0x401FFF, false, true, true, true, false, false⟩];
    s.trap = none ∧ s.mode.admitted = true ∧
    s.canonicalOk (s.byteAddr s.fetchAddr 0) = true ∧
    s.segmentViolation true .cs (s.byteAddr s.instrPtr 0).toNat = none ∧
    s.partFault true .cs s.instrPtr s.fetchAddr ⟨0, 1⟩ = none ∧
    s.pageFault true (s.byteAddr s.fetchAddr 0).toNat = some ⟨true, false, true, false, true, false⟩ := by
  decide +kernel

/-- One byte past 2^32; the next address not canonical; the last byte outside the code segment's limit; and an
answer for the four bytes as one access. -/
theorem witness_StraddlingPlacementRefused :
    let code := [0xF2, 0x0F, 0xE6, 0xCA];
    let s := withCode { ready32 with ip := 0xFFFFFFFD#64 } code;
    let s' := withCode { ready with ip := 0x00007FFFFFFFFFFC#64 } code;
    let s'' := withSegments (withCode ready32 code) [⟨.cs, 0x401003, 0xFFFFFFFF, true, true, .bounds⟩];
    let w := withAccesses (withCode ready32 code)
      [⟨true, .cs, 0x401000#64, 0x401000#64, 4, .segment .bounds⟩];
    let i := Instr.cvtpd2dq [] 1#3 xmm2;
    (∀ t ∈ [s, s', s'', w], t.trap = none ∧ t.mode.admitted = true ∧
      t.memCheckOk true .cs t.instrPtr t.fetchAddr [⟨0, 1⟩] = true ∧
      decode t.mode t.fetchWindow = .ok (i, List.replicate 11 0#8)) ∧
    (s.mode = .mode32 ∧ 2 ^ 32 < s.ip.toNat % 2 ^ 32 + i.ilen) ∧
    (s'.mode = .mode64 ∧ canonical s'.cfg.la57 (s'.ip + BitVec.ofNat 64 i.ilen) = false) ∧
    s''.segmentViolation true .cs (s''.instrPtr.toNat + 3) = some .bounds ∧
    w.partFault true .cs w.instrPtr w.fetchAddr ⟨0, i.ilen⟩ = some (.segment .bounds) := by
  decide +kernel

theorem atIp_inv : atIp.Inv :=
  ⟨by decide +kernel, by decide +kernel, by decide +kernel, by decide +kernel,
    fun t h => by
      have : atIp.trap = none := by decide +kernel
      rw [this] at h; cases h⟩

theorem witness_StepKeepsInv :
    atIp.Inv ∧ ∃ t, step atIp = .next t ∧ decide (t.trap = none) = true :=
  ⟨atIp_inv, exists_next _ (by decide +kernel)⟩

theorem witness_StepFrame : ∃ t, step { atIp with mxcsr := 0x1FA1#32 } = .next t ∧
    decide (t.ip = 0x401004#64) = true := exists_next _ (by decide +kernel)

theorem witness_ResetDisablesEveryForm :
    Mode.mode64.admitted = true ∧ Mode.mode32.admitted = true := by decide

theorem witness_NanAndInfinityAreInvalid :
    biasedExp 0x7FF0000000000000#64 = 2047 ∧ biasedExp 0xFFFFFFFFFFFFFFFF#64 = 2047 := by decide

/-- The least and the greatest denormal, of either sign. -/
theorem witness_DenormalSources :
    (biasedExp 1#64 = 0 ∧ fraction 1#64 ≠ 0) ∧
    (biasedExp 0x800FFFFFFFFFFFFF#64 = 0 ∧ fraction 0x800FFFFFFFFFFFFF#64 ≠ 0) := by decide

/-- 1.0. -/
theorem witness_SmallValuesAreValid : biasedExp 0x3FF0000000000000#64 ≠ 2047 ∧
    |ratValue 0x3FF0000000000000#64| < 2 ^ 31 - 1 := by
  refine ⟨by decide, ?_⟩
  have h1 : biasedExp 0x3FF0000000000000#64 = 1023 := by decide
  have h2 : fraction 0x3FF0000000000000#64 = 0 := by decide
  have h3 : signBit 0x3FF0000000000000#64 = false := by decide
  have h4 : (2 : ℚ) ^ 1075 = 2 ^ 1023 * 2 ^ 52 := by rw [← pow_add]
  have h5 : (2 : ℚ) ^ 1023 ≠ 0 := by positivity
  simp only [ratValue, h1, h2, h3, h4]
  generalize (2 : ℚ) ^ 1023 = y at *
  have h6 : (4503599627370496 : ℚ) * y / (y * 4503599627370496) = 1 := by field_simp
  norm_num [h6]

/-- 1.0 twice, which the order's boundary admits. -/
theorem witness_ConvertIsMonotone : (convert 0x3FF0000000000000#64 .rn false).2.ie = false ∧
    ratValue 0x3FF0000000000000#64 ≤ ratValue 0x3FF0000000000000#64 := ⟨by decide +kernel, le_refl _⟩

/-- Register and memory sources of form F1, the memory operand in the last 16 bytes that are canonical below. -/
theorem witness_LegacyResult :
    let s := withGpr ready 0 0x00007FFFFFFFFFF0#64;
    let i := Instr.cvtpd2dq [] 1#3 (.mem rax);
    let c : SourceCtx := ⟨.f1, Ext.none, [], i.ilen, false, fun _ => true⟩
    let j := Instr.cvtpd2dqRex [] ⟨false, true, false, true⟩ 7#3 (.reg 7#3);
    let c' : SourceCtx := ⟨.f1, Ext.ofRex ⟨false, true, false, true⟩, [], j.ilen, false, fun _ => true⟩
    (i.reservedEncoding = false ∧ s.enabledFor .f1 = true ∧ s.readable c (.mem rax) = true ∧
      s.masked 2 c.enabled (s.lane c (.mem rax) s.rc) = true) ∧
    (j.reservedEncoding = false ∧ s.enabledFor .f1 = true ∧ s.readable c' (.reg 7#3) = true ∧
      s.masked 2 c'.enabled (s.lane c' (.reg 7#3) s.rc) = true) := by decide +kernel

theorem witness_Vex128Result :
    let s := withGpr ready 0 0x00007FFFFFFFFFF1#64;
    let a : RmOperand := .mem (.base 0#3 (.d8 0xFF#8))
    let v3 : Vex3 := ⟨true, true, false, true, 15#4⟩
    let i := Instr.vcvtpd2dqVex128C5 plain ⟨true, 15#4⟩ 7#3 a;
    let c : SourceCtx := ⟨.f2, Ext.ofVex2 ⟨true, 15#4⟩, [], i.ilen, false, fun _ => true⟩
    let j := Instr.vcvtpd2dqVex128C4 ⟨[.addrSize], none⟩ v3 7#3 xmm2;
    let c' : SourceCtx := ⟨.f2, Ext.ofVex3 v3, [.addrSize], j.ilen, false, fun _ => true⟩
    (i.reservedEncoding = false ∧ s.enabledFor .f2 = true ∧ s.readable c a = true ∧
      s.masked 2 c.enabled (s.lane c a s.rc) = true) ∧
    (j.reservedEncoding = false ∧ s.readable c' xmm2 = true ∧
      s.masked 2 c'.enabled (s.lane c' xmm2 s.rc) = true) := by decide +kernel

theorem witness_Vex256Result :
    let s := { withZmm ready 2 (vec [0x7FF8000000000000#64, 0x3FF8000000000000#64]) with
      cfg := { Config.reset with maxvl := .v256 } }
    let v3 : Vex3 := ⟨true, true, false, true, 15#4⟩
    let i := Instr.vcvtpd2dqVex256C5 plain ⟨true, 15#4⟩ 7#3 xmm2;
    let c : SourceCtx := ⟨.f3, Ext.ofVex2 ⟨true, 15#4⟩, [], i.ilen, false, fun _ => true⟩
    let j := Instr.vcvtpd2dqVex256C4 plain v3 7#3 (.mem rax);
    let c' : SourceCtx := ⟨.f3, Ext.ofVex3 v3, [], j.ilen, false, fun _ => true⟩
    (i.reservedEncoding = false ∧ s.enabledFor .f3 = true ∧ s.readable c xmm2 = true ∧
      s.masked 4 c.enabled (s.lane c xmm2 s.rc) = true) ∧
    (j.reservedEncoding = false ∧ s.readable c' (.mem rax) = true ∧
      s.masked 4 c'.enabled (s.lane c' (.mem rax) s.rc) = true) := by decide +kernel

/-- Each of rows 7, 8 and 9; a zeroing mask with no bit set, no mask, and a broadcast. -/
theorem witness_EvexResult :
    let e := { evex0 with z := true, aaa := 7#3 };
    let i := Instr.vcvtpd2dqEvex128 plain e false 1#3 xmm2;
    let c : SourceCtx := ⟨.f4, Ext.ofEvex e, [], i.ilen, false, ready.laneEnabled 7#3⟩
    let j := Instr.vcvtpd2dqEvex256 plain evex0 false 1#3 xmm2;
    let c' : SourceCtx := ⟨.f5, Ext.ofEvex evex0, [], j.ilen, false, ready.laneEnabled 0#3⟩
    let k := Instr.vcvtpd2dqEvex512 plain evex0 true 1#3 (.mem rax);
    let c'' : SourceCtx := ⟨.f6, Ext.ofEvex evex0, [], k.ilen, true, ready.laneEnabled 0#3⟩
    (i.reservedEncoding = false ∧ ready.enabledFor .f4 = true ∧ ready.readable c xmm2 = true ∧
      ready.masked 2 c.enabled (ready.lane c xmm2 ready.rc) = true) ∧
    (j.reservedEncoding = false ∧ ready.enabledFor .f5 = true ∧ ready.readable c' xmm2 = true ∧
      ready.masked 4 c'.enabled (ready.lane c' xmm2 ready.rc) = true) ∧
    (k.reservedEncoding = false ∧ ready.enabledFor .f6 = true ∧ ready.readable c'' (.mem rax) = true ∧
      ready.masked 8 c''.enabled (ready.lane c'' (.mem rax) ready.rc) = true) := by decide +kernel

theorem witness_EmbeddedRoundingResult :
    (Instr.vcvtpd2dqEvex512Er plain evex0 .rz 1#3 2#3).reservedEncoding = false ∧
    ({ ready with mxcsr := 0#32 }).enabledFor .f6 = true := by decide +kernel

theorem witness_ReservedLengthIsUndefined :
    ready.mode.admitted = true ∧ ready.ts = false ∧ ready32.mode.admitted = true := by decide +kernel

/-- The instruction and source of the next witness. -/
def row3 : Instr := .vcvtpd2dqVex128C5 plain ⟨false, 15#4⟩ 1#3 xmm2
def ctx3 : SourceCtx := ⟨.f2, Ext.ofVex2 ⟨false, 15#4⟩, [], row3.ilen, false, fun _ => true⟩

/-- D-XM-1, D-XM-2, D-XM-5 and D-XM-6: each clause. -/
theorem witness_UnmaskedResponse :
    let s (m : Dword) (l : List Qword) : State := { withZmm ready 2 (vec l) with mxcsr := m }
    let s1 := s 0x1F00#32 [0x3FF8000000000000#64, 0x7FF8000000000000#64];
    let s2 := s 0x0F80#32 [0x3FF8000000000000#64, 0x7FF8000000000000#64];
    let s3 := s 0x0F80#32 [0x3FF8000000000000#64, 0x4000000000000000#64];
    let s4 := s 0#32 [0x3FF0000000000000#64, 0x4000000000000000#64];
    row3.sourceCtx s1 = some (ctx3, xmm2) ∧ row3.isEr = false ∧ row3.reservedEncoding = false ∧
    (s1.enabledFor .f2 = true ∧ s2.enabledFor .f2 = true ∧ s3.enabledFor .f2 = true ∧
      s4.enabledFor .f2 = true) ∧ s1.readable ctx3 xmm2 = true ∧
    (AnyIe 2 ctx3.enabled (s1.lane ctx3 xmm2 s1.rc) ∧ s1.im = false) ∧
    (AnyIe 2 ctx3.enabled (s2.lane ctx3 xmm2 s2.rc) ∧ s2.im = true ∧
      AnyPe 2 ctx3.enabled (s2.lane ctx3 xmm2 s2.rc) ∧ s2.pm = false) ∧
    (¬ AnyIe 2 ctx3.enabled (s3.lane ctx3 xmm2 s3.rc) ∧
      AnyPe 2 ctx3.enabled (s3.lane ctx3 xmm2 s3.rc) ∧ s3.pm = false) ∧
    (¬ AnyIe 2 ctx3.enabled (s4.lane ctx3 xmm2 s4.rc) ∧
      ¬ AnyPe 2 ctx3.enabled (s4.lane ctx3 xmm2 s4.rc)) := by
  refine ⟨rfl, rfl, rfl, by decide +kernel, rfl, ?_, ?_, ?_, ?_⟩ <;> simp only [AnyIe, AnyPe] <;>
    decide +kernel

theorem witness_ReservedEncodingIsUndefined :
    ready.mode.admitted = true ∧ ready.ts = false ∧
    ([Instr.cvtpd2dq [.lock] 1#3 xmm2, .vcvtpd2dqVex128C5 plain ⟨false, 14#4⟩ 1#3 xmm2,
      .vcvtpd2dqVex256C4 ⟨[.repne], none⟩ ⟨false, false, false, false, 15#4⟩ 1#3 xmm2,
      .vcvtpd2dqVex256C5 ⟨[], some ⟨false, false, false, true⟩⟩ ⟨false, 15#4⟩ 1#3 xmm2,
      .vcvtpd2dqEvex128 plain { evex0 with vvvv := 7#4 } false 1#3 xmm2,
      .vcvtpd2dqEvex256 plain { evex0 with vHi := true } false 1#3 xmm2,
      .vcvtpd2dqEvex512 plain { evex0 with z := true } false 1#3 xmm2,
      .vcvtpd2dqEvex512Er plain { evex0 with w := false } .rn 1#3 2#3,
      .vcvtpd2dqReservedLength plain evex0 false 1#3 xmm2].all Instr.reservedEncoding) = true := by
  decide +kernel

/-- One instruction of each form. -/
def formInstr : Form → Instr
  | .f1 => .cvtpd2dq [] 1#3 xmm2
  | .f2 => row3
  | .f3 => .vcvtpd2dqVex256C5 plain ⟨false, 15#4⟩ 1#3 xmm2
  | .f4 => .vcvtpd2dqEvex128 plain evex0 false 1#3 xmm2
  | .f5 => .vcvtpd2dqEvex256 plain evex0 false 1#3 xmm2
  | .f6 => .vcvtpd2dqEvex512 plain evex0 false 1#3 xmm2

theorem witness_AbsentExtensionIsUndefined :
    ∀ f, let s := { ready with cfg :=
      { Config.reset with sse2 := false, avx := false, avx512f := false } }
      s.mode.admitted = true ∧ s.ts = false ∧ (formInstr f).form? = some f ∧
      match f with
      | .f1 => s.cfg.sse2 = false
      | .f2 | .f3 => s.cfg.avx = false
      | .f4 | .f5 => ¬ (s.cfg.avx512vl = true ∧ s.cfg.avx512f = true ∨ s.cfg.avx10_1 = true)
      | .f6 => ¬ (s.cfg.avx512f = true ∨ s.cfg.avx10_1 = true) := by
  intro f; cases f <;> decide +kernel

/-- Each bit on its own. -/
theorem witness_DisabledStateIsUndefined :
    (ready.mode.admitted = true ∧ ready.ts = false ∧ ∀ f, (formInstr f).form? = some f) ∧
    ({ ready with cr0 := 0x35#64 }).cr0.getLsbD 2 = true ∧ ({ ready with cr0 := 0x35#64 }).ts = false ∧
    ({ ready with cr4 := 0x40400#64 }).cr4.getLsbD 9 = false ∧
    ({ ready with cr4 := 0x600#64 }).cr4.getLsbD 18 = false ∧
    ({ ready with xcr0 := 0xE5#64 }).xcr0.getLsbD 1 = false ∧
    ({ ready with xcr0 := 0xE3#64 }).xcr0.getLsbD 2 = false ∧
    ({ ready with xcr0 := 0xC7#64 }).xcr0.getLsbD 5 = false ∧
    ({ ready with xcr0 := 0xA7#64 }).xcr0.getLsbD 6 = false ∧
    ({ ready with xcr0 := 0x67#64 }).xcr0.getLsbD 7 = false :=
  ⟨⟨by decide +kernel, by decide +kernel, fun f => by cases f <;> rfl⟩, by decide +kernel⟩

theorem witness_TaskSwitchedIsDeviceNotAvailable :
    ∀ f, let s := { ready with cr0 := 0x39#64 };
      s.mode.admitted = true ∧ (formInstr f).form? = some f ∧ (formInstr f).reservedEncoding = false ∧
      Config.extensionPresent s.cfg f = true ∧ s.simdUD f = false ∧ s.cr0.getLsbD 3 = true := by
  intro f; cases f <;> decide +kernel

/-- Rows 1 and 9 with the operand at [rax]. -/
def row1m : Instr := .cvtpd2dq [] 1#3 (.mem rax)
def ctx1m : SourceCtx := ⟨.f1, Ext.none, [], row1m.ilen, false, fun _ => true⟩
def row9m (e : Evex) (bc : Bool) : Instr := .vcvtpd2dqEvex512 plain e bc 1#3 (.mem rax)
def ctx9m (s : State) (e : Evex) (bc : Bool) : SourceCtx :=
  ⟨.f6, Ext.ofEvex e, [], (row9m e bc).ilen, bc, s.laneEnabled e.aaa⟩

/-- Residues 1 and 15 of form F1; residue 63 of form F6. -/
theorem witness_LegacyAlignment :
    (∀ a ∈ [0x1001#64, 0x100F#64], let s := withGpr ready 0 a;
      row1m.sourceCtx s = some (ctx1m, .mem rax) ∧ ctx1m.form = .f1 ∧ row1m.reservedEncoding = false ∧
      s.enabledFor .f1 = true ∧ (s.operandAddr ctx1m rax).toNat % 16 ≠ 0 ∧
      s.memCheckOk false (s.operandSegment ctx1m rax) (s.effAddr ctx1m rax) (s.operandAddr ctx1m rax)
        (ctx1m.checkedParts s.cfg.faultSuppression) = true) ∧
    (let s := withGpr ready 0 0x103F#64;
      (ctx9m s evex0 false).form ≠ .f1 ∧ s.alignCheck = false ∧
      s.memCheckOk false (s.operandSegment (ctx9m s evex0 false) rax)
        (s.effAddr (ctx9m s evex0 false) rax) (s.operandAddr (ctx9m s evex0 false) rax)
        ((ctx9m s evex0 false).checkedParts s.cfg.faultSuppression) = true) := by
  refine ⟨?_, by decide +kernel⟩
  simp only [List.forall_mem_cons, List.not_mem_nil, false_imp_iff, implies_true, and_true]
  exact ⟨⟨rfl, by decide +kernel⟩, ⟨rfl, by decide +kernel⟩⟩

theorem witness_AlignCheckRefuses :
    let s := { withGpr ready 0 0x1020#64 with cr0 := 0x40031#64, rflags := 0x40002#64, cpl := 3#2 };
    let c := ctx9m s evex0 false;
    (row9m evex0 false).sourceCtx s = some (c, .mem rax) ∧ c.form ≠ .f1 ∧
    (row9m evex0 false).reservedEncoding = false ∧ s.enabledFor c.form = true ∧
    s.memCheckOk false (s.operandSegment c rax) (s.effAddr c rax) (s.operandAddr c rax)
      (c.checkedParts s.cfg.faultSuppression) = true ∧
    s.cr0.getLsbD 18 = true ∧ s.rflags.getLsbD 18 = true ∧ s.cpl = 3#2 ∧
    (s.operandAddr c rax).toNat % c.width ≠ 0 := ⟨rfl, by decide +kernel⟩

theorem forall_cause {p : SegmentCause → Prop} (h : p .bounds ∧ p .unusable) : ∀ c, p c :=
  fun c => by cases c <;> [exact h.1; exact h.2]

/-- Row 1 with the operand at [rsp]. -/
def row1s : Instr := .cvtpd2dq [] 1#3 (.mem (.sib 0#2 4#3 4#3 .none))
def rsp : Address := .sib 0#2 4#3 4#3 .none
def ctx1s : SourceCtx := ⟨.f1, Ext.none, [], row1s.ilen, false, fun _ => true⟩

/-- A last byte that is not canonical; an operand outside a limit, through DS and through SS; an unusable SS; and
an access that is refused as a whole. -/
theorem witness_SegmentViolationTraps :
    (let s := withGpr ready 0 0x00007FFFFFFFFFC1#64;
      let c := ctx9m s evex0 false;
      (row9m evex0 false).sourceCtx s = some (c, .mem rax) ∧
      (row9m evex0 false).reservedEncoding = false ∧ s.enabledFor c.form = true ∧ c.form ≠ .f1 ∧
      s.SegmentRefuses false (s.operandSegment c rax) (s.effAddr c rax) (s.operandAddr c rax)
        (c.checkedParts s.cfg.faultSuppression) .bounds ∧
      ¬ s.SegmentRefuses false (s.operandSegment c rax) (s.effAddr c rax) (s.operandAddr c rax)
        (c.checkedParts s.cfg.faultSuppression) .unusable) ∧
    ∀ x ∈ [(withSegments ready32 [⟨.ds, 0x1000, 0xFFFFFFFF, true, true, .bounds⟩],
          row1m, ctx1m, rax, SegmentCause.bounds),
        (withSegments ready32 [⟨.ss, 0x1000, 0xFFFFFFFF, true, true, .bounds⟩],
          row1s, ctx1s, rsp, .bounds),
        (withSegments ready32 [⟨.ss, 0, 0xFFFFFFFF, true, true, .unusable⟩],
          row1s, ctx1s, rsp, .unusable),
        (withAccesses ready32 [⟨false, .ds, 0x1000#64, 0x1000#64, 16, .segment .bounds⟩],
          row1m, ctx1m, rax, .bounds)],
      let s := withGpr (withGpr x.1 0 0x1000#64) 4 0x1000#64;
      let c := x.2.2.1;
      let a := x.2.2.2.1;
      x.2.1.reservedEncoding = false ∧ s.enabledFor c.form = true ∧
      (s.operandAddr c a).toNat % 16 = 0 ∧
      s.SegmentRefuses false (s.operandSegment c a) (s.effAddr c a) (s.operandAddr c a)
        (c.checkedParts s.cfg.faultSuppression) x.2.2.2.2 ∧
      ∀ cause ∈ [SegmentCause.bounds, .unusable], s.SegmentRefuses false (s.operandSegment c a)
        (s.effAddr c a) (s.operandAddr c a) (c.checkedParts s.cfg.faultSuppression) cause →
        cause = x.2.2.2.2 := by
  refine ⟨⟨rfl, by decide +kernel⟩, by decide +kernel⟩

/-- The first faulting byte is byte 8; and an access that faults as a whole. -/
theorem witness_PageFaultTraps :
    (let s := withPages (withGpr ready 0 0x1FF8#64) [⟨0x2000, 0x2FFF, true, false, true, true, false, true⟩];
      let c := ctx9m s evex0 false;
      (row9m evex0 false).sourceCtx s = some (c, .mem rax) ∧
      (row9m evex0 false).reservedEncoding = false ∧ s.enabledFor c.form = true ∧ c.form ≠ .f1 ∧
      (∀ cause, ¬ s.SegmentRefuses false (s.operandSegment c rax) (s.effAddr c rax)
        (s.operandAddr c rax) (c.checkedParts s.cfg.faultSuppression) cause) ∧
      (∀ p ∈ c.checkedParts s.cfg.faultSuppression, s.partFault false (s.operandSegment c rax)
        (s.effAddr c rax) (s.operandAddr c rax) p = none) ∧
      8 ∈ partBytes (c.checkedParts s.cfg.faultSuppression) ∧
      (∀ o' ∈ partBytes (c.checkedParts s.cfg.faultSuppression), o' < 8 →
        s.pageFault false (s.byteAddr (s.operandAddr c rax) o').toNat = none) ∧
      s.pageFault false (s.byteAddr (s.operandAddr c rax) 8).toNat =
        some ⟨true, false, true, false, false, true⟩) ∧
    (let s := withAccesses (withGpr ready 0 0x1FF8#64)
        [⟨false, .ds, 0x1FF8#64, 0x1FF8#64, 64, .page true true false false 0x2000#64⟩];
      let c := ctx9m s evex0 false;
      (row9m evex0 false).sourceCtx s = some (c, .mem rax) ∧
      (row9m evex0 false).reservedEncoding = false ∧ s.enabledFor c.form = true ∧ c.form ≠ .f1 ∧
      (∀ cause, ¬ s.SegmentRefuses false (s.operandSegment c rax) (s.effAddr c rax)
        (s.operandAddr c rax) (c.checkedParts s.cfg.faultSuppression) cause) ∧
      c.checkedParts s.cfg.faultSuppression = [⟨0, 64⟩] ∧
      s.partFault false (s.operandSegment c rax) (s.effAddr c rax) (s.operandAddr c rax) ⟨0, 64⟩ =
        some (.page true true false false 0x2000#64) ∧
      (∀ o ∈ partBytes (c.checkedParts s.cfg.faultSuppression),
        s.pageFault false (s.byteAddr (s.operandAddr c rax) o).toNat = none)) :=
  ⟨⟨rfl, by decide +kernel, by decide +kernel, by decide +kernel, forall_cause (by decide +kernel),
      by decide +kernel⟩,
    ⟨rfl, by decide +kernel, by decide +kernel, by decide +kernel, forall_cause (by decide +kernel),
      by decide +kernel⟩⟩

theorem witness_DeviceOperandRefused :
    let s := withDevices (withGpr ready 0 0xFEE00000#64) [⟨0xFEE0000F, 0xFEE00FFF⟩];
    row1m.sourceCtx s = some (ctx1m, .mem rax) ∧ row1m.reservedEncoding = false ∧
    s.enabledFor ctx1m.form = true ∧ (s.operandAddr ctx1m rax).toNat % 16 = 0 ∧
    (∀ cause, ¬ s.SegmentRefuses false (s.operandSegment ctx1m rax) (s.effAddr ctx1m rax)
      (s.operandAddr ctx1m rax) (ctx1m.checkedParts s.cfg.faultSuppression) cause) ∧
    (∀ p ∈ ctx1m.checkedParts s.cfg.faultSuppression, s.partFault false (s.operandSegment ctx1m rax)
      (s.effAddr ctx1m rax) (s.operandAddr ctx1m rax) p = none) ∧
    (∀ o' ∈ partBytes (ctx1m.checkedParts s.cfg.faultSuppression),
      s.pageFault false (s.byteAddr (s.operandAddr ctx1m rax) o').toNat = none) ∧
    15 ∈ partBytes (ctx1m.checkedParts s.cfg.faultSuppression) ∧
    s.isDevice (s.byteAddr (s.operandAddr ctx1m rax) 15).toNat = true :=
  ⟨rfl, by decide +kernel, by decide +kernel, by decide +kernel, forall_cause (by decide +kernel),
    by decide +kernel⟩

/-- Row 9 with and without broadcast, and with elements masked off. -/
theorem witness_FaultSuppressionBytes :
    let masked := ctx9m (withK ready 1 2#64) { evex0 with aaa := 1#3 } false;
    (masked.form.isEvex = true ∧ masked.bcast = false ∧ masked.enabled 0 = false ∧
      masked.checkedParts true = [⟨8, 8⟩]) ∧
    (ctx9m ready evex0 true).form.isEvex = true ∧ (ctx9m ready evex0 true).bcast = true := by
  decide +kernel

/-- The bounds of every index: bytes 0 and 7, window bytes 0 and 14, elements 0 and 7. -/
theorem witness_LittleEndianReads : 0 < 8 ∧ 7 < 8 ∧ 0 < 15 ∧ 14 < 15 := by decide
theorem witness_SourceElements :
    0 < (ctx9m ready evex0 false).form.kl ∧ 7 < (ctx9m ready evex0 false).form.kl ∧ 7 < 8 := by decide +kernel
theorem witness_WidthsAndScales :
    (ctx1m.form.isEvex = false ∧ ctx1m.bcast = false) ∧ (ctx9m ready evex0 true).form.isEvex = true := by
  decide +kernel
theorem witness_EffectiveAddressNoSib : ready.mode = .mode64 ∧ ready32.mode = .mode32 := by decide +kernel

/-- An honoured override in each mode, and an ignored one. -/
theorem witness_OperandSegment :
    let c (ps : List Prefix) : SourceCtx := { ctx1m with prefixes := ps }
    (prefixesOk (c [.seg .gs]).prefixes = true ∧ .seg .gs ∈ (c [.seg .gs]).prefixes) ∧
    (prefixesOk (c [.seg .es]).prefixes = true ∧ .seg .es ∈ (c [.seg .es]).prefixes ∧
      ready32.mode ≠ .mode64) ∧
    (∀ seg, .seg seg ∈ (c [.seg .cs]).prefixes → ready.mode = .mode64 ∧ seg ≠ .fs ∧ seg ≠ .gs) :=
  ⟨by decide +kernel, by decide +kernel, fun seg h => by
    have h' : seg = .cs := by simpa using h
    subst h'; decide +kernel⟩

theorem witness_MemoryIsExtensional : Memory.wf [(0, 1#8), (2 ^ 64 - 1, 255#8)] = true := by decide

/-- Row 9 under k7, with bit 8 of k7 changed. -/
theorem witness_WritemaskBitsRead :
    let i := Instr.vcvtpd2dqEvex512 plain { evex0 with aaa := 7#3 } false 1#3 xmm2;
    (i.maskRead = some (7#3, 8)) ∧
    (∀ j, j < 8 → ((ready.k.setIfInBounds 7 0x100#64).get (7#3).toFin).getLsbD j =
      (ready.readK 7#3).getLsbD j) ∧
    (∃ t, exec i ready = .next t ∧ decide (t.trap = none) = true) ∧
    (∃ r, exec i { ready with cfg := { Config.reset with maxvl := .v256 } } = .refused r) :=
  ⟨rfl, by decide +kernel, exists_next _ (by decide +kernel), exists_refused (by decide +kernel)⟩

/-- MXCSR 1F80H against FFFFB87FH OR 1F80H: every bit that is not read differs or may. -/
theorem witness_MxcsrFieldsReadAndWritten :
    row3.isEr = false ∧ (0xFFFF9FBF#32).extractLsb' 13 2 = ready.mxcsr.extractLsb' 13 2 ∧
    (0xFFFF9FBF#32).getLsbD 7 = ready.mxcsr.getLsbD 7 ∧
    (0xFFFF9FBF#32).getLsbD 12 = ready.mxcsr.getLsbD 12 ∧
    (0xFFFF9FBF#32).getLsbD 6 = ready.mxcsr.getLsbD 6 ∧
    (∃ t, exec row3 ready = .next t ∧ decide (t.trap = none) = true) ∧
    (∃ r, exec row3 { ready with mode := .other .virtual8086 } = .refused r) :=
  ⟨rfl, by decide +kernel, by decide +kernel, by decide +kernel, by decide +kernel,
    exists_next _ (by decide +kernel), exists_refused (by decide +kernel)⟩

/-- Both VEX spellings, with W set, of a register source; VEX.128 and EVEX.128; and a memory source with and
without a redundant displacement, in the EVEX form scaled. -/
theorem witness_EquivalentEncodings :
    let v3 : Vex3 := ⟨true, false, false, true, 15#4⟩;
    let i := Instr.vcvtpd2dqVex128C5 plain ⟨true, 15#4⟩ 1#3 xmm2;
    let j := Instr.vcvtpd2dqEvex128 plain { evex0 with r := true } false 1#3 (.mem (.base 0#3 (.d8 1#8)));
    let regs : List (Instr × Instr) := [(i, .vcvtpd2dqVex128C4 plain v3 1#3 xmm2),
      (i, .vcvtpd2dqEvex128 plain { evex0 with r := true } false 1#3 xmm2)];
    let mems : List (Instr × Address × Instr × Address) :=
      [(j, .base 0#3 (.d8 1#8), .vcvtpd2dqVex128C5 plain ⟨true, 15#4⟩ 1#3 (.mem (.base 0#3 (.d32 16#32))),
        .base 0#3 (.d32 16#32))];
    ready.trap = none ∧ (ready.enabledFor .f2 = true ∧ ready.enabledFor .f4 = true) ∧
    (∀ x ∈ regs, x.1.reservedEncoding = false ∧ x.2.reservedEncoding = false ∧
      x.1.destReg = x.2.destReg ∧ x.1.masking = x.2.masking ∧ x.1.erMode = x.2.erMode ∧
      ∃ c c', x.1.sourceCtx ready = some (c, xmm2) ∧ x.2.sourceCtx ready = some (c', xmm2) ∧
        (c.form = c'.form ∨ c.form.kl = c'.form.kl ∧ c.form ≠ .f1 ∧ c'.form ≠ .f1) ∧
        c.bcast = c'.bcast ∧ ready.SameOperand c c' xmm2 xmm2) ∧
    (∀ x ∈ mems, x.1.reservedEncoding = false ∧ x.2.2.1.reservedEncoding = false ∧
      x.1.destReg = x.2.2.1.destReg ∧ x.1.masking = x.2.2.1.masking ∧ x.1.erMode = x.2.2.1.erMode ∧
      ∃ c c', x.1.sourceCtx ready = some (c, .mem x.2.1) ∧
        x.2.2.1.sourceCtx ready = some (c', .mem x.2.2.2) ∧
        (c.form.kl = c'.form.kl ∧ c.form ≠ .f1 ∧ c'.form ≠ .f1) ∧ c.bcast = c'.bcast ∧
        ready.SameOperand c c' (.mem x.2.1) (.mem x.2.2.2)) ∧
    (∃ t, exec i ready = .next t ∧ decide (t.trap = none) = true) ∧
    (∃ r, exec i { ready with mode := .other .code16 } = .refused r) := by
  refine ⟨rfl, by decide +kernel, ?_, ?_, exists_next _ (by decide +kernel), exists_refused (by decide +kernel)⟩
  · simp only [List.forall_mem_cons, List.not_mem_nil, false_imp_iff, implies_true, and_true]
    exact ⟨⟨rfl, rfl, rfl, rfl, rfl, _, _, rfl, rfl, by decide, rfl, rfl⟩,
      ⟨rfl, rfl, rfl, rfl, rfl, _, _, rfl, rfl, by decide, rfl, rfl⟩⟩
  · simp only [List.forall_mem_cons, List.not_mem_nil, false_imp_iff, implies_true, and_true]
    exact ⟨rfl, rfl, rfl, rfl, rfl, _, _, rfl, rfl, by decide, rfl, by decide +kernel, by decide +kernel⟩

theorem witness_SegmentBases : ready.mode = .mode64 ∧ ready32.mode = .mode32 := by decide +kernel

/-- The least one-byte displacement of row 9, scaled by 64, and of row 1, not scaled. -/
theorem witness_RedundantDisplacements :
    (ctx9m ready evex0 false).ext = (ctx9m ready evex0 false).ext ∧
    (0xFFFFE000#32).toInt = (0x80#8).toInt * (ctx9m ready evex0 false).dispScale ∧
    (0xFFFFFF80#32).toInt = (0x80#8).toInt * ctx1m.dispScale ∧
    (ctx9m ready evex0 false).ext.x = false ∧ ready32.mode = .mode32 := by decide +kernel

/-- A page fault, which writes CR2, and an unmasked Precision, which writes MXCSR. -/
theorem witness_RestartTrapsAgain :
    let s := withPages ready [⟨0, 0xFFF, true, false, true, true, false, true⟩];
    let s' := { withZmm ready 2 (vec [0x3FF8000000000000#64]) with mxcsr := 0x0F80#32 }
    s.trap = none ∧ s'.trap = none ∧
    (∃ t, exec (row9m evex0 false) s = .next t ∧ decide (t.trap ≠ none) = true) ∧
    (∃ t, exec row3 s' = .next t ∧ decide (t.trap ≠ none) = true) :=
  ⟨rfl, rfl, exists_next _ (by decide +kernel), exists_next _ (by decide +kernel)⟩

end Sys2Proof.Tests
end

/-! SUPPORT. The scope of the model: which modes a step admits (00_scope.md R9). -/

namespace Sys2Proof.Machine

@[simp] theorem Mode.admitted_other (m : OtherMode) : (Mode.other m).admitted = false := rfl

/-- The mode is tested before any byte is fetched, so neither memory nor the oracle matters. -/
theorem State.fetchInstr_of_not_admitted {s : State} (hm : s.mode.admitted = false) :
    s.fetchInstr = .refuse .modeNotAdmitted := by
  simp [State.fetchInstr, hm]

theorem step_of_fetchInstr_refuse {s : State} {r : Refusal} (ht : s.trap = none)
    (hf : s.fetchInstr = .refuse r) : step s = .refused r := by
  simp [step, ht, hf]

/-- Settles O11: a named other mode is not admitted, so the fetch refuses it and the step with it. -/
theorem otherModesRefused : Obligations.OtherModesRefused := by
  intro s m hmode htrap
  have hadm : s.mode.admitted = false := by rw [hmode, Mode.admitted_other]
  exact step_of_fetchInstr_refuse htrap (State.fetchInstr_of_not_admitted hadm)

end Sys2Proof.Machine

/-! SUPPORT. Addresses and the instruction pointer as numbers, and where an instruction may lie (10_state.md R26, R29,
20_memory.md R47). -/

namespace Sys2Proof.Machine

/-! ## The width of an address (20_memory.md R40) -/

theorem truncAddr_mode32_toNat (a : Qword) : (truncAddr .mode32 a).toNat = a.toNat % 2 ^ 32 := by
  simp only [truncAddr, BitVec.toNat_setWidth]
  omega

@[simp] theorem truncAddr_mode64 (a : Qword) : truncAddr .mode64 a = a := rfl

theorem truncAddr_mode32_lt (a : Qword) : (truncAddr .mode32 a).toNat < 2 ^ 32 := by
  rw [truncAddr_mode32_toNat]
  exact Nat.mod_lt _ (by decide)

/-! ## Segments and linear addresses (10_state.md R29, 20_memory.md R47) -/

theorem State.linear_toNat_mode64 {s : State} (hm : s.mode = .mode64) (seg : Seg) (ea : Qword) :
    (s.linear seg ea).toNat = ((s.segmentBase seg).toNat + ea.toNat) % 2 ^ 64 := by
  rw [State.linear, hm, truncAddr_mode64, BitVec.toNat_add]

theorem State.linear_toNat_mode32 {s : State} (hm : s.mode = .mode32) (seg : Seg) (ea : Qword) :
    (s.linear seg ea).toNat = ((s.segmentBase seg).toNat + ea.toNat) % 2 ^ 32 := by
  rw [State.linear, hm, truncAddr_mode32_toNat, BitVec.toNat_add]
  omega

/-- In Mode64 a segment without a base of its own adds nothing. -/
theorem State.linear_of_base_zero {s : State} (hm : s.mode = .mode64) {seg : Seg}
    (hb : s.segmentBase seg = 0#64) (ea : Qword) : s.linear seg ea = ea := by
  rw [State.linear, hm, truncAddr_mode64, hb, BitVec.zero_add]

theorem State.segmentBase_mode64_zero {s : State} (hm : s.mode = .mode64) {seg : Seg}
    (hseg : seg ∈ [Seg.es, .cs, .ss, .ds]) : s.segmentBase seg = 0#64 := by
  simp only [List.mem_cons, List.not_mem_nil, or_false] at hseg
  rcases hseg with rfl | rfl | rfl | rfl <;> simp [State.segmentBase, hm]

/-- FS and GS keep their bases in every mode. -/
theorem State.segmentBase_fs (s : State) : s.segmentBase .fs = s.segBase.fs := by
  unfold State.segmentBase
  cases s.mode <;> rfl

theorem State.segmentBase_gs (s : State) : s.segmentBase .gs = s.segBase.gs := by
  unfold State.segmentBase
  cases s.mode <;> rfl

theorem State.instrPtr_mode64 {s : State} (hm : s.mode = .mode64) : s.instrPtr = s.ip := by
  rw [State.instrPtr, hm, truncAddr_mode64]

theorem State.instrPtr_toNat_mode32 {s : State} (hm : s.mode = .mode32) :
    s.instrPtr.toNat = s.ip.toNat % 2 ^ 32 := by
  rw [State.instrPtr, hm, truncAddr_mode32_toNat]

theorem State.fetchAddr_mode64 {s : State} (hm : s.mode = .mode64) : s.fetchAddr = s.ip := by
  rw [State.fetchAddr, State.instrPtr_mode64 hm]
  exact State.linear_of_base_zero hm (State.segmentBase_mode64_zero hm (by decide)) s.ip

theorem State.fetchAddr_toNat_mode32 {s : State} (hm : s.mode = .mode32) :
    s.fetchAddr.toNat = (s.segBase.cs.toNat + s.ip.toNat) % 2 ^ 32 := by
  have hb : s.segmentBase .cs = s.segBase.cs := by simp [State.segmentBase, hm]
  rw [State.fetchAddr, State.linear_toNat_mode32 hm, hb, State.instrPtr_toNat_mode32 hm, Nat.add_mod_mod]

theorem State.segmentBase_mode32_mem {s : State} (hm : s.mode = .mode32) {p : Seg × Qword}
    (hp : p ∈ [(Seg.es, s.segBase.es), (.cs, s.segBase.cs), (.ss, s.segBase.ss), (.ds, s.segBase.ds),
      (.fs, s.segBase.fs), (.gs, s.segBase.gs)]) : s.segmentBase p.1 = p.2 := by
  simp only [List.mem_cons, List.not_mem_nil, or_false] at hp
  rcases hp with rfl | rfl | rfl | rfl | rfl | rfl <;> simp [State.segmentBase, hm]

/-- Settles O58: the sum of base and offset in the mode's width, with the bases SegBase gives each segment. -/
theorem segmentBases : Obligations.SegmentBases := by
  intro s ea
  refine ⟨fun hm => ⟨?_, ?_, fun seg hseg => ?_, State.fetchAddr_mode64 hm⟩,
    fun hm => ⟨fun p hp => ?_, State.fetchAddr_toNat_mode32 hm⟩, fun c a hea => ?_⟩
  · rw [State.linear_toNat_mode64 hm, State.segmentBase_fs]
  · rw [State.linear_toNat_mode64 hm, State.segmentBase_gs]
  · exact State.linear_of_base_zero hm (State.segmentBase_mode64_zero hm hseg) ea
  · rw [State.linear_toNat_mode32 hm, State.segmentBase_mode32_mem hm hp]
  · rw [State.operandAddr, hea]

/-! ## Placement (10_state.md R26) -/

/-- Once the first byte is fetchable and the bytes decode, where the instruction lies decides. -/
theorem State.fetchInstr_of_not_placementOk {s : State} {i : Instr} {rest : List Byte}
    (hm : s.mode.admitted = true)
    (hc : s.memCheckOk true .cs s.instrPtr s.fetchAddr [⟨0, 1⟩] = true)
    (hd : decode s.mode s.fetchWindow = .ok (i, rest)) (hp : s.placementOk i.ilen = false) :
    s.fetchInstr = .refuse .placement := by
  have hfirst : s.memCheck true .cs s.instrPtr s.fetchAddr [⟨0, 1⟩] = .ok () :=
    State.memCheck_eq_ok.2 hc
  simp [State.fetchInstr, hm, hfirst, Eff.andThen, hd, hp]

/-- Settles O14: the listed placements are those that straddle an edge, `ip` in Mode32 read as 32 bits. -/
theorem straddlingPlacementRefused : Obligations.StraddlingPlacementRefused := by
  intro s i rest htrap hm hc hd hplace
  have hstraddles : s.Straddles i.ilen := by
    rcases hplace with h64 | ⟨h32, hover⟩ | hlimit
    · exact .inl h64
    · exact .inr (.inl ⟨h32, by rwa [State.instrPtr_toNat_mode32 h32]⟩)
    · exact .inr (.inr hlimit)
  have hp : s.placementOk i.ilen = false := by
    rw [Bool.eq_false_iff, ne_eq, State.placementOk_iff hm, not_not]
    exact hstraddles
  exact step_of_fetchInstr_refuse htrap (State.fetchInstr_of_not_placementOk hm hc hd hp)

end Sys2Proof.Machine

/-! SUPPORT. The state after reset (10_state.md R35), and which updates keep the invariant. -/

namespace Sys2Proof.Machine

/-! ## The registers at reset -/

@[simp] theorem State.readZmm_reset (n : BitVec 5) : State.reset.readZmm n = 0#512 := by
  simp [State.readZmm, State.reset, Vector.get_eq_getElem]

@[simp] theorem State.readK_reset (n : BitVec 3) : State.reset.readK n = 0#64 := by
  simp [State.readK, State.reset, Vector.get_eq_getElem]

@[simp] theorem State.readGpr_reset (n : BitVec 4) : State.reset.readGpr n = 0#64 := by
  simp [State.readGpr, State.reset, Vector.get_eq_getElem]

/-- Settles O19: register by register; the fetch address is the CS base FFFF0000H plus FFF0H. -/
theorem resetTable : Obligations.ResetTable :=
  ⟨rfl, State.readZmm_reset, State.readK_reset, fun n _ => State.readGpr_reset n,
    rfl, rfl, rfl, rfl, rfl, rfl, rfl, rfl⟩

/-- Settles O15: the reset registers are zero, so no bit stands above MAXVL. -/
theorem resetMeetsInv : Obligations.ResetMeetsInv := by
  refine ⟨Memory.wf_reset, by decide, ?_, ?_, ?_⟩
  · intro (hmode : Mode.other .realAddress = .mode32)
    cases hmode
  · intro n
    rw [State.readZmm_reset, BitVec.zero_and]
  · intro t (ht : none = some t)
    cases ht

/-! ## What each update leaves of the invariant's parts -/

/-- IE and PE are below bit 16, so recording them cannot touch MXCSR[31:16]. -/
theorem FpFlags.bits_upper (fl : FpFlags) : fl.bits.extractLsb' 16 16 = 0#16 := by
  rcases fl with ⟨i, p⟩
  cases i <;> cases p <;> rfl

/-- The part of a written register that a mask leaves out is the old value's. -/
theorem merge_and_not_mask {w : Nat} (v old mask : BitVec w) :
    ((v &&& mask) ||| (old &&& ~~~mask)) &&& ~~~mask = old &&& ~~~mask := by
  ext b hb
  cases h : mask[b] <;> simp [h]

theorem State.readZmm_writeZmm_upper (s : State) (d n : BitVec 5) (v : Vec) :
    (s.writeZmm d v).readZmm n &&& ~~~(MaxVl.mask s.cfg.maxvl) =
      s.readZmm n &&& ~~~(MaxVl.mask s.cfg.maxvl) := by
  rw [State.readZmm_writeZmm]
  split
  · rename_i hn
    rw [hn, merge_and_not_mask]
  · rfl

/-! ## The invariant, update by update -/

theorem State.Inv.recordFlags {s : State} (h : s.Inv) (fl : FpFlags) : (s.recordFlags fl).Inv := by
  obtain ⟨hmem, hmx, hip, hzmm, htrap⟩ := h
  refine ⟨hmem, ?_, hip, hzmm, htrap⟩
  rw [State.recordFlags_mxcsr, BitVec.extractLsb'_or, hmx, FpFlags.bits_upper, BitVec.or_zero]

theorem State.Inv.writeZmm {s : State} (h : s.Inv) (d : BitVec 5) (v : Vec) :
    (s.writeZmm d v).Inv := by
  obtain ⟨hmem, hmx, hip, hzmm, htrap⟩ := h
  refine ⟨hmem, hmx, hip, fun n => ?_, htrap⟩
  rw [State.writeZmm_cfg, State.readZmm_writeZmm_upper, hzmm]

theorem State.Inv.advance {s : State} (h : s.Inv) (n : Nat) : (s.advance n).Inv := by
  obtain ⟨hmem, hmx, -, hzmm, htrap⟩ := h
  refine ⟨hmem, hmx, fun hmode => ?_, hzmm, htrap⟩
  rw [State.advance_mode] at hmode
  rw [State.advance_ip, hmode]
  exact truncAddr_mode32_lt _

/-- The old trap record is overwritten, so only the new one has to be of 60_exceptions.md R140. -/
theorem State.Inv.takeException {s : State} (h : s.Inv) {e : Exception} {c : ErrorCode}
    (hw : Trap.wf ⟨e, c⟩ = true) (a : Option Qword) : (s.takeException e c a).Inv := by
  obtain ⟨hmem, hmx, hip, hzmm, -⟩ := h
  refine ⟨hmem, hmx, hip, hzmm, fun t ht => ?_⟩
  rw [State.takeException_trap] at ht
  rwa [← Option.some.inj ht]

theorem Wrote.inv {s t : State} (h : Wrote s t) (hs : s.Inv) : t.Inv := by
  obtain ⟨fl, d, v, n, rfl⟩ := h
  exact ((hs.recordFlags fl).writeZmm d v).advance n

theorem Raised.inv {s t : State} (h : Raised s t) (hs : s.Inv) : t.Inv := by
  obtain ⟨fl, e, c, a, rfl, hw⟩ := h
  exact (hs.recordFlags fl).takeException hw a

/-- Settles O16: a step completes an instruction or takes an exception, and each is made of updates that keep
the invariant. -/
theorem stepKeepsInv : Obligations.StepKeepsInv := by
  intro s t hs hstep
  obtain ⟨-, hwrote | hraised⟩ := step_next hstep
  · exact hwrote.inv hs
  · exact hraised.inv hs

/-! ## Disabled forms (60_exceptions.md R143) -/

/-- Nothing that Precheck tests before SimdUD takes anything but #UD. -/
theorem State.precheck_of_simdUD {s : State} {form : Form} (h : s.simdUD form = true) (u : Bool) :
    s.precheck form u = some .ud := by
  unfold State.precheck
  cases u <;> cases Config.extensionPresent s.cfg form <;> simp [h]

theorem State.prologue_of_precheck {s : State} {form : Form} {u : Bool} {e : Exception}
    (hm : s.mode.admitted = true) (h : s.precheck form u = some e) :
    s.prologue form u = .raise (s.takeException e .none none) := by
  simp [State.prologue, hm, h]

/-- What Precheck raises is the instruction's outcome. -/
theorem traps_of_precheck {i : Instr} {s : State} {c : SourceCtx} {rm : RmOperand} {e : Exception}
    (hc : i.sourceCtx s = some (c, rm)) (hm : s.mode.admitted = true)
    (hp : s.precheck c.form i.reservedEncoding = some e) : Traps i s e .none := by
  obtain ⟨fl, d, v, -, -, hexec, -⟩ := exec_shape hc
  rw [Traps, hexec, State.prologue_of_precheck hm hp]
  rfl

theorem traps_of_sourceCtx_none {i : Instr} {s : State} (hc : i.sourceCtx s = none)
    (hm : s.mode.admitted = true) : Traps i s .ud .none := by
  cases i with
  | vcvtpd2dqReservedLength pre e bc reg rm =>
    change s.undefinedEncoding.outcome = _
    simp [State.undefinedEncoding, hm, Eff.outcome, State.takeException]
  | _ => cases hc

/-- CR4 is 0 at reset, so OSFXSR and OSXSAVE are clear. -/
theorem State.simdUD_of_cr4_zero {s : State} (h : s.cr4 = 0#64) (form : Form) :
    s.simdUD form = true := by
  cases form <;> simp [State.simdUD, h]

/-- Settles O18: SimdUD holds of every form at reset, and row 11 has no form to enable. -/
theorem resetDisablesEveryForm : Obligations.ResetDisablesEveryForm := by
  intro i mode hm
  cases hc : i.sourceCtx { State.reset with mode := mode } with
  | none => exact traps_of_sourceCtx_none hc hm
  | some x => exact traps_of_precheck hc hm (State.precheck_of_simdUD (State.simdUD_of_cr4_zero rfl _) _)

end Sys2Proof.Machine

/-! SUPPORT. The register numbers an encoding can name (10_state.md R21, 30_encoding.md R74). -/

namespace Sys2Proof.Machine

/-! ## Register numbers from their bits -/

theorem extend3_toNat (b : Bool) (n : BitVec 3) :
    (BitVec.ofBool b ++ n).toNat = 8 * b.toNat + n.toNat := by
  cases b <;> revert n <;> decide

theorem extend3_twice_toNat (a b : Bool) (n : BitVec 3) :
    (BitVec.ofBool a ++ BitVec.ofBool b ++ n).toNat = 16 * a.toNat + 8 * b.toNat + n.toNat := by
  cases a <;> cases b <;> revert n <;> decide

theorem Ext.dest_toNat (e : Ext) (reg : BitVec 3) :
    (e.dest reg).toNat = 16 * e.rHi.toNat + 8 * e.r.toNat + reg.toNat :=
  extend3_twice_toNat _ _ _

theorem Ext.source_toNat (e : Ext) (form : Form) (n : BitVec 3) :
    (e.source form n).toNat = 16 * (form.isEvex && e.x).toNat + 8 * e.b.toNat + n.toNat :=
  extend3_twice_toNat _ _ _

theorem Ext.baseReg_toNat (e : Ext) (n : BitVec 3) :
    (e.baseReg n).toNat = 8 * e.b.toNat + n.toNat :=
  extend3_toNat _ _

theorem Ext.indexReg_toNat (e : Ext) (n : BitVec 3) :
    (e.indexReg n).toNat = 8 * e.x.toNat + n.toNat :=
  extend3_toNat _ _

/-! ## The extension bits an instruction carries -/

/-- The destination number is the `reg` field under the extension bits that the source has too. -/
theorem destReg_eq_ext_dest {i : Instr} {s : State} {c : SourceCtx} {rm : RmOperand} {d : BitVec 5}
    (hc : i.sourceCtx s = some (c, rm)) (hd : i.destReg = some d) : ∃ reg, d = c.ext.dest reg := by
  cases i with
  | vcvtpd2dqReservedLength => cases hc
  | _ =>
    obtain ⟨rfl, -⟩ := Prod.mk.inj (Option.some.inj hc)
    exact ⟨_, (Option.some.inj hd).symm⟩

/-- `R'` is a bit of the EVEX encoding alone. -/
theorem ext_rHi_of_not_evex {i : Instr} {s : State} {c : SourceCtx} {rm : RmOperand}
    (hc : i.sourceCtx s = some (c, rm)) (hf : c.form.isEvex = false) : c.ext.rHi = false := by
  cases i with
  | vcvtpd2dqReservedLength => cases hc
  | vcvtpd2dqEvex128 | vcvtpd2dqEvex256 | vcvtpd2dqEvex512 | vcvtpd2dqEvex512Er =>
    obtain ⟨rfl, -⟩ := Prod.mk.inj (Option.some.inj hc)
    cases hf
  | _ =>
    obtain ⟨rfl, -⟩ := Prod.mk.inj (Option.some.inj hc)
    rfl

theorem Ext.ofVex2_of_wf_mode32 {v : Vex2} (h : v.wf .mode32 = true) : Ext.ofVex2 v = Ext.none := by
  simp only [Vex2.wf, Bool.and_eq_true, Bool.not_eq_true'] at h
  simp [Ext.ofVex2, Ext.none, h.1]

theorem Ext.ofVex3_of_wf_mode32 {v : Vex3} (h : v.wf .mode32 = true) : Ext.ofVex3 v = Ext.none := by
  simp only [Vex3.wf, Bool.and_eq_true, Bool.not_eq_true'] at h
  obtain ⟨⟨hr, hx⟩, hb⟩ := h
  simp [Ext.ofVex3, Ext.none, hr, hx, hb]

theorem Ext.ofEvex_of_wf_mode32 {e : Evex} (h : e.wf .mode32 = true) : Ext.ofEvex e = Ext.none := by
  simp only [Evex.wf, Bool.and_eq_true, Bool.not_eq_true'] at h
  obtain ⟨⟨⟨⟨hr, hx⟩, hb⟩, hrHi⟩, -⟩ := h
  simp [Ext.ofEvex, Ext.none, hr, hx, hb, hrHi]

/-- Mode32 admits no extension bit: REX does not exist there, and VEX and EVEX must leave theirs clear. -/
theorem ext_of_wf_mode32 {i : Instr} {s : State} {c : SourceCtx} {rm : RmOperand}
    (hwf : i.wf .mode32 = true) (hc : i.sourceCtx s = some (c, rm)) : c.ext = Ext.none := by
  cases i with
  | vcvtpd2dqReservedLength => cases hc
  | cvtpd2dqRex => cases hwf
  | cvtpd2dq =>
    obtain ⟨rfl, -⟩ := Prod.mk.inj (Option.some.inj hc)
    rfl
  | vcvtpd2dqVex128C5 | vcvtpd2dqVex256C5 =>
    obtain ⟨rfl, -⟩ := Prod.mk.inj (Option.some.inj hc)
    simp only [Instr.wf, Bool.and_eq_true] at hwf
    obtain ⟨⟨-, hv⟩, -⟩ := hwf
    exact Ext.ofVex2_of_wf_mode32 hv
  | vcvtpd2dqVex128C4 | vcvtpd2dqVex256C4 =>
    obtain ⟨rfl, -⟩ := Prod.mk.inj (Option.some.inj hc)
    simp only [Instr.wf, Bool.and_eq_true] at hwf
    obtain ⟨⟨-, hv⟩, -⟩ := hwf
    exact Ext.ofVex3_of_wf_mode32 hv
  | vcvtpd2dqEvex128 | vcvtpd2dqEvex256 | vcvtpd2dqEvex512 =>
    obtain ⟨rfl, -⟩ := Prod.mk.inj (Option.some.inj hc)
    simp only [Instr.wf, Bool.and_eq_true] at hwf
    obtain ⟨⟨⟨-, he⟩, -⟩, -⟩ := hwf
    exact Ext.ofEvex_of_wf_mode32 he
  | vcvtpd2dqEvex512Er =>
    obtain ⟨rfl, -⟩ := Prod.mk.inj (Option.some.inj hc)
    simp only [Instr.wf, Bool.and_eq_true] at hwf
    exact Ext.ofEvex_of_wf_mode32 hwf.2

/-- Settles O5: without extension bits a number is its three-bit field, and without `R'` and the EVEX `X` it has
four bits. -/
theorem reachableRegisterNumbers : Obligations.ReachableRegisterNumbers := by
  intro mode i f d s c rm hwf hform hd hc
  obtain ⟨reg, rfl⟩ := destReg_eq_ext_dest hc hd
  obtain ⟨-, -, -, hform', -⟩ := exec_shape hc
  obtain rfl : f = c.form := Option.some.inj (hform.symm.trans hform')
  refine ⟨?_, fun hev => ?_⟩
  · rintro rfl
    simp only [Ext.dest_toNat, Ext.source_toNat, Ext.baseReg_toNat, Ext.indexReg_toNat,
      ext_of_wf_mode32 hwf hc, Ext.none, Bool.and_false, Bool.toNat_false, Nat.mul_zero, Nat.zero_add]
    exact ⟨reg.isLt, fun n => ⟨n.isLt, n.isLt, n.isLt⟩⟩
  · have hr := c.ext.r.toNat_lt
    have hb := c.ext.b.toNat_lt
    simp only [Ext.dest_toNat, Ext.source_toNat, ext_rHi_of_not_evex hc hev, hev, Bool.false_and,
      Bool.toNat_false]
    exact ⟨by omega, fun n => by omega⟩

end Sys2Proof.Machine

/-! SUPPORT. Two runs of one instruction, from states that differ in the opmask registers and MXCSR alone: which
of their bits an instruction reads and writes (10_state.md R22, R24). -/

namespace Sys2Proof.Machine

/-! ## Two parts of a step side by side -/

/-- Both pass, with values that `r` relates; or both raise, with states that `q` relates; or both are refused for
the same reason. -/
inductive Eff.Rel {α : Type} (r : α → α → Prop) (q : State → State → Prop) : Eff α → Eff α → Prop
  | ok {a a' : α} (h : r a a') : Eff.Rel r q (.ok a) (.ok a')
  | raise {t t' : State} (h : q t t') : Eff.Rel r q (.raise t) (.raise t')
  | refuse (x : Refusal) : Eff.Rel r q (.refuse x) (.refuse x)

theorem Eff.Rel.andThen {α β : Type} {r : α → α → Prop} {r' : β → β → Prop}
    {q : State → State → Prop} {e e' : Eff α} {f f' : α → Eff β} (h : Eff.Rel r q e e')
    (hf : ∀ a a', r a a' → Eff.Rel r' q (f a) (f' a')) :
    Eff.Rel r' q (e.andThen f) (e'.andThen f') := by
  cases h with
  | ok h => exact hf _ _ h
  | raise h => exact .raise h
  | refuse x => exact .refuse x

/-- Related parts have related outcomes. -/
theorem Eff.Rel.outcome {q : State → State → Prop} {e e' : Eff State} (h : Eff.Rel q q e e') :
    (∀ t, e.outcome = .next t → ∃ t', e'.outcome = .next t' ∧ q t t') ∧
    ∀ x, e.outcome = .refused x → e'.outcome = .refused x := by
  cases h with
  | ok h | raise h => simpa [Eff.outcome] using h
  | refuse x => simp [Eff.outcome]

/-! ## States that differ in the opmask registers and MXCSR -/

/-- The state with other opmask registers and another MXCSR. -/
def State.withKMxcsr (s : State) (k : Vector Qword 8) (m : Dword) : State :=
  { s with k := k, mxcsr := m }

/-- What two runs reach that began at `s` and at `s.withKMxcsr k m`: neither wrote an opmask register, both set
the same flags in their MXCSR, and nothing else tells them apart. -/
def Twin (s : State) (k : Vector Qword 8) (m : Dword) (t t' : State) : Prop :=
  ∃ fl : FpFlags, t.k = s.k ∧ t.mxcsr = s.mxcsr ||| fl.bits ∧ t' = t.withKMxcsr k (m ||| fl.bits)

/-- The second state reads the same DAZ, IM and PM. -/
structure SameControls (s s' : State) : Prop where
  daz : s'.daz = s.daz
  im : s'.im = s.im
  pm : s'.pm = s.pm

@[simp] theorem State.readZmm_withKMxcsr (s : State) (k : Vector Qword 8) (m : Dword) (n : BitVec 5) :
    (s.withKMxcsr k m).readZmm n = s.readZmm n := rfl

section Twins

variable {s : State} {k : Vector Qword 8} {m : Dword}

theorem Twin.recordFlags (fl : FpFlags) :
    Twin s k m (s.recordFlags fl) ((s.withKMxcsr k m).recordFlags fl) :=
  ⟨fl, rfl, rfl, rfl⟩

theorem Twin.start : Twin s k m s (s.withKMxcsr k m) := by
  simpa using Twin.recordFlags (s := s) (k := k) (m := m) FpFlags.none

theorem Twin.takeException {t t' : State} (h : Twin s k m t t') (e : Exception) (c : ErrorCode)
    (a : Option Qword) : Twin s k m (t.takeException e c a) (t'.takeException e c a) := by
  obtain ⟨fl, hk, hm, rfl⟩ := h
  exact ⟨fl, hk, hm, rfl⟩

theorem Twin.writeZmm {t t' : State} (h : Twin s k m t t') (d : BitVec 5) {v v' : Vec} (hv : v' = v) :
    Twin s k m (t.writeZmm d v) (t'.writeZmm d v') := by
  subst hv
  obtain ⟨fl, hk, hm, rfl⟩ := h
  exact ⟨fl, hk, hm, rfl⟩

theorem Twin.advance {t t' : State} (h : Twin s k m t t') (n : Nat) :
    Twin s k m (t.advance n) (t'.advance n) := by
  obtain ⟨fl, hk, hm, rfl⟩ := h
  exact ⟨fl, hk, hm, rfl⟩

/-! ## The parts of an instruction -/

theorem prologue_twin (form : Form) (u : Bool) :
    Eff.Rel (fun _ _ => True) (Twin s k m) (s.prologue form u) ((s.withKMxcsr k m).prologue form u) := by
  have hp : (s.withKMxcsr k m).precheck form u = s.precheck form u := rfl
  have hm : (s.withKMxcsr k m).mode = s.mode := rfl
  have hc : (s.withKMxcsr k m).cfg = s.cfg := rfl
  simp only [State.prologue, hp, hm, hc]
  cases s.mode.admitted with
  | false => exact .refuse _
  | true =>
    cases s.precheck form u with
    | some e => exact .raise (Twin.start.takeException e .none none)
    | none =>
      cases Config.maxvlOk s.cfg form with
      | false => exact .refuse _
      | true => exact .ok trivial

theorem undefinedEncoding_twin :
    Eff.Rel (Twin s k m) (Twin s k m) s.undefinedEncoding (s.withKMxcsr k m).undefinedEncoding := by
  have hm : (s.withKMxcsr k m).mode = s.mode := rfl
  simp only [State.undefinedEncoding, hm]
  cases s.mode.admitted with
  | false => exact .refuse _
  | true => exact .raise (Twin.start.takeException _ _ _)

theorem memCheck_twin (fetch : Bool) (seg : Seg) (ea la : Qword) (ps : List Part) :
    Eff.Rel (fun _ _ => True) (Twin s k m) (s.memCheck fetch seg ea la ps)
      ((s.withKMxcsr k m).memCheck fetch seg ea la ps) := by
  have hseg : (s.withKMxcsr k m).segmentFault fetch seg ea la ps = s.segmentFault fetch seg ea la ps :=
    rfl
  have hpage : (s.withKMxcsr k m).translationFault fetch seg ea la ps =
      s.translationFault fetch seg ea la ps := rfl
  have hdev : ∀ o, (s.withKMxcsr k m).isDevice ((s.withKMxcsr k m).byteAddr la o).toNat =
      s.isDevice (s.byteAddr la o).toNat := fun _ => rfl
  simp only [State.memCheck, hseg, hpage, hdev]
  cases s.segmentFault fetch seg ea la ps with
  | some cause => exact .raise (Twin.start.takeException _ _ _)
  | none =>
    cases s.translationFault fetch seg ea la ps with
    | some ca => exact .raise (Twin.start.takeException _ _ _)
    | none =>
      cases (partBytes ps).any fun o => s.isDevice (s.byteAddr la o).toNat with
      | false => exact .ok trivial
      | true => exact .refuse _

/-- Which elements of the form's KL are enabled is all that the checks ask of `enabled`. -/
theorem SourceCtx.checkedParts_congr {c : SourceCtx} {en : Nat → Bool}
    (hen : ∀ j, j < c.form.kl → en j = c.enabled j) (suppress : Bool) :
    SourceCtx.checkedParts { c with enabled := en } suppress = c.checkedParts suppress := by
  have hmem : ∀ j ∈ List.range c.form.kl, en j = c.enabled j :=
    fun j hj => hen j (List.mem_range.1 hj)
  have hmap : (List.range c.form.kl).map en = (List.range c.form.kl).map c.enabled :=
    List.map_congr_left hmem
  have hall : (List.range c.form.kl).all en = (List.range c.form.kl).all c.enabled := by
    simpa [List.all_map] using congrArg (List.all · id) hmap
  have hany : (List.range c.form.kl).any en = (List.range c.form.kl).any c.enabled := by
    simpa [List.any_map] using congrArg (List.any · id) hmap
  have hwidth : SourceCtx.width { c with enabled := en } = c.width := rfl
  simp only [SourceCtx.checkedParts, hwidth, hall, hany, List.filter_congr hmem]

theorem checkOperand_twin {c : SourceCtx} {en : Nat → Bool}
    (hen : ∀ j, j < c.form.kl → en j = c.enabled j) (a : Address) :
    Eff.Rel (fun _ _ => True) (Twin s k m) (s.checkOperand c a)
      ((s.withKMxcsr k m).checkOperand { c with enabled := en } a) := by
  have haddr : (s.withKMxcsr k m).operandAddr { c with enabled := en } a = s.operandAddr c a := rfl
  have hseg : (s.withKMxcsr k m).operandSegment { c with enabled := en } a = s.operandSegment c a := rfl
  have hea : (s.withKMxcsr k m).effAddr { c with enabled := en } a = s.effAddr c a := rfl
  have hac : (s.withKMxcsr k m).alignCheck = s.alignCheck := rfl
  have hcfg : (s.withKMxcsr k m).cfg = s.cfg := rfl
  have hwidth : SourceCtx.width { c with enabled := en } = c.width := rfl
  simp only [State.checkOperand, haddr, hseg, hea, hac, hcfg, hwidth, SourceCtx.checkedParts_congr hen]
  by_cases h16 : c.form = .f1 ∧ (s.operandAddr c a).toNat % 16 ≠ 0
  · rw [if_pos h16, if_pos h16]
    exact .raise (Twin.start.takeException _ _ _)
  · rw [if_neg h16, if_neg h16]
    refine (memCheck_twin _ _ _ _ _).andThen fun _ _ _ => ?_
    by_cases hal : c.form ≠ .f1 ∧ s.alignCheck = true ∧ (s.operandAddr c a).toNat % c.width ≠ 0
    · rw [if_pos hal]
      exact .refuse _
    · rw [if_neg hal]
      exact .ok trivial

theorem loadSource_twin {c : SourceCtx} {en : Nat → Bool}
    (hen : ∀ j, j < c.form.kl → en j = c.enabled j) (rm : RmOperand) :
    Eff.Rel (· = ·) (Twin s k m) (s.loadSource c rm)
      ((s.withKMxcsr k m).loadSource { c with enabled := en } rm) := by
  cases rm with
  | reg n => exact .ok rfl
  | mem a => exact (checkOperand_twin hen a).andThen fun _ _ _ => .ok rfl

theorem exceptionResponse_twin (hctl : SameControls s (s.withKMxcsr k m)) {fl fl' : FpFlags}
    (hfl : fl' = fl) :
    Eff.Rel (Twin s k m) (Twin s k m) (s.exceptionResponse fl)
      ((s.withKMxcsr k m).exceptionResponse fl') := by
  subst hfl
  unfold State.exceptionResponse
  rw [hctl.im, hctl.pm]
  by_cases hie : (fl'.ie && !s.im) = true
  · rw [if_pos hie, if_pos hie]
    exact .raise ((Twin.recordFlags _).takeException _ _ _)
  · rw [if_neg hie, if_neg hie]
    by_cases hpe : (fl'.pe && !s.pm) = true
    · rw [if_pos hpe, if_pos hpe]
      exact .raise ((Twin.recordFlags _).takeException _ _ _)
    · rw [if_neg hpe, if_neg hpe]
      exact .ok (Twin.recordFlags fl')

/-! ## The three bodies -/

theorem flagsOf_congr {kl : Nat} {l l' : Nat → Dword × FpFlags} (h : ∀ j, j < kl → l j = l' j) :
    flagsOf kl l = flagsOf kl l' :=
  List.foldl_ext _ _ _ fun acc j hj => by rw [h j (List.mem_range.1 hj)]

theorem packDwords_congr {kl : Nat} {r r' : Nat → Dword} (h : ∀ j, j < kl → r j = r' j) :
    packDwords kl r = packDwords kl r' :=
  List.foldr_ext _ _ _ fun j hj acc => by rw [h j (List.mem_range.1 hj)]

theorem legacyBody_twin (hctl : SameControls s (s.withKMxcsr k m)) (hrc : (s.withKMxcsr k m).rc = s.rc)
    (ps : List Prefix) (ext : Ext) (ilen : Nat) (reg : BitVec 3) (rm : RmOperand) :
    Eff.Rel (Twin s k m) (Twin s k m) (legacyBody ps ext ilen reg rm s)
      (legacyBody ps ext ilen reg rm (s.withKMxcsr k m)) := by
  simp only [legacyBody, hrc, hctl.daz]
  refine (prologue_twin _ _).andThen fun _ _ _ => (loadSource_twin (fun _ _ => rfl) rm).andThen ?_
  rintro src _ rfl
  exact (exceptionResponse_twin hctl rfl).andThen fun _ _ ht => .ok ((ht.writeZmm _ rfl).advance _)

theorem vexBody_twin (hctl : SameControls s (s.withKMxcsr k m)) (hrc : (s.withKMxcsr k m).rc = s.rc)
    (form : Form) (pre : VexPrelude) (vvvv : BitVec 4) (ext : Ext) (ilen : Nat) (reg : BitVec 3)
    (rm : RmOperand) :
    Eff.Rel (Twin s k m) (Twin s k m) (vexBody form pre vvvv ext ilen reg rm s)
      (vexBody form pre vvvv ext ilen reg rm (s.withKMxcsr k m)) := by
  simp only [vexBody, hrc, hctl.daz]
  refine (prologue_twin _ _).andThen fun _ _ _ => (loadSource_twin (fun _ _ => rfl) rm).andThen ?_
  rintro src _ rfl
  exact (exceptionResponse_twin hctl rfl).andThen fun _ _ ht => .ok ((ht.writeZmm _ rfl).advance _)

/-- Under embedded rounding `er` answers for RC, so the hypothesis on it says nothing of MXCSR. -/
theorem evexBody_twin (hctl : SameControls s (s.withKMxcsr k m)) (form : Form) (pre : VexPrelude)
    (e : Evex) (bcast : Bool) (er : Option RoundingMode) (ilen : Nat) (reg : BitVec 3) (rm : RmOperand)
    (hrc : er.getD (s.withKMxcsr k m).rc = er.getD s.rc)
    (hen : ∀ j, j < form.kl →
      (s.withKMxcsr k m).laneEnabled e.aaa j = s.laneEnabled e.aaa j) :
    Eff.Rel (Twin s k m) (Twin s k m) (evexBody form pre e bcast er ilen reg rm s)
      (evexBody form pre e bcast er ilen reg rm (s.withKMxcsr k m)) := by
  simp only [evexBody, hrc, hctl.daz, State.readZmm_withKMxcsr]
  refine (prologue_twin _ _).andThen fun _ _ _ => (loadSource_twin hen rm).andThen ?_
  rintro src _ rfl
  refine Eff.Rel.andThen (r := Twin s k m) ?_ fun t t' ht =>
    .ok ((ht.writeZmm _ (packDwords_congr fun j hj => by simp only [hen j hj])).advance _)
  cases er with
  | none => exact exceptionResponse_twin hctl (flagsOf_congr fun j hj => by simp only [hen j hj])
  | some _ => exact .ok Twin.start

/-! ## Every instruction -/

/-- The outcome depends on the writemask bits that `maskRead` names and on the fields of MXCSR that R24 lists. -/
theorem exec_twin {i : Instr} (hctl : SameControls s (s.withKMxcsr k m))
    (hrc : i.isEr = false → (s.withKMxcsr k m).rc = s.rc)
    (hmask : ∀ aaa kl, i.maskRead = some (aaa, kl) → ∀ j, j < kl →
      (s.withKMxcsr k m).laneEnabled aaa j = s.laneEnabled aaa j) :
    (∀ t, exec i s = .next t → ∃ t', exec i (s.withKMxcsr k m) = .next t' ∧ Twin s k m t t') ∧
    ∀ r, exec i s = .refused r → exec i (s.withKMxcsr k m) = .refused r := by
  cases i with
  | cvtpd2dq => exact (legacyBody_twin hctl (hrc rfl) _ _ _ _ _).outcome
  | cvtpd2dqRex => exact (legacyBody_twin hctl (hrc rfl) _ _ _ _ _).outcome
  | vcvtpd2dqVex128C5 => exact (vexBody_twin hctl (hrc rfl) _ _ _ _ _ _ _).outcome
  | vcvtpd2dqVex128C4 => exact (vexBody_twin hctl (hrc rfl) _ _ _ _ _ _ _).outcome
  | vcvtpd2dqVex256C5 => exact (vexBody_twin hctl (hrc rfl) _ _ _ _ _ _ _).outcome
  | vcvtpd2dqVex256C4 => exact (vexBody_twin hctl (hrc rfl) _ _ _ _ _ _ _).outcome
  | vcvtpd2dqEvex128 =>
    exact (evexBody_twin hctl _ _ _ _ none _ _ _ (hrc rfl) (hmask _ _ rfl)).outcome
  | vcvtpd2dqEvex256 =>
    exact (evexBody_twin hctl _ _ _ _ none _ _ _ (hrc rfl) (hmask _ _ rfl)).outcome
  | vcvtpd2dqEvex512 =>
    exact (evexBody_twin hctl _ _ _ _ none _ _ _ (hrc rfl) (hmask _ _ rfl)).outcome
  | vcvtpd2dqEvex512Er pre e rc =>
    exact (evexBody_twin hctl _ _ _ _ (some rc) _ _ _ rfl (hmask _ _ rfl)).outcome
  | vcvtpd2dqReservedLength => exact undefinedEncoding_twin.outcome

end Twins

/-- Bits of the writemask register are read only where `aaa` names one (30_encoding.md R75). -/
theorem State.laneEnabled_withKMxcsr {s : State} {k : Vector Qword 8} {m : Dword} {aaa : BitVec 3} {j : Nat}
    (h : aaa ≠ 0#3 → (k.get aaa.toFin).getLsbD j = (s.readK aaa).getLsbD j) :
    (s.withKMxcsr k m).laneEnabled aaa j = s.laneEnabled aaa j := by
  by_cases h0 : aaa = 0#3
  · simp [State.laneEnabled, h0]
  · have hread : (s.withKMxcsr k m).readK aaa = k.get aaa.toFin := rfl
    rw [State.laneEnabled, State.laneEnabled, hread, h h0]

/-- Settles O54: the second run has the same MXCSR, and its opmask registers agree where `exec` looks. -/
theorem writemaskBitsRead : Obligations.WritemaskBitsRead := by
  intro i s k hk
  obtain ⟨hnext, hrefused⟩ := exec_twin (s := s) (k := k) (m := s.mxcsr) (i := i) ⟨rfl, rfl, rfl⟩
    (fun _ => rfl) fun aaa kl hread j hj => State.laneEnabled_withKMxcsr fun h0 => hk aaa kl hread h0 j hj
  refine ⟨fun t ht => ?_, hrefused⟩
  obtain ⟨t', ht', fl, htk, htm, rfl⟩ := hnext t ht
  rw [← htm] at ht'
  exact ⟨htk, ht'⟩

/-- Settles O55: the second run has the same opmask registers, and its MXCSR agrees where `exec` looks. -/
theorem mxcsrFieldsReadAndWritten : Obligations.MxcsrFieldsReadAndWritten := by
  intro i s m hrc him hpm hdaz
  obtain ⟨hnext, hrefused⟩ := exec_twin (s := s) (k := s.k) (m := m) (i := i) ⟨hdaz, him, hpm⟩
    (fun her => congrArg RoundingMode.ofBits (hrc her)) fun _ _ _ _ _ => rfl
  refine ⟨fun t ht => ?_, hrefused⟩
  obtain ⟨t', ht', fl, htk, htm, rfl⟩ := hnext t ht
  refine ⟨fl, htm, ht'.trans ?_⟩
  rw [← htk]
  rfl

end Sys2Proof.Machine

/-! SUPPORT. The decoder on the bytes the encoder writes: each byte gives back the fields it was made of, and so the
whole encoding gives back its instruction (30_encoding.md R60 to R77). -/

namespace Sys2Proof

/-! ## Legacy prefixes and REX (30_encoding.md R60, R64) -/

@[simp] theorem decodeOpcode_legacy (mode : Mode) (ps : List Prefix) (rex : Option Rex) (r : List Byte) :
    decodeOpcode mode ps rex (0x0F#8 :: r) = decodeLegacy ps rex r := rfl

@[simp] theorem decodeOpcode_vex2 (mode : Mode) (ps : List Prefix) (rex : Option Rex) (r : List Byte) :
    decodeOpcode mode ps rex (0xC5#8 :: r) = decodeVex2 mode ⟨ps, rex⟩ r := rfl

@[simp] theorem decodeOpcode_vex3 (mode : Mode) (ps : List Prefix) (rex : Option Rex) (r : List Byte) :
    decodeOpcode mode ps rex (0xC4#8 :: r) = decodeVex3 mode ⟨ps, rex⟩ r := rfl

@[simp] theorem decodeOpcode_evex (mode : Mode) (ps : List Prefix) (rex : Option Rex) (r : List Byte) :
    decodeOpcode mode ps rex (0x62#8 :: r) = decodeEvex mode ⟨ps, rex⟩ r := rfl

/-- Admitted prefixes are collected, and the opcode is looked up at the byte after them, which is no REX. -/
theorem decode_prefixes {mode : Mode} {ps : List Prefix} {b : Byte} {r : List Byte}
    (hm : mode.admitted = true) (hps : prefixesOk ps = true) (has : addrSizeOk mode ps = true)
    (hb : prefixOfByte b = none) (hrex : rexOfByte b = none) :
    decode mode (ps.map Prefix.toByte ++ b :: r) = decodeOpcode mode ps none (b :: r) := by
  simp [decode, splitPrefixes_map _ _ _ hb, hm, hps, has, hrex]

/-- In Mode64 a REX byte after the prefixes belongs to the opcode after it. -/
theorem decode_prefixes_rex {ps : List Prefix} {x : Rex} {r : List Byte}
    (hps : prefixesOk ps = true) (has : addrSizeOk .mode64 ps = true) :
    decode .mode64 (ps.map Prefix.toByte ++ x.toByte :: r) = decodeOpcode .mode64 ps (some x) r := by
  simp [decode, splitPrefixes_map _ _ _ (prefixOfByte_rex x), Mode.admitted, hps, has, rexOfByte_toByte]

/-- What stands before C5H, C4H or 62H is handed to the opcode lookup as it was written. -/
theorem decode_prelude {mode : Mode} {pre : VexPrelude} {b : Byte} {r : List Byte}
    (hm : mode.admitted = true) (hpre : pre.wf mode = true)
    (hb : prefixOfByte b = none) (hrex : rexOfByte b = none) :
    decode mode (pre.bytes ++ b :: r) = decodeOpcode mode pre.prefixes pre.rex (b :: r) := by
  obtain ⟨ps, rex⟩ := pre
  simp only [VexPrelude.wf, Bool.and_eq_true] at hpre
  obtain ⟨⟨hps, has⟩, hmode⟩ := hpre
  cases rex with
  | none => simpa [VexPrelude.bytes] using decode_prefixes (r := r) hm hps has hb hrex
  | some x =>
    cases mode with
    | mode64 => simpa [VexPrelude.bytes] using decode_prefixes_rex (x := x) (r := b :: r) hps has
    | mode32 => cases hmode
    | other m => cases hm

/-! ## The legacy form (30_encoding.md R63, R81) -/

/-- F2H may follow the prefixes that form F1 admits, being none of them. -/
theorem prefixesOk_append_repne {ps : List Prefix} (hps : prefixesOk ps = true)
    (hleg : ps.all Prefix.legacyOk = true) : prefixesOk (ps ++ [.repne]) = true := by
  have hnew : Prefix.repne ∉ ps := fun h => by
    simpa [Prefix.legacyOk] using List.all_eq_true.1 hleg _ h
  simp only [prefixesOk, Bool.and_eq_true, decide_eq_true_eq] at hps ⊢
  refine ⟨List.nodup_append.2 ⟨hps.1, by simp, ?_⟩, by simpa [Prefix.isSeg] using hps.2⟩
  rintro p hp q hq rfl
  exact hnew (List.mem_singleton.1 hq ▸ hp)

theorem addrSizeOk_append_repne {mode : Mode} {ps : List Prefix} (has : addrSizeOk mode ps = true) :
    addrSizeOk mode (ps ++ [.repne]) = true := by
  cases mode with
  | mode32 => simpa [addrSizeOk] using has
  | _ => rfl

theorem decodeLegacy_encode {ps : List Prefix} {rex : Option Rex} {reg : BitVec 3} {rm : RmOperand}
    (rest : List Byte) (hleg : ps.all Prefix.legacyOk = true) (hrm : rm.wf = true) :
    decodeLegacy (ps ++ [.repne]) rex (0xE6#8 :: (encodeOperands reg rm ++ rest)) =
      .ok (rex.elim (.cvtpd2dq ps reg rm) fun x => .cvtpd2dqRex ps x reg rm, rest) := by
  cases rex <;> simp [decodeLegacy, hleg, decodeOperands_encode reg rm rest hrm]

/-! ## The VEX forms (30_encoding.md R61, R70 to R72) -/

/-- The fields of the byte after C5H. -/
theorem vex2_fields (r l : Bool) (vvvv : BitVec 4) :
    let p : Byte := BitVec.ofBool (!r) ++ vvvv ++ BitVec.ofBool l ++ 3#2
    p.getLsbD 7 = !r ∧ p.extractLsb' 3 4 = vvvv ∧ p.getLsbD 2 = l ∧ p.extractLsb' 0 2 = 3#2 ∧
      (p.extractLsb' 6 2 = 3#2 ↔ r = false ∧ vvvv.msb = true) := by
  revert r l vvvv; decide +kernel

/-- The fields of P0 after C4H. -/
theorem vex3_fields_p0 (r x b : Bool) :
    let p : Byte := BitVec.ofBool (!r) ++ BitVec.ofBool (!x) ++ BitVec.ofBool (!b) ++ 1#5
    p.getLsbD 7 = !r ∧ p.getLsbD 6 = !x ∧ p.getLsbD 5 = !b ∧ p.extractLsb' 0 5 = 1#5 ∧
      (p.extractLsb' 6 2 = 3#2 ↔ r = false ∧ x = false) := by
  revert r x b; decide +kernel

/-- The fields of P1 after C4H. -/
theorem vex3_fields_p1 (w l : Bool) (vvvv : BitVec 4) :
    let p : Byte := BitVec.ofBool w ++ vvvv ++ BitVec.ofBool l ++ 3#2
    p.getLsbD 7 = w ∧ p.extractLsb' 3 4 = vvvv ∧ p.getLsbD 2 = l ∧ p.extractLsb' 0 2 = 3#2 := by
  revert w l vvvv; decide +kernel

theorem decodeVex2_encode {mode : Mode} {pre : VexPrelude} {p : Byte} {reg : BitVec 3} {rm : RmOperand}
    (rest : List Byte) (htop : mode = .mode32 → p.extractLsb' 6 2 = 3#2) (hpp : p.extractLsb' 0 2 = 3#2)
    (hrm : rm.wf = true) :
    decodeVex2 mode pre (p :: 0xE6#8 :: (encodeOperands reg rm ++ rest)) =
      .ok (if p.getLsbD 2 then .vcvtpd2dqVex256C5 pre ⟨!p.getLsbD 7, p.extractLsb' 3 4⟩ reg rm
        else .vcvtpd2dqVex128C5 pre ⟨!p.getLsbD 7, p.extractLsb' 3 4⟩ reg rm, rest) := by
  have hlds : ¬ (mode = .mode32 ∧ p.extractLsb' 6 2 ≠ 3#2) := fun h => h.2 (htop h.1)
  simp only [decodeVex2, if_neg hlds, hpp, decodeOperands_encode reg rm rest hrm, ne_eq, not_true_eq_false,
    or_self, if_false]
  cases p.getLsbD 2 <;> rfl

theorem decodeVex3_encode {mode : Mode} {pre : VexPrelude} {p0 p1 : Byte} {reg : BitVec 3} {rm : RmOperand}
    (rest : List Byte) (htop : mode = .mode32 → p0.extractLsb' 6 2 = 3#2)
    (hb : mode = .mode32 → p0.getLsbD 5 = true) (hmap : p0.extractLsb' 0 5 = 1#5)
    (hpp : p1.extractLsb' 0 2 = 3#2) (hrm : rm.wf = true) :
    let v : Vex3 := ⟨!p0.getLsbD 7, !p0.getLsbD 6, !p0.getLsbD 5, p1.getLsbD 7, p1.extractLsb' 3 4⟩
    decodeVex3 mode pre (p0 :: p1 :: 0xE6#8 :: (encodeOperands reg rm ++ rest)) =
      .ok (if p1.getLsbD 2 then .vcvtpd2dqVex256C4 pre v reg rm else .vcvtpd2dqVex128C4 pre v reg rm, rest) := by
  intro v
  have hles : ¬ (mode = .mode32 ∧ p0.extractLsb' 6 2 ≠ 3#2) := fun h => h.2 (htop h.1)
  have hext : ¬ (mode = .mode32 ∧ (!p0.getLsbD 5) = true) := by
    rintro ⟨hmode, h⟩
    rw [hb hmode] at h
    cases h
  simp only [decodeVex3, if_neg hles, if_neg hext, hmap, hpp, decodeOperands_encode reg rm rest hrm, ne_eq,
    not_true_eq_false, or_self, if_false]
  cases p1.getLsbD 2 <;> rfl

theorem decode_vex2 {mode : Mode} {pre : VexPrelude} {v : Vex2} {l : Bool} {reg : BitVec 3} {rm : RmOperand}
    (rest : List Byte) (hm : mode.admitted = true) (hpre : pre.wf mode = true) (hv : v.wf mode = true)
    (hrm : rm.wf = true) :
    decode mode (pre.bytes ++ v.bytes l ++ [0xE6#8] ++ encodeOperands reg rm ++ rest) =
      .ok (if l then .vcvtpd2dqVex256C5 pre v reg rm else .vcvtpd2dqVex128C5 pre v reg rm, rest) := by
  obtain ⟨r, vvvv⟩ := v
  obtain ⟨hr, hvvvv, hl, hpp, htop⟩ := vex2_fields r l vvvv
  have hlds : mode = .mode32 → r = false ∧ vvvv.msb = true := by
    rintro rfl
    simpa [Vex2.wf] using hv
  simp only [Vex2.bytes, List.append_assoc, List.cons_append, List.nil_append]
  rw [decode_prelude hm hpre rfl rfl, decodeOpcode_vex2]
  refine (decodeVex2_encode rest (fun h => htop.2 (hlds h)) hpp hrm).trans ?_
  rw [hr, hvvvv, hl, Bool.not_not]

theorem decode_vex3 {mode : Mode} {pre : VexPrelude} {v : Vex3} {l : Bool} {reg : BitVec 3} {rm : RmOperand}
    (rest : List Byte) (hm : mode.admitted = true) (hpre : pre.wf mode = true) (hv : v.wf mode = true)
    (hrm : rm.wf = true) :
    decode mode (pre.bytes ++ v.bytes l ++ [0xE6#8] ++ encodeOperands reg rm ++ rest) =
      .ok (if l then .vcvtpd2dqVex256C4 pre v reg rm else .vcvtpd2dqVex128C4 pre v reg rm, rest) := by
  obtain ⟨r, x, b, w, vvvv⟩ := v
  obtain ⟨hr, hx, hb, hmap, htop⟩ := vex3_fields_p0 r x b
  obtain ⟨hw, hvvvv, hl, hpp⟩ := vex3_fields_p1 w l vvvv
  have hext : mode = .mode32 → (r = false ∧ x = false) ∧ b = false := by
    rintro rfl
    simpa [Vex3.wf] using hv
  simp only [Vex3.bytes, List.append_assoc, List.cons_append, List.nil_append]
  rw [decode_prelude hm hpre rfl rfl, decodeOpcode_vex3]
  refine (decodeVex3_encode rest (fun h => htop.2 (hext h).1) (fun h => ?_) hmap hpp hrm).trans ?_
  · rw [hb, (hext h).2, Bool.not_false]
  · simp only [hr, hx, hb, hw, hvvvv, hl, Bool.not_not]

/-! ## The EVEX forms (30_encoding.md R73, R76, R79) -/

/-- The fields of P0 after 62H. -/
theorem evex_fields_p0 (r x b rHi : Bool) :
    let p : Byte := BitVec.ofBool (!r) ++ BitVec.ofBool (!x) ++ BitVec.ofBool (!b) ++ BitVec.ofBool (!rHi) ++
      0#2 ++ 1#2
    p.getLsbD 7 = !r ∧ p.getLsbD 6 = !x ∧ p.getLsbD 5 = !b ∧ p.getLsbD 4 = !rHi ∧
      p.extractLsb' 0 2 = 1#2 ∧ p.extractLsb' 2 2 = 0#2 ∧
      (p.extractLsb' 6 2 = 3#2 ↔ r = false ∧ x = false) := by
  revert r x b rHi; decide +kernel

/-- The fields of P1 after 62H. -/
theorem evex_fields_p1 (w : Bool) (vvvv : BitVec 4) :
    let p : Byte := BitVec.ofBool w ++ vvvv ++ 1#1 ++ 3#2
    p.getLsbD 7 = w ∧ p.extractLsb' 3 4 = vvvv ∧ p.getLsbD 2 = true ∧ p.extractLsb' 0 2 = 3#2 := by
  revert w vvvv; decide +kernel

/-- The fields of P2 after 62H. -/
theorem evex_fields_p2 (z bc vHi : Bool) (ll : BitVec 2) (aaa : BitVec 3) :
    let p : Byte := BitVec.ofBool z ++ ll ++ BitVec.ofBool bc ++ BitVec.ofBool (!vHi) ++ aaa
    p.getLsbD 7 = z ∧ p.extractLsb' 5 2 = ll ∧ p.getLsbD 4 = bc ∧ p.getLsbD 3 = !vHi ∧
      p.extractLsb' 0 3 = aaa := by
  revert z bc vHi ll aaa; decide +kernel

theorem decodeEvex_encode {mode : Mode} {pre : VexPrelude} {p0 p1 p2 : Byte} {reg : BitVec 3} {rm : RmOperand}
    (rest : List Byte) (htop : mode = .mode32 → p0.extractLsb' 6 2 = 3#2)
    (hext : mode = .mode32 → p0.getLsbD 5 = true ∧ p0.getLsbD 4 = true ∧ p2.getLsbD 3 = true)
    (hmap : p0.extractLsb' 0 2 = 1#2) (hres0 : p0.extractLsb' 2 2 = 0#2) (hres1 : p1.getLsbD 2 = true)
    (hpp : p1.extractLsb' 0 2 = 3#2) (hrm : rm.wf = true) :
    decodeEvex mode pre (p0 :: p1 :: p2 :: 0xE6#8 :: (encodeOperands reg rm ++ rest)) =
      .ok (selectEvex pre ⟨!p0.getLsbD 7, !p0.getLsbD 6, !p0.getLsbD 5, !p0.getLsbD 4, p1.getLsbD 7,
        p1.extractLsb' 3 4, p2.getLsbD 7, !p2.getLsbD 3, p2.extractLsb' 0 3⟩ (p2.getLsbD 4)
        (p2.extractLsb' 5 2) reg rm, rest) := by
  have hbound : ¬ (mode = .mode32 ∧ p0.extractLsb' 6 2 ≠ 3#2) := fun h => h.2 (htop h.1)
  have hbits : ¬ (mode = .mode32 ∧
      ((!p0.getLsbD 5) = true ∨ (!p0.getLsbD 4) = true ∨ (!p2.getLsbD 3) = true)) := by
    rintro ⟨hmode, h⟩
    obtain ⟨h5, h4, h3⟩ := hext hmode
    simp only [h5, h4, h3, Bool.not_true, Bool.false_eq_true, or_self] at h
  simp only [decodeEvex, if_neg hbound, if_neg hbits, hmap, hres0, hres1, hpp,
    decodeOperands_encode reg rm rest hrm, ne_eq, not_true_eq_false, or_self, if_false, Bool.not_true,
    Bool.false_eq_true]

theorem decode_evex {mode : Mode} {pre : VexPrelude} {e : Evex} {bc : Bool} {ll : BitVec 2} {reg : BitVec 3}
    {rm : RmOperand} (rest : List Byte) (hm : mode.admitted = true) (hpre : pre.wf mode = true)
    (he : e.wf mode = true) (hrm : rm.wf = true) :
    decode mode (pre.bytes ++ e.bytes bc ll ++ [0xE6#8] ++ encodeOperands reg rm ++ rest) =
      .ok (selectEvex pre e bc ll reg rm, rest) := by
  obtain ⟨r, x, b, rHi, w, vvvv, z, vHi, aaa⟩ := e
  obtain ⟨hr, hx, hb, hrHi, hmap, hres0, htop⟩ := evex_fields_p0 r x b rHi
  obtain ⟨hw, hvvvv, hres1, hpp⟩ := evex_fields_p1 w vvvv
  obtain ⟨hz, hll, hbc, hvHi, haaa⟩ := evex_fields_p2 z bc vHi ll aaa
  have hext : mode = .mode32 → (r = false ∧ x = false) ∧ b = false ∧ rHi = false ∧ vHi = false := by
    rintro rfl
    simpa [Evex.wf, and_assoc] using he
  simp only [Evex.bytes, List.append_assoc, List.cons_append, List.nil_append]
  rw [decode_prelude hm hpre rfl rfl, decodeOpcode_evex]
  refine (decodeEvex_encode rest (fun h => htop.2 (hext h).1) (fun h => ?_) hmap hres0 hres1 hpp hrm).trans ?_
  · obtain ⟨-, hb0, hrHi0, hvHi0⟩ := hext h
    exact ⟨hb.trans (by rw [hb0]; rfl), hrHi.trans (by rw [hrHi0]; rfl), hvHi.trans (by rw [hvHi0]; rfl)⟩
  · simp only [hr, hx, hb, hrHi, hw, hvvvv, hz, hll, hbc, hvHi, haaa, Bool.not_not]

/-- Without a broadcast from a register, `L'L` alone selects the row (30_encoding.md R76). -/
theorem selectEvex_of_not_er {pre : VexPrelude} {e : Evex} {bc : Bool} {ll : BitVec 2} {reg : BitVec 3}
    {rm : RmOperand} (h : (bc && rm.isReg) = false) :
    selectEvex pre e bc ll reg rm =
      if ll = 0#2 then .vcvtpd2dqEvex128 pre e bc reg rm
      else if ll = 1#2 then .vcvtpd2dqEvex256 pre e bc reg rm
      else if ll = 2#2 then .vcvtpd2dqEvex512 pre e bc reg rm
      else .vcvtpd2dqReservedLength pre e bc reg rm := by
  cases bc <;> cases rm
  case true.reg => cases h
  all_goals rfl

/-! ## The round trip -/

/-- The decoder gives a well-formed instruction back from its encoding, whatever bytes follow. -/
theorem decode_encode_append {mode : Mode} {i : Instr} (rest : List Byte) (h : i.wf mode = true) :
    decode mode (encode i ++ rest) = .ok (i, rest) := by
  cases i with
  | cvtpd2dq ps reg rm =>
    simp only [Instr.wf, legacyWf, Bool.and_eq_true] at h
    obtain ⟨⟨hm, ⟨hps, hleg⟩, has⟩, hrm⟩ := h
    have hdec := decode_prefixes (b := 0x0F#8) (r := 0xE6#8 :: (encodeOperands reg rm ++ rest)) hm
      (prefixesOk_append_repne hps hleg) (addrSizeOk_append_repne has) rfl rfl
    rw [List.map_append, List.append_assoc, decodeOpcode_legacy, decodeLegacy_encode rest hleg hrm] at hdec
    rw [encode, List.append_assoc, List.append_assoc]
    exact hdec
  | cvtpd2dqRex ps x reg rm =>
    simp only [Instr.wf, legacyWf, Bool.and_eq_true, beq_iff_eq] at h
    obtain ⟨⟨rfl, ⟨hps, hleg⟩, has⟩, hrm⟩ := h
    have hdec := decode_prefixes_rex (x := x) (r := 0x0F#8 :: 0xE6#8 :: (encodeOperands reg rm ++ rest))
      (prefixesOk_append_repne hps hleg) (addrSizeOk_append_repne has)
    rw [List.map_append, List.append_assoc, decodeOpcode_legacy, decodeLegacy_encode rest hleg hrm] at hdec
    rw [encode, List.append_assoc, List.append_assoc]
    exact hdec
  | vcvtpd2dqVex128C5 | vcvtpd2dqVex256C5 =>
    simp only [Instr.wf, Bool.and_eq_true] at h
    obtain ⟨⟨⟨hm, hpre⟩, hv⟩, hrm⟩ := h
    exact decode_vex2 rest hm hpre hv hrm
  | vcvtpd2dqVex128C4 | vcvtpd2dqVex256C4 =>
    simp only [Instr.wf, Bool.and_eq_true] at h
    obtain ⟨⟨⟨hm, hpre⟩, hv⟩, hrm⟩ := h
    exact decode_vex3 rest hm hpre hv hrm
  | vcvtpd2dqEvex128 | vcvtpd2dqEvex256 | vcvtpd2dqEvex512 | vcvtpd2dqReservedLength =>
    simp only [Instr.wf, Bool.and_eq_true, Bool.not_eq_true'] at h
    obtain ⟨⟨⟨⟨hm, hpre⟩, he⟩, hrm⟩, hreg⟩ := h
    exact (decode_evex rest hm hpre he hrm).trans (by rw [selectEvex_of_not_er hreg]; rfl)
  | vcvtpd2dqEvex512Er pre e rc reg n =>
    simp only [Instr.wf, Bool.and_eq_true] at h
    obtain ⟨⟨hm, hpre⟩, he⟩ := h
    refine (decode_evex (rm := .reg n) rest hm hpre he rfl).trans ?_
    rw [selectEvex, RoundingMode.ofBits_toBits]

end Sys2Proof

/-! SUPPORT. Linear memory and the addresses MemCheck admits: the canonical form, little-endian reads, canonical
addresses (20_memory.md R40, R42, R51). -/

namespace Sys2Proof.Machine

/-! ## Memory is what its bytes read as -/

theorem Memory.read_cons_self (a : Nat) (v : Byte) (m : Memory) : Memory.read ((a, v) :: m) a = v :=
  if_pos rfl

theorem Memory.read_cons_of_ne {a x : Nat} (v : Byte) (m : Memory) (h : a ≠ x) :
    Memory.read ((a, v) :: m) x = Memory.read m x :=
  if_neg h

theorem Memory.wfFrom_cons {lo a : Nat} {v : Byte} {m : Memory} :
    Memory.wfFrom lo ((a, v) :: m) = true ↔
      lo ≤ a ∧ v ≠ unlistedByte ∧ Memory.wfFrom (a + 1) m = true := by
  simp [Memory.wfFrom, and_assoc]

/-- A listed byte is found at its address in every memory that reads alike, so none there begins above it. -/
theorem Memory.le_of_read_eq_head {lo lo' a : Nat} {v : Byte} {m m' : Memory}
    (hwf : Memory.wfFrom lo ((a, v) :: m) = true) (hwf' : Memory.wfFrom lo' m' = true)
    (hread : Memory.read ((a, v) :: m) a = Memory.read m' a) : lo' ≤ a := by
  obtain ⟨-, hv, -⟩ := Memory.wfFrom_cons.1 hwf
  by_contra hlt
  rw [Memory.read_cons_self, Memory.read_of_lt m' lo' a hwf' (by omega)] at hread
  exact hv hread

/-- A memory that lists a byte does not read as the empty one. -/
theorem Memory.not_read_nil {lo a : Nat} {v : Byte} {m : Memory}
    (hwf : Memory.wfFrom lo ((a, v) :: m) = true) (hread : ∀ x, Memory.read ((a, v) :: m) x = Memory.read [] x) :
    False := by
  obtain ⟨-, hv, -⟩ := Memory.wfFrom_cons.1 hwf
  exact hv ((Memory.read_cons_self a v m).symm.trans (hread a))

theorem Memory.ext_of_wfFrom {m m' : Memory} {lo lo' : Nat} (hwf : Memory.wfFrom lo m = true)
    (hwf' : Memory.wfFrom lo' m' = true) (hread : ∀ x, Memory.read m x = Memory.read m' x) : m = m' := by
  induction m generalizing m' lo lo' with
  | nil =>
    cases m' with
    | nil => rfl
    | cons c m' => exact (Memory.not_read_nil hwf' fun x => (hread x).symm).elim
  | cons c m ih =>
    cases m' with
    | nil => exact (Memory.not_read_nil hwf hread).elim
    | cons d m' =>
      obtain ⟨a, v⟩ := c
      obtain ⟨b, w⟩ := d
      obtain ⟨-, hv, htail⟩ := Memory.wfFrom_cons.1 hwf
      obtain ⟨-, hw, htail'⟩ := Memory.wfFrom_cons.1 hwf'
      have hba : b ≤ a :=
        Memory.le_of_read_eq_head hwf (Memory.wfFrom_cons.2 ⟨le_rfl, hw, htail'⟩) (hread a)
      have hab : a ≤ b :=
        Memory.le_of_read_eq_head hwf' (Memory.wfFrom_cons.2 ⟨le_rfl, hv, htail⟩) (hread b).symm
      obtain rfl : a = b := le_antisymm hab hba
      have hbyte : v = w := by
        simpa only [Memory.read_cons_self] using hread a
      have htails : ∀ x, Memory.read m x = Memory.read m' x := by
        intro x
        by_cases hx : a = x
        · rw [Memory.read_of_lt m (a + 1) x htail (by omega), Memory.read_of_lt m' (a + 1) x htail' (by omega)]
        · simpa only [Memory.read_cons_of_ne _ _ hx] using hread x
      rw [hbyte, ih htail htail' htails]

/-- Settles O53, by induction on the canonical form: the lowest listed byte of one memory is that of the other. -/
theorem memoryIsExtensional : Obligations.MemoryIsExtensional := by
  intro m m' hwf hwf' hread
  simp only [Memory.wf, Bool.and_eq_true] at hwf hwf'
  exact Memory.ext_of_wfFrom hwf.1 hwf'.1 hread

/-! ## Little-endian reads (20_memory.md R42, R55) -/

theorem extractLsb'_append_byte_zero {w : Nat} (x : BitVec w) (y : Byte) : (x ++ y).extractLsb' 0 8 = y := by
  rw [BitVec.extractLsb'_append_eq_of_add_le (by decide), BitVec.extractLsb'_eq_self]

theorem extractLsb'_append_byte_succ {w : Nat} (x : BitVec w) (y : Byte) (i : Nat) :
    (x ++ y).extractLsb' (8 * (i + 1)) 8 = x.extractLsb' (8 * i) 8 := by
  rw [BitVec.extractLsb'_append_eq_of_le (by omega), Nat.mul_succ, Nat.add_sub_cancel]

/-- Byte `i` of eight bytes put together: the lower ones are peeled off one by one. -/
theorem extractLsb'_eight_bytes (f : Nat → Byte) {i : Nat} (hi : i < 8) :
    BitVec.extractLsb' (n := 64) (8 * i) 8 (f 7 ++ f 6 ++ f 5 ++ f 4 ++ f 3 ++ f 2 ++ f 1 ++ f 0) = f i := by
  change BitVec.extractLsb' (n := 8 + 8 + 8 + 8 + 8 + 8 + 8 + 8) (8 * i) 8
    (f 7 ++ f 6 ++ f 5 ++ f 4 ++ f 3 ++ f 2 ++ f 1 ++ f 0) = f i
  interval_cases i <;>
    simp only [extractLsb'_append_byte_succ, extractLsb'_append_byte_zero, Nat.mul_zero, BitVec.extractLsb'_eq_self]

theorem State.extractLsb'_readQword (s : State) (la : Qword) {i : Nat} (hi : i < 8) :
    (s.readQword la).extractLsb' (8 * i) 8 = s.readByte (s.byteAddr la i) :=
  extractLsb'_eight_bytes (fun i => s.readByte (s.byteAddr la i)) hi

theorem State.getElem?_fetchWindow (s : State) {i : Nat} (hi : i < maxInstrBytes) :
    s.fetchWindow[i]? = some (s.readByte (s.byteAddr s.fetchAddr i)) := by
  simp [State.fetchWindow, hi]

/-- Settles O45: the two reads, byte by byte. -/
theorem littleEndianReads : Obligations.LittleEndianReads :=
  ⟨fun s la _ hi => s.extractLsb'_readQword la hi, fun s _ hi => s.getElem?_fetchWindow hi⟩

/-! ## Canonical addresses (20_memory.md R51) -/

/-- Bit `n` of the low `n + 1` bits is the sign, which the extension repeats. -/
theorem getLsbD_signExtend_setWidth {n b : Nat} (hb : b < 64) (a : Qword) :
    ((a.setWidth (n + 1)).signExtend 64).getLsbD b = if b ≤ n then a.getLsbD b else a.getLsbD n := by
  rw [BitVec.getLsbD_signExtend, BitVec.msb_setWidth, BitVec.getLsbD_setWidth]
  simp +contextual [hb]

/-- A quadword is the sign extension of its low `n + 1` bits exactly when its bits from `n` up are all equal. -/
theorem signExtend_setWidth_eq_self_iff {n : Nat} (hn : n < 64) (a : Qword) :
    (a.setWidth (n + 1)).signExtend 64 = a ↔ ∀ b, n ≤ b → b < 64 → a.getLsbD b = a.getLsbD 63 := by
  constructor
  · intro heq
    have hsign : ∀ b, n ≤ b → b < 64 → a.getLsbD b = a.getLsbD n := by
      intro b hlo hhi
      have hbit := getLsbD_signExtend_setWidth (n := n) hhi a
      rw [heq] at hbit
      split_ifs at hbit with hle
      · rw [le_antisymm hle hlo]
      · exact hbit
    intro b hlo hhi
    rw [hsign b hlo hhi, hsign 63 (by omega) (by decide)]
  · intro h
    refine BitVec.eq_of_getLsbD_eq fun b hb => ?_
    rw [getLsbD_signExtend_setWidth hb]
    split_ifs with hle
    · rfl
    · rw [h n le_rfl hn, h b (by omega) hb]

/-- Settles O52: the address is the sign extension of 48 bits, or of 57 with five-level paging. -/
theorem canonicalAddresses : Obligations.CanonicalAddresses := by
  intro la57 a
  cases la57 with
  | false => simpa [canonical] using signExtend_setWidth_eq_self_iff (n := 47) (by decide) a
  | true => simpa [canonical] using signExtend_setWidth_eq_self_iff (n := 56) (by decide) a

end Sys2Proof.Machine

/-! SUPPORT. What MemCheck answers where one thing alone is wrong, and the fetch (20_memory.md R48, R49, R55,
60_exceptions.md R149). -/

namespace Sys2Proof.Machine

/-! ## MemCheck past the segment checks -/

theorem State.memCheck_of_translationFault {s : State} {fetch : Bool} {seg : Seg} {ea la : Qword}
    {ps : List Part} {c : PageFaultCode} {addr : Qword} (hseg : s.segmentFault fetch seg ea la ps = none)
    (hpage : s.translationFault fetch seg ea la ps = some (c, addr)) :
    s.memCheck fetch seg ea la ps = .raise (s.takeException .pf (.page c) (some addr)) := by
  simp only [State.memCheck, hseg, hpage]

theorem State.memCheck_of_isDevice {s : State} {fetch : Bool} {seg : Seg} {ea la : Qword} {ps : List Part}
    {o : Nat} (hseg : s.segmentFault fetch seg ea la ps = none)
    (hpage : s.translationFault fetch seg ea la ps = none) (ho : o ∈ partBytes ps)
    (hdev : s.isDevice (s.byteAddr la o).toNat = true) :
    s.memCheck fetch seg ea la ps = .refuse .deviceMemory := by
  have hany : ((partBytes ps).any fun o => s.isDevice (s.byteAddr la o).toNat) = true :=
    List.any_eq_true.2 ⟨o, ho, hdev⟩
  simp only [State.memCheck, hseg, hpage, hany, if_true]

/-- A single byte is checked as a byte and as a part; with nothing against the part, its page decides. -/
theorem State.translationFault_byte {s : State} {fetch : Bool} {seg : Seg} {ea la : Qword}
    {c : PageFaultCode} (hpart : s.partFault fetch seg ea la ⟨0, 1⟩ = none)
    (hpage : s.pageFault fetch (s.byteAddr la 0).toNat = some c) :
    s.translationFault fetch seg ea la [⟨0, 1⟩] = some (c, s.byteAddr la 0) := by
  simp [State.translationFault, hpart, hpage]

/-! ## The fetch -/

theorem State.fetchInstr_of_memCheck_raise {s t : State} (hm : s.mode.admitted = true)
    (hc : s.memCheck true .cs s.instrPtr s.fetchAddr [⟨0, 1⟩] = .raise t) : s.fetchInstr = .raise t := by
  simp [State.fetchInstr, hm, hc, Eff.andThen]

/-- Every check passed, the fetch answers the decoded instruction. -/
theorem State.fetchInstr_eq_ok {s : State} {i : Instr} {rest : List Byte} (hm : s.mode.admitted = true)
    (hfirst : s.memCheckOk true .cs s.instrPtr s.fetchAddr [⟨0, 1⟩] = true)
    (hdec : decode s.mode s.fetchWindow = .ok (i, rest)) (hplace : ¬ s.Straddles i.ilen)
    (hall : s.memCheckOk true .cs s.instrPtr s.fetchAddr [⟨0, i.ilen⟩] = true) :
    s.fetchInstr = .ok i := by
  have hcheck1 : s.memCheck true .cs s.instrPtr s.fetchAddr [⟨0, 1⟩] = .ok () := State.memCheck_eq_ok.2 hfirst
  have hcheck2 : s.memCheck true .cs s.instrPtr s.fetchAddr [⟨0, i.ilen⟩] = .ok () :=
    State.memCheck_eq_ok.2 hall
  simp [State.fetchInstr, hm, hcheck1, hcheck2, Eff.andThen, hdec, (State.placementOk_iff hm).2 hplace]

theorem step_of_fetchInstr_ok {s : State} {i : Instr} (ht : s.trap = none) (hf : s.fetchInstr = .ok i) :
    step s = exec i s := by
  simp [step, ht, hf]

theorem step_of_fetchInstr_raise {s t : State} (ht : s.trap = none) (hf : s.fetchInstr = .raise t) :
    step s = .next t := by
  simp [step, ht, hf]

/-- Settles O8: the fetch answers the decoded instruction, which the step runs. -/
theorem stepRunsDecodedInstr : Obligations.StepRunsDecodedInstr := by
  intro s i rest htrap hm hfirst hdec hplace hall
  exact step_of_fetchInstr_ok htrap (State.fetchInstr_eq_ok hm hfirst hdec hplace hall)

/-- Settles O13: no segment check refuses the byte, so MemCheck takes its page's fault. -/
theorem fetchPageFault : Obligations.FetchPageFault := by
  intro s c htrap hm hcan hviol hpart hpage
  obtain ⟨hwr, hid⟩ := State.pageFault_wr hpage
  have hseg : s.segmentFault true .cs s.instrPtr s.fetchAddr [⟨0, 1⟩] = none := by
    rw [State.segmentFault_eq_none]
    simp [hcan, hviol, hpart]
  exact ⟨hid, hwr, step_of_fetchInstr_raise htrap (State.fetchInstr_of_memCheck_raise hm
    (State.memCheck_of_translationFault hseg (State.translationFault_byte hpart hpage)))⟩

/-! ## The fetch of an encoded instruction -/

theorem mode_admitted_of_wf {mode : Mode} {i : Instr} (h : i.wf mode = true) : mode.admitted = true := by
  cases mode with
  | other m => cases i <;> cases h
  | _ => rfl

/-- Settles O9: the bytes at `ip` decode to the instruction they encode, so the step runs it. -/
theorem stepRunsEncodedInstr : Obligations.StepRunsEncodedInstr := by
  intro s i htrap hwf hplace hfirst hall hbytes
  have hwindow : s.fetchWindow = encode i ++ s.fetchWindow.drop i.ilen := by
    rw [← hbytes, List.take_append_drop]
  have hdec : decode s.mode s.fetchWindow = .ok (i, s.fetchWindow.drop i.ilen) :=
    (congrArg (decode s.mode) hwindow).trans (decode_encode_append _ hwf)
  exact stepRunsDecodedInstr s i _ htrap (mode_admitted_of_wf hwf) hfirst hdec hplace hall

end Sys2Proof.Machine

/-! SUPPORT. A memory operand: its width, the parts of it that MemCheck is asked about, its alignment, and what its
checks make of the instruction (20_memory.md R43 to R50). -/

namespace Sys2Proof.Machine

/-! ## Width and checked parts (20_memory.md R43, R50, 30_encoding.md R77) -/

theorem SourceCtx.width_of_bcast {c : SourceCtx} (h : c.bcast = true) : c.width = 8 := if_pos h

theorem SourceCtx.width_of_not_bcast {c : SourceCtx} (h : c.bcast = false) : c.width = 8 * c.form.kl := by
  simp [SourceCtx.width, h]

/-- Settles O47, form by form; only the EVEX forms scale a displacement, and only they broadcast. -/
theorem widthsAndScales : Obligations.WidthsAndScales := by
  rintro ⟨form, ext, ps, ilen, bcast, en⟩ hb
  cases form with
  | f1 | f2 | f3 =>
    obtain rfl : bcast = false := hb rfl
    exact ⟨rfl, rfl⟩
  | f4 | f5 | f6 => cases bcast <;> exact ⟨rfl, rfl⟩

theorem Form.kl_pos (f : Form) : 0 < f.kl := by
  cases f <;> decide

@[simp] theorem SourceCtx.checkedParts_false (c : SourceCtx) : c.checkedParts false = [⟨0, c.width⟩] := rfl

/-- With every element enabled there is nothing to suppress. -/
theorem SourceCtx.checkedParts_of_all_enabled {c : SourceCtx} (h : ∀ j, j < c.form.kl → c.enabled j = true)
    (suppress : Bool) : c.checkedParts suppress = [⟨0, c.width⟩] := by
  have hall : (List.range c.form.kl).all c.enabled = true :=
    List.all_eq_true.2 fun j hj => h j (List.mem_range.1 hj)
  simp [SourceCtx.checkedParts, hall]

section MaskedOff

variable {c : SourceCtx} (hev : c.form.isEvex = true) (hoff : ∃ j, j < c.form.kl ∧ c.enabled j = false)

include hev hoff

theorem SourceCtx.checkedParts_elements (hb : c.bcast = false) :
    c.checkedParts true = ((List.range c.form.kl).filter c.enabled).map fun j => ⟨8 * j, 8⟩ := by
  have hall : (List.range c.form.kl).all c.enabled = false := by
    simpa [List.all_eq_false] using hoff
  simp [SourceCtx.checkedParts, hev, hall, hb]

theorem SourceCtx.checkedParts_broadcast (hb : c.bcast = true) :
    c.checkedParts true = if (List.range c.form.kl).any c.enabled then [⟨0, 8⟩] else [] := by
  have hall : (List.range c.form.kl).all c.enabled = false := by
    simpa [List.all_eq_false] using hoff
  simp [SourceCtx.checkedParts, hev, hall, hb]

theorem SourceCtx.mem_checkedParts_elements (hb : c.bcast = false) {p : Part} :
    p ∈ c.checkedParts true ↔ ∃ j, j < c.form.kl ∧ c.enabled j = true ∧ p = ⟨8 * j, 8⟩ := by
  simp only [SourceCtx.checkedParts_elements hev hoff hb, List.mem_map, List.mem_filter, List.mem_range, and_assoc,
    eq_comm]

end MaskedOff

theorem SourceCtx.all_enabled_or_masked_off (c : SourceCtx) :
    (∀ j, j < c.form.kl → c.enabled j = true) ∨ ∃ j, j < c.form.kl ∧ c.enabled j = false := by
  by_contra! h
  obtain ⟨⟨j, hj, hoff⟩, hon⟩ := h
  exact hon j hj (Bool.eq_false_iff.2 hoff)

theorem SourceCtx.mem_checkedBytes_false {c : SourceCtx} {o : Nat} : o ∈ c.checkedBytes false ↔ o < c.width := by
  simp [SourceCtx.checkedBytes]

/-- Byte `o` belongs to element `o / 8`, and is checked when that is enabled. -/
theorem SourceCtx.mem_checkedBytes_elements {c : SourceCtx} {o : Nat} (hev : c.form.isEvex = true)
    (hb : c.bcast = false) :
    o ∈ c.checkedBytes true ↔ o / 8 < c.form.kl ∧ c.enabled (o / 8) = true := by
  rcases c.all_enabled_or_masked_off with hon | hoff
  · rw [SourceCtx.checkedBytes, SourceCtx.checkedParts_of_all_enabled hon, partBytes_whole, List.mem_range,
      SourceCtx.width_of_not_bcast hb, Nat.mul_comm, ← Nat.div_lt_iff_lt_mul (by decide)]
    exact ⟨fun h => ⟨h, hon _ h⟩, And.left⟩
  · simp only [SourceCtx.checkedBytes, mem_partBytes, SourceCtx.mem_checkedParts_elements hev hoff hb]
    constructor
    · rintro ⟨_, ⟨j, hj, hen, rfl⟩, i, (hi : i < 8), rfl⟩
      have hdiv : (8 * j + i) / 8 = j := by omega
      rw [hdiv]
      exact ⟨hj, hen⟩
    · rintro ⟨hj, hen⟩
      exact ⟨_, ⟨o / 8, hj, hen, rfl⟩, o % 8, Nat.mod_lt _ (by decide), (Nat.div_add_mod o 8).symm⟩

/-- The one quadword of a broadcast is checked when some element is enabled. -/
theorem SourceCtx.mem_checkedBytes_broadcast {c : SourceCtx} {o : Nat} (hev : c.form.isEvex = true)
    (hb : c.bcast = true) :
    o ∈ c.checkedBytes true ↔ o < 8 ∧ ∃ j, j < c.form.kl ∧ c.enabled j = true := by
  rcases c.all_enabled_or_masked_off with hon | hoff
  · rw [SourceCtx.checkedBytes, SourceCtx.checkedParts_of_all_enabled hon, partBytes_whole, List.mem_range,
      SourceCtx.width_of_bcast hb]
    exact (and_iff_left ⟨0, c.form.kl_pos, hon 0 c.form.kl_pos⟩).symm
  · have hany : (∃ j, j < c.form.kl ∧ c.enabled j = true) ↔ (List.range c.form.kl).any c.enabled = true := by
      simp
    rw [SourceCtx.checkedBytes, SourceCtx.checkedParts_broadcast hev hoff hb, hany]
    split_ifs with h
    · simp [h]
    · simp [h, partBytes]

/-- Settles O44: without suppression the whole operand, with it the enabled elements. -/
theorem faultSuppressionBytes : Obligations.FaultSuppressionBytes := fun c _ =>
  ⟨SourceCtx.mem_checkedBytes_false, c.checkedParts_false,
    fun hev hb => ⟨SourceCtx.mem_checkedBytes_elements hev hb,
      fun hoff _ => SourceCtx.mem_checkedParts_elements hev hoff hb⟩,
    SourceCtx.mem_checkedBytes_broadcast⟩

/-! ## The checks of a memory operand (20_memory.md R45 to R49) -/

section CheckOperand

variable {s : State} {c : SourceCtx} {a : Address}

/-- Form F1's own alignment demand comes before MemCheck. -/
theorem State.checkOperand_of_misaligned (hf : c.form = .f1) (hal : (s.operandAddr c a).toNat % 16 ≠ 0) :
    s.checkOperand c a = .raise (s.takeException .gp .zero none) :=
  if_pos ⟨hf, hal⟩

/-- Where form F1's demand is met, what MemCheck refuses is refused. -/
theorem State.checkOperand_of_memCheck_refuse {r : Refusal}
    (hal : c.form = .f1 → (s.operandAddr c a).toNat % 16 = 0)
    (hc : s.memCheck false (s.operandSegment c a) (s.effAddr c a) (s.operandAddr c a)
      (c.checkedParts s.cfg.faultSuppression) = .refuse r) :
    s.checkOperand c a = .refuse r := by
  have hno : ¬ (c.form = .f1 ∧ (s.operandAddr c a).toNat % 16 ≠ 0) := fun h => h.2 (hal h.1)
  rw [State.checkOperand, if_neg hno, hc, Eff.andThen]

/-- A VEX or EVEX operand that MemCheck admits is asked for its alignment under AlignCheck alone. -/
theorem State.checkOperand_of_memCheckOk (hf : c.form ≠ .f1)
    (hc : s.memCheckOk false (s.operandSegment c a) (s.effAddr c a) (s.operandAddr c a)
      (c.checkedParts s.cfg.faultSuppression) = true) :
    s.checkOperand c a =
      if s.alignCheck = true ∧ (s.operandAddr c a).toNat % c.width ≠ 0 then .refuse .alignmentCheck
      else .ok () := by
  have hok : s.memCheck false (s.operandSegment c a) (s.effAddr c a) (s.operandAddr c a)
      (c.checkedParts s.cfg.faultSuppression) = .ok () := State.memCheck_eq_ok.2 hc
  simp [State.checkOperand, hf, hok, Eff.andThen]

theorem State.alignCheck_iff :
    s.alignCheck = true ↔ s.cr0.getLsbD 18 = true ∧ s.rflags.getLsbD 18 = true ∧ s.cpl = 3#2 := by
  simp [State.alignCheck, and_assoc]

/-! ## What the checks make of an enabled instruction -/

@[simp] theorem Eff.ok_andThen {α β : Type} (x : α) (f : α → Eff β) : (Eff.ok x).andThen f = f x := rfl

theorem Eff.andThen_assoc {α β γ : Type} (e : Eff α) (f : α → Eff β) (g : β → Eff γ) :
    (e.andThen f).andThen g = e.andThen fun x => (f x).andThen g := by
  cases e <;> rfl

/-- An enabled instruction without a reserved encoding checks its memory operand before anything else can end it. -/
theorem exec_checkOperand {i : Instr} (hc : i.sourceCtx s = some (c, .mem a)) (hr : i.reservedEncoding = false)
    (he : s.enabledFor c.form = true) :
    ∃ k : Unit → Eff State, exec i s = ((s.checkOperand c a).andThen k).outcome := by
  obtain ⟨fl, d, v, -, -, hexec, -⟩ := exec_shape hc
  have hpro : s.prologue c.form i.reservedEncoding = .ok () := State.prologue_eq_ok.2 ⟨hr, he⟩
  rw [hpro, Eff.ok_andThen, State.loadSource, Eff.andThen_assoc] at hexec
  exact ⟨_, hexec⟩

theorem traps_of_checkOperand {i : Instr} {e : Exception} {code : ErrorCode}
    (hc : i.sourceCtx s = some (c, .mem a)) (hr : i.reservedEncoding = false) (he : s.enabledFor c.form = true)
    (h : s.checkOperand c a = .raise (s.takeException e code none)) : Traps i s e code := by
  obtain ⟨k, hexec⟩ := exec_checkOperand hc hr he
  rw [Traps, hexec, h]
  rfl

theorem exec_refused_of_checkOperand {i : Instr} {r : Refusal} (hc : i.sourceCtx s = some (c, .mem a))
    (hr : i.reservedEncoding = false) (he : s.enabledFor c.form = true)
    (h : s.checkOperand c a = .refuse r) : exec i s = .refused r := by
  obtain ⟨k, hexec⟩ := exec_checkOperand hc hr he
  rw [hexec, h]
  rfl

end CheckOperand

/-- Settles O39: form F1's demand raises before MemCheck is asked, and AlignCheck alone makes one of the others. -/
theorem legacyAlignment : Obligations.LegacyAlignment := by
  refine ⟨fun i s c a hc hf hr he hal _ => ?_, fun s c a hf hac hok => ?_⟩
  · exact traps_of_checkOperand hc hr (hf ▸ he) (State.checkOperand_of_misaligned hf hal)
  · simp [State.checkOperand_of_memCheckOk hf hok, hac]

/-- Settles O40: the bits of 10_state.md R30 make AlignCheck true, and the checks refuse the operand. -/
theorem alignCheckRefuses : Obligations.AlignCheckRefuses := by
  intro i s c a hc hf hr he hok ham hac hcpl hal
  refine exec_refused_of_checkOperand hc hr he ?_
  rw [State.checkOperand_of_memCheckOk hf hok, if_pos ⟨State.alignCheck_iff.2 ⟨ham, hac, hcpl⟩, hal⟩]

/-- Settles O43: with no segment or page fault MemCheck goes on to ask for ordinary memory. -/
theorem deviceOperandRefused : Obligations.DeviceOperandRefused := by
  intro i s c a o hc hr he hal parts hseg hpart hpage ho hdev
  have hsegFault : s.segmentFault false (s.operandSegment c a) (s.effAddr c a) (s.operandAddr c a) parts = none :=
    Option.eq_none_iff_forall_ne_some.2 fun cause h => hseg cause (State.segmentFault_eq_some h)
  have hpageFault :
      s.translationFault false (s.operandSegment c a) (s.effAddr c a) (s.operandAddr c a) parts = none :=
    State.translationFault_eq_none.2 ⟨fun p hp b u r k x h => by simp [hpart p hp] at h, hpage⟩
  exact exec_refused_of_checkOperand hc hr he (State.checkOperand_of_memCheck_refuse hal
    (State.memCheck_of_isDevice hsegFault hpageFault ho hdev))

end Sys2Proof.Machine

/-! SUPPORT. What no step changes (10_state.md R22 to R30, 20_memory.md R49). -/

namespace Sys2Proof.Machine

/-- A step's next state: flags recorded in MXCSR, and besides `zmm`, `ip`, CR2 and the trap record nothing new; of the
vector registers at most one differs (10_state.md R22 to R30, 20_memory.md R49). -/
def Framed (s t : State) : Prop :=
  ∃ (fl : FpFlags) (zmm : Vector Vec 32) (ip cr2 : Qword) (trap : Option Trap),
    t = { s.recordFlags fl with zmm := zmm, ip := ip, cr2 := cr2, trap := trap } ∧
      ∃ d, ∀ n : BitVec 5, n ≠ d → t.readZmm n = s.readZmm n

theorem Wrote.framed {s t : State} (h : Wrote s t) : Framed s t := by
  obtain ⟨fl, d, v, n, rfl⟩ := h
  refine ⟨fl, _, _, _, _, rfl, d, fun m hm => ?_⟩
  rw [State.readZmm_advance, State.readZmm_writeZmm_other _ _ _ _ hm, State.readZmm_recordFlags]

theorem Raised.framed {s t : State} (h : Raised s t) : Framed s t := by
  obtain ⟨fl, e, c, a, rfl, -⟩ := h
  exact ⟨fl, _, _, _, _, rfl, 0#5, fun _ _ => rfl⟩

theorem step_framed {s t : State} (h : step s = .next t) : Framed s t := by
  obtain ⟨-, hwrote | hraised⟩ := step_next h
  · exact hwrote.framed
  · exact hraised.framed

/-- Recording flags changes no bit of MXCSR but IE and PE. -/
theorem State.getLsbD_mxcsr_recordFlags (s : State) (fl : FpFlags) {b : Nat} (h0 : b ≠ 0) (h5 : b ≠ 5) :
    (s.recordFlags fl).mxcsr.getLsbD b = s.mxcsr.getLsbD b := by
  simp [State.recordFlags_mxcsr, BitVec.getLsbD_or, FpFlags.getLsbD_bits, h0, h5]

/-- Settles O17: field by field, the next state being the old one but for the fields that a step may write. -/
theorem stepFrame : Obligations.StepFrame := by
  intro s t hstep
  obtain ⟨fl, zmm, ip, cr2, trap, rfl, d, hzmm⟩ := step_framed hstep
  refine ⟨fun _ => rfl, rfl, rfl, rfl, rfl, rfl, rfl, rfl, rfl, rfl, rfl, rfl, rfl, fun hie => ?_, fun hpe => ?_,
    fun b _ h0 h5 => s.getLsbD_mxcsr_recordFlags fl h0 h5, d, hzmm⟩
  · exact (s.ie_recordFlags fl).trans (by rw [hie, Bool.true_or])
  · exact (s.pe_recordFlags fl).trans (by rw [hpe, Bool.true_or])

end Sys2Proof.Machine

/-! SUPPORT. The decoder read backwards: whatever it answers is well formed, and the bytes it took are the encoding
of it (30_encoding.md R60 to R85). -/

namespace Sys2Proof

/-- A test that refuses did not hold where something was answered. -/
theorem ite_error_eq_ok {c : Prop} [Decidable c] {ε α : Type} {e : ε} {x : Except ε α} {y : α} :
    (if c then .error e else x) = .ok y ↔ ¬ c ∧ x = .ok y := by
  split_ifs with hc <;> simp [hc]

/-! ## The legacy form (30_encoding.md R63, R81) -/

/-- What F1's decoder answers on `bs`, given what stood before the byte 0FH. -/
theorem decodeLegacy_inv {ps : List Prefix} {rex : Option Rex} {bs rest : List Byte} {i : Instr}
    (h : decodeLegacy ps rex bs = .ok (i, rest)) :
    ∃ qs reg rm, ps = qs ++ [.repne] ∧ qs.all Prefix.legacyOk = true ∧ rm.wf = true ∧
      i = rex.elim (.cvtpd2dq qs reg rm) (fun x => .cvtpd2dqRex qs x reg rm) ∧
      bs = 0xE6#8 :: (encodeOperands reg rm ++ rest) := by
  unfold decodeLegacy at h
  split at h
  · cases h
  · simp only [ite_error_eq_ok, not_or, not_not, ne_eq] at h
    obtain ⟨⟨rfl, -⟩, ⟨hlast, hleg⟩, h⟩ := h
    split at h
    · cases h
    · rename_i reg rm r' hops
      obtain ⟨hrm, rfl⟩ := decodeOperands_inv hops
      refine ⟨ps.dropLast, reg, rm, (List.dropLast_append_getLast? _ hlast).symm, by simpa using hleg, hrm, ?_⟩
      cases rex <;> simp only [Except.ok.injEq, Prod.mk.injEq] at h <;> obtain ⟨rfl, rfl⟩ := h <;>
        exact ⟨rfl, rfl⟩

theorem prefixesOk_of_append {ps qs : List Prefix} (h : prefixesOk (ps ++ qs) = true) :
    prefixesOk ps = true := by
  simp only [prefixesOk, Bool.and_eq_true, decide_eq_true_eq, List.filter_append, List.length_append] at h ⊢
  exact ⟨(List.nodup_append.1 h.1).1, by omega⟩

theorem addrSizeOk_of_append {mode : Mode} {ps qs : List Prefix} (h : addrSizeOk mode (ps ++ qs) = true) :
    addrSizeOk mode ps = true := by
  cases mode with
  | mode32 =>
    simp only [addrSizeOk, Bool.not_eq_true', List.contains_eq_mem, decide_eq_false_iff_not, List.mem_append,
      not_or] at h ⊢
    exact h.1
  | _ => rfl

/-! ## The VEX forms (30_encoding.md R61, R70 to R72) -/

/-- The byte after C5H is made of the fields that are read from it. -/
theorem Vex2.bytes_of_fields {p : Byte} (hpp : p.extractLsb' 0 2 = 3#2) :
    Vex2.bytes ⟨!p.getLsbD 7, p.extractLsb' 3 4⟩ (p.getLsbD 2) = [0xC5#8, p] := by
  revert p; decide +kernel

/-- P0 after C4H is made of the fields that are read from it. -/
theorem vex3_p0_of_fields {p : Byte} (hmap : p.extractLsb' 0 5 = 1#5) :
    BitVec.ofBool (!!p.getLsbD 7) ++ BitVec.ofBool (!!p.getLsbD 6) ++ BitVec.ofBool (!!p.getLsbD 5) ++ 1#5 = p := by
  revert p; decide +kernel

/-- P1 after C4H is made of the fields that are read from it. -/
theorem vex3_p1_of_fields {p : Byte} (hpp : p.extractLsb' 0 2 = 3#2) :
    BitVec.ofBool (p.getLsbD 7) ++ p.extractLsb' 3 4 ++ BitVec.ofBool (p.getLsbD 2) ++ 3#2 = p := by
  revert p; decide +kernel

theorem Vex3.bytes_of_fields {p0 p1 : Byte} (hmap : p0.extractLsb' 0 5 = 1#5) (hpp : p1.extractLsb' 0 2 = 3#2) :
    Vex3.bytes ⟨!p0.getLsbD 7, !p0.getLsbD 6, !p0.getLsbD 5, p1.getLsbD 7, p1.extractLsb' 3 4⟩ (p1.getLsbD 2) =
      [0xC4#8, p0, p1] := by
  rw [Vex3.bytes, vex3_p0_of_fields hmap, vex3_p1_of_fields hpp]

/-- Bits 7:6 of the byte after C5H are the inverted `R` and the highest bit of `vvvv`. -/
theorem vex2_top {p : Byte} (h : p.extractLsb' 6 2 = 3#2) :
    p.getLsbD 7 = true ∧ (p.extractLsb' 3 4).msb = true := by
  revert p; decide +kernel

/-- Bits 7:6 of the byte after C4H or 62H are the inverted `R` and `X`. -/
theorem p0_top {p : Byte} (h : p.extractLsb' 6 2 = 3#2) : p.getLsbD 7 = true ∧ p.getLsbD 6 = true := by
  revert p; decide +kernel

/-- Two rows that a bit tells apart are answered with one rest. -/
theorem ite_ok_eq_ok {c : Prop} [Decidable c] {a b i : Instr} {r rest : List Byte}
    (h : (if c then .ok (a, r) else .ok (b, r) : DecodeResult) = .ok (i, rest)) :
    i = (if c then a else b) ∧ rest = r := by
  split_ifs at h ⊢ <;> cases h <;> exact ⟨rfl, rfl⟩

theorem decodeVex2_inv {mode : Mode} {pre : VexPrelude} {bs rest : List Byte} {i : Instr}
    (h : decodeVex2 mode pre bs = .ok (i, rest)) :
    ∃ (v : Vex2) (l : Bool) (reg : BitVec 3) (rm : RmOperand), v.wf mode = true ∧ rm.wf = true ∧
      i = (if l then .vcvtpd2dqVex256C5 pre v reg rm else .vcvtpd2dqVex128C5 pre v reg rm) ∧
      0xC5#8 :: bs = v.bytes l ++ 0xE6#8 :: (encodeOperands reg rm ++ rest) := by
  unfold decodeVex2 at h
  split at h
  · rename_i p op r
    simp only [ite_error_eq_ok, not_or, not_and, not_not, ne_eq] at h
    obtain ⟨hlds, ⟨hpp, rfl⟩, h⟩ := h
    split at h
    · cases h
    · rename_i reg rm r' hops
      obtain ⟨hrm, rfl⟩ := decodeOperands_inv hops
      obtain ⟨hi, rfl⟩ := ite_ok_eq_ok h
      refine ⟨_, p.getLsbD 2, reg, rm, ?_, hrm, hi, by rw [Vex2.bytes_of_fields hpp]; rfl⟩
      cases mode with
      | mode32 =>
        obtain ⟨h7, hv⟩ := vex2_top (hlds rfl)
        simp only [Vex2.wf, h7, hv, Bool.not_true, Bool.not_false, Bool.and_self]
      | _ => rfl
  · cases h

theorem decodeVex3_inv {mode : Mode} {pre : VexPrelude} {bs rest : List Byte} {i : Instr}
    (h : decodeVex3 mode pre bs = .ok (i, rest)) :
    ∃ (v : Vex3) (l : Bool) (reg : BitVec 3) (rm : RmOperand), v.wf mode = true ∧ rm.wf = true ∧
      i = (if l then .vcvtpd2dqVex256C4 pre v reg rm else .vcvtpd2dqVex128C4 pre v reg rm) ∧
      0xC4#8 :: bs = v.bytes l ++ 0xE6#8 :: (encodeOperands reg rm ++ rest) := by
  unfold decodeVex3 at h
  split at h
  · rename_i p0 p1 op r
    simp only [ite_error_eq_ok, not_or, not_and, not_not, ne_eq] at h
    obtain ⟨hles, ⟨hmap, hpp, rfl⟩, hext, h⟩ := h
    split at h
    · cases h
    · rename_i reg rm r' hops
      obtain ⟨hrm, rfl⟩ := decodeOperands_inv hops
      obtain ⟨hi, rfl⟩ := ite_ok_eq_ok h
      refine ⟨_, p1.getLsbD 2, reg, rm, ?_, hrm, hi, by rw [Vex3.bytes_of_fields hmap hpp]; rfl⟩
      cases mode with
      | mode32 =>
        obtain ⟨h7, h6⟩ := p0_top (hles rfl)
        have h5 : p0.getLsbD 5 = true := by simpa using hext rfl
        simp only [Vex3.wf, h7, h6, h5, Bool.not_true, Bool.not_false, Bool.and_self]
      | _ => rfl
  · cases h

/-! ## The EVEX forms (30_encoding.md R73, R76, R79) -/

/-- P0 after 62H is made of the fields that are read from it. -/
theorem evex_p0_of_fields {p : Byte} (hmap : p.extractLsb' 0 2 = 1#2) (hres : p.extractLsb' 2 2 = 0#2) :
    BitVec.ofBool (!!p.getLsbD 7) ++ BitVec.ofBool (!!p.getLsbD 6) ++ BitVec.ofBool (!!p.getLsbD 5) ++
      BitVec.ofBool (!!p.getLsbD 4) ++ 0#2 ++ 1#2 = p := by
  revert p; decide +kernel

/-- P1 after 62H is made of the fields that are read from it. -/
theorem evex_p1_of_fields {p : Byte} (hpp : p.extractLsb' 0 2 = 3#2) (hres : p.getLsbD 2 = true) :
    BitVec.ofBool (p.getLsbD 7) ++ p.extractLsb' 3 4 ++ 1#1 ++ 3#2 = p := by
  revert p; decide +kernel

/-- P2 after 62H is made of the fields that are read from it. -/
theorem evex_p2_of_fields (p : Byte) :
    BitVec.ofBool (p.getLsbD 7) ++ p.extractLsb' 5 2 ++ BitVec.ofBool (p.getLsbD 4) ++
      BitVec.ofBool (!!p.getLsbD 3) ++ p.extractLsb' 0 3 = p := by
  revert p; decide +kernel

theorem Evex.bytes_of_fields {p0 p1 p2 : Byte} (hmap : p0.extractLsb' 0 2 = 1#2)
    (hres0 : p0.extractLsb' 2 2 = 0#2) (hpp : p1.extractLsb' 0 2 = 3#2) (hres1 : p1.getLsbD 2 = true) :
    Evex.bytes ⟨!p0.getLsbD 7, !p0.getLsbD 6, !p0.getLsbD 5, !p0.getLsbD 4, p1.getLsbD 7, p1.extractLsb' 3 4,
      p2.getLsbD 7, !p2.getLsbD 3, p2.extractLsb' 0 3⟩ (p2.getLsbD 4) (p2.extractLsb' 5 2) =
      [0x62#8, p0, p1, p2] := by
  rw [Evex.bytes, evex_p0_of_fields hmap hres0, evex_p1_of_fields hpp hres1, evex_p2_of_fields]

theorem decodeEvex_inv {mode : Mode} {pre : VexPrelude} {bs rest : List Byte} {i : Instr}
    (h : decodeEvex mode pre bs = .ok (i, rest)) :
    ∃ (e : Evex) (bc : Bool) (ll : BitVec 2) (reg : BitVec 3) (rm : RmOperand),
      e.wf mode = true ∧ rm.wf = true ∧ i = selectEvex pre e bc ll reg rm ∧
      0x62#8 :: bs = e.bytes bc ll ++ 0xE6#8 :: (encodeOperands reg rm ++ rest) := by
  unfold decodeEvex at h
  split at h
  · rename_i p0 p1 p2 op r
    simp only [ite_error_eq_ok, not_or, not_and, not_not, ne_eq, Bool.not_eq_true, Bool.not_eq_false'] at h
    obtain ⟨hbound, ⟨hmap, hpp, rfl⟩, hres0, hres1, hext, h⟩ := h
    split at h
    · cases h
    · rename_i reg rm r' hops
      obtain ⟨hrm, rfl⟩ := decodeOperands_inv hops
      obtain ⟨rfl, rfl⟩ := Prod.mk.inj (Except.ok.inj h)
      refine ⟨_, _, _, reg, rm, ?_, hrm, rfl, by rw [Evex.bytes_of_fields hmap hres0 hpp hres1]; rfl⟩
      cases mode with
      | mode32 =>
        obtain ⟨h7, h6⟩ := p0_top (hbound rfl)
        obtain ⟨h5, h4, h3⟩ := hext rfl
        simp only [Evex.wf, h7, h6, h5, h4, h3, Bool.not_true, Bool.not_false, Bool.and_self]
      | _ => rfl
  · cases h

/-- The row that `mod`, `b` and `L'L` select writes them back (30_encoding.md R76). -/
theorem encode_selectEvex (pre : VexPrelude) (e : Evex) (bc : Bool) (ll : BitVec 2) (reg : BitVec 3)
    (rm : RmOperand) :
    encode (selectEvex pre e bc ll reg rm) =
      pre.bytes ++ e.bytes bc ll ++ [0xE6#8] ++ encodeOperands reg rm := by
  cases hreg : (bc && rm.isReg) with
  | false =>
    have hll : ll = 0#2 ∨ ll = 1#2 ∨ ll = 2#2 ∨ ll = 3#2 := by revert ll; decide
    rw [selectEvex_of_not_er hreg]
    rcases hll with rfl | rfl | rfl | rfl <;> rfl
  | true =>
    cases rm with
    | mem a => simp [RmOperand.isReg] at hreg
    | reg n =>
      obtain rfl : bc = true := by simpa [RmOperand.isReg] using hreg
      simp only [selectEvex, encode, RoundingMode.toBits_ofBits]

theorem wf_selectEvex {mode : Mode} {pre : VexPrelude} {e : Evex} {rm : RmOperand} (bc : Bool) (ll : BitVec 2)
    (reg : BitVec 3) (hm : mode.admitted = true) (hpre : pre.wf mode = true) (he : e.wf mode = true)
    (hrm : rm.wf = true) : (selectEvex pre e bc ll reg rm).wf mode = true := by
  cases hreg : (bc && rm.isReg) with
  | false =>
    rw [selectEvex_of_not_er hreg]
    split_ifs <;> simp [Instr.wf, hm, hpre, he, hrm, hreg]
  | true =>
    cases rm with
    | mem a => simp [RmOperand.isReg] at hreg
    | reg n =>
      obtain rfl : bc = true := by simpa [RmOperand.isReg] using hreg
      simp [selectEvex, Instr.wf, hm, hpre, he]

/-! ## The whole decoder -/

theorem VexPrelude.wf_iff {mode : Mode} {pre : VexPrelude} (hm : mode.admitted = true) :
    pre.wf mode = true ↔
      prefixesOk pre.prefixes = true ∧ addrSizeOk mode pre.prefixes = true ∧
        (pre.rex.isSome → mode = .mode64) := by
  rcases pre with ⟨ps, _ | x⟩ <;> cases mode <;> simp_all [VexPrelude.wf, Mode.admitted]

/-- The prefixes before form F1's F2H, from all that stand before 0FH. -/
theorem legacyWf_of_prelude {mode : Mode} {qs : List Prefix} (hps : prefixesOk (qs ++ [.repne]) = true)
    (has : addrSizeOk mode (qs ++ [.repne]) = true) (hleg : qs.all Prefix.legacyOk = true) :
    legacyWf mode qs = true := by
  simp only [legacyWf, prefixesOk_of_append hps, addrSizeOk_of_append has, hleg, Bool.and_self]

/-- From the first byte after prefixes and REX on: the table of 30_encoding.md R61 read backwards. -/
theorem decodeOpcode_inv {mode : Mode} {ps : List Prefix} {rex : Option Rex} {bs rest : List Byte} {i : Instr}
    (hm : mode.admitted = true) (hpre : VexPrelude.wf mode ⟨ps, rex⟩ = true)
    (h : decodeOpcode mode ps rex bs = .ok (i, rest)) :
    i.wf mode = true ∧ VexPrelude.bytes ⟨ps, rex⟩ ++ bs = encode i ++ rest := by
  unfold decodeOpcode at h
  split at h
  · cases h
  · rename_i b r
    split_ifs at h with hlegacy hvex2 hvex3 hevex
    · subst hlegacy
      obtain ⟨qs, reg, rm, rfl, hleg, hrm, rfl, rfl⟩ := decodeLegacy_inv h
      obtain ⟨hps, has, hrex⟩ := (VexPrelude.wf_iff hm).1 hpre
      have hqs := legacyWf_of_prelude hps has hleg
      cases rex with
      | none => simp [Instr.wf, encode, VexPrelude.bytes, Prefix.toByte, hm, hqs, hrm]
      | some x =>
        obtain rfl : mode = .mode64 := hrex rfl
        simp [Instr.wf, encode, VexPrelude.bytes, Prefix.toByte, hqs, hrm]
    · subst hvex2
      obtain ⟨v, l, reg, rm, hv, hrm, rfl, hbytes⟩ := decodeVex2_inv h
      rw [hbytes]
      cases l <;> simp [Instr.wf, encode, hm, hpre, hv, hrm]
    · subst hvex3
      obtain ⟨v, l, reg, rm, hv, hrm, rfl, hbytes⟩ := decodeVex3_inv h
      rw [hbytes]
      cases l <;> simp [Instr.wf, encode, hm, hpre, hv, hrm]
    · subst hevex
      obtain ⟨e, bc, ll, reg, rm, he, hrm, rfl, hbytes⟩ := decodeEvex_inv h
      refine ⟨wf_selectEvex bc ll reg hm hpre he hrm, ?_⟩
      rw [hbytes, encode_selectEvex]
      simp

/-- Whatever the decoder answers is well formed in its mode, and was read from its own encoding. -/
theorem decode_inv {mode : Mode} {bs rest : List Byte} {i : Instr} (h : decode mode bs = .ok (i, rest)) :
    i.wf mode = true ∧ bs = encode i ++ rest := by
  unfold decode at h
  simp only [ite_error_eq_ok, Bool.not_eq_true', Bool.not_eq_false] at h
  obtain ⟨hm, hps, has, h⟩ := h
  have hsplit := splitPrefixes_append bs
  split at h
  · cases h
  · rename_i b r hrest
    rw [hrest] at hsplit
    split at h
    · rename_i x hx
      have hpre := (VexPrelude.wf_iff (pre := ⟨(splitPrefixes bs).1, some x⟩) hm).2 ⟨hps, has, fun _ => rfl⟩
      obtain ⟨hwf, hbytes⟩ := decodeOpcode_inv hm hpre h
      refine ⟨hwf, hsplit.symm.trans ?_⟩
      rw [← hbytes, ← toByte_of_rexOfByte hx]
      simp [VexPrelude.bytes]
    · have hpre := (VexPrelude.wf_iff (pre := ⟨(splitPrefixes bs).1, none⟩) hm).2 ⟨hps, has, nofun⟩
      obtain ⟨hwf, hbytes⟩ := decodeOpcode_inv hm hpre h
      refine ⟨hwf, hsplit.symm.trans ?_⟩
      rw [← hbytes]
      simp [VexPrelude.bytes]

/-- Settles O1: the round trip, row by row. -/
theorem decodeOfEncode : Obligations.DecodeOfEncode := fun _ _ rest hwf => decode_encode_append rest hwf

/-- Settles O2: every byte the decoder looked at is made again of the fields it read. -/
theorem encodeOfDecode : Obligations.EncodeOfDecode := fun _ _ _ _ h => (decode_inv h).2

/-- Settles O3: what the encodings do not admit was refused on the way. -/
theorem decodedInstrWellFormed : Obligations.DecodedInstrWellFormed := fun _ _ _ _ h => (decode_inv h).1

/-! ## Lengths (30_encoding.md R85) -/

theorem encode_length (i : Instr) : (encode i).length = i.ilen := by
  cases i with
  | cvtpd2dq => exact Laws.EncodedLength.cvtpd2dq ..
  | cvtpd2dqRex => exact Laws.EncodedLength.cvtpd2dqRex ..
  | vcvtpd2dqVex128C5 => exact Laws.EncodedLength.vcvtpd2dqVex128C5 ..
  | vcvtpd2dqVex128C4 => exact Laws.EncodedLength.vcvtpd2dqVex128C4 ..
  | vcvtpd2dqVex256C5 => exact Laws.EncodedLength.vcvtpd2dqVex256C5 ..
  | vcvtpd2dqVex256C4 => exact Laws.EncodedLength.vcvtpd2dqVex256C4 ..
  | vcvtpd2dqEvex128 => exact Laws.EncodedLength.vcvtpd2dqEvex128 ..
  | vcvtpd2dqEvex256 => exact Laws.EncodedLength.vcvtpd2dqEvex256 ..
  | vcvtpd2dqEvex512 => exact Laws.EncodedLength.vcvtpd2dqEvex512 ..
  | vcvtpd2dqEvex512Er => exact Laws.EncodedLength.vcvtpd2dqEvex512Er ..
  | vcvtpd2dqReservedLength => exact Laws.EncodedLength.vcvtpd2dqReservedLength ..

/-- ModRM alone, or with SIB and a four-byte displacement. -/
theorem RmOperand.length_bounds (rm : RmOperand) : 1 ≤ rm.length ∧ rm.length ≤ 6 := by
  rcases rm with n | ⟨n, _ | _ | _⟩ | d | ⟨ss, x, n, _ | _ | _⟩ | ⟨ss, x, d⟩ <;>
    simp [RmOperand.length, Disp.length]

/-- One segment override and one 67H are all that can stand there without #UD. -/
theorem length_le_two_of_prefixesOk {ps : List Prefix} (hps : prefixesOk ps = true)
    (hall : ∀ p ∈ ps, p.isSeg = true ∨ p = .addrSize) : ps.length ≤ 2 := by
  simp only [prefixesOk, Bool.and_eq_true, decide_eq_true_eq] at hps
  obtain ⟨hnodup, hseg⟩ := hps
  have hrest : ps.countP (fun p => !p.isSeg) ≤ ps.count .addrSize :=
    List.countP_mono_left fun p hp hno => by
      rcases hall p hp with hs | rfl
      · simp [hs] at hno
      · rfl
  have hone : ps.count .addrSize ≤ 1 := List.nodup_iff_count_le_one.1 hnodup _
  have hlen := ps.length_eq_countP_add_countP Prefix.isSeg
  rw [← List.countP_eq_length_filter] at hseg
  simp only [Bool.not_eq_true, Bool.decide_eq_false] at hlen
  omega

theorem VexPrelude.length_le_two {mode : Mode} {pre : VexPrelude} (hwf : pre.wf mode = true)
    (hplain : pre.prefixes.all (fun p => p.isSeg || p == .addrSize) = true) (hrex : pre.rex.isSome = false) :
    pre.length ≤ 2 := by
  simp only [VexPrelude.wf, Bool.and_eq_true] at hwf
  obtain ⟨⟨hps, -⟩, -⟩ := hwf
  have htwo := length_le_two_of_prefixesOk hps (by simpa using hplain)
  simpa [VexPrelude.length, hrex] using htwo

theorem legacyPrefixes_length_le_two {mode : Mode} {ps : List Prefix} (hwf : legacyWf mode ps = true)
    (hlock : ps.contains .lock = false) : ps.length ≤ 2 := by
  simp only [legacyWf, Bool.and_eq_true] at hwf
  obtain ⟨⟨hps, hleg⟩, -⟩ := hwf
  refine length_le_two_of_prefixesOk hps fun p hp => ?_
  have hok := List.all_eq_true.1 hleg p hp
  have hno : p ≠ .lock := by
    rintro rfl
    simp [hp] at hlock
  cases p with
  | seg => exact .inl rfl
  | addrSize => exact .inr rfl
  | lock => exact absurd rfl hno
  | opSize | repne | rep => cases hok

theorem Instr.four_le_ilen (i : Instr) : 4 ≤ i.ilen := by
  cases i with
  | vcvtpd2dqEvex512Er => simp only [Instr.ilen]; omega
  | cvtpd2dq _ _ rm | cvtpd2dqRex _ _ _ rm | vcvtpd2dqVex128C5 _ _ _ rm | vcvtpd2dqVex128C4 _ _ _ rm
  | vcvtpd2dqVex256C5 _ _ _ rm | vcvtpd2dqVex256C4 _ _ _ rm | vcvtpd2dqEvex128 _ _ _ _ rm
  | vcvtpd2dqEvex256 _ _ _ _ rm | vcvtpd2dqEvex512 _ _ _ _ rm | vcvtpd2dqReservedLength _ _ _ _ rm =>
    have := rm.length_bounds
    simp only [Instr.ilen]; omega

/-- The longest one without #UD: two prefixes, EVEX, opcode, ModRM, SIB and a four-byte displacement. -/
theorem Instr.ilen_le_thirteen {mode : Mode} {i : Instr} (hwf : i.wf mode = true)
    (hr : i.reservedEncoding = false) : i.ilen ≤ 13 := by
  cases i with
  | vcvtpd2dqReservedLength => cases hr
  | cvtpd2dq ps _ rm | cvtpd2dqRex ps _ _ rm =>
    simp only [Instr.wf, Bool.and_eq_true] at hwf
    obtain ⟨⟨-, hlegacy⟩, -⟩ := hwf
    have hps := legacyPrefixes_length_le_two hlegacy hr
    have hrm := rm.length_bounds
    simp only [Instr.ilen]; omega
  | vcvtpd2dqVex128C5 pre v _ rm | vcvtpd2dqVex128C4 pre v _ rm | vcvtpd2dqVex256C5 pre v _ rm
  | vcvtpd2dqVex256C4 pre v _ rm =>
    simp only [Instr.wf, Bool.and_eq_true] at hwf
    obtain ⟨⟨⟨-, hpre⟩, -⟩, -⟩ := hwf
    simp only [Instr.reservedEncoding, Bool.or_eq_false_iff, Bool.not_eq_false'] at hr
    obtain ⟨⟨hplain, hrex⟩, -⟩ := hr
    have hlen := VexPrelude.length_le_two hpre hplain hrex
    have hrm := rm.length_bounds
    simp only [Instr.ilen]; omega
  | vcvtpd2dqEvex128 pre e _ _ rm | vcvtpd2dqEvex256 pre e _ _ rm | vcvtpd2dqEvex512 pre e _ _ rm =>
    simp only [Instr.wf, Bool.and_eq_true] at hwf
    obtain ⟨⟨⟨⟨-, hpre⟩, -⟩, -⟩, -⟩ := hwf
    simp only [Instr.reservedEncoding, Bool.or_eq_false_iff, Bool.not_eq_false'] at hr
    obtain ⟨⟨⟨⟨⟨hplain, hrex⟩, -⟩, -⟩, -⟩, -⟩ := hr
    have hlen := VexPrelude.length_le_two hpre hplain hrex
    have hrm := rm.length_bounds
    simp only [Instr.ilen]; omega
  | vcvtpd2dqEvex512Er pre e _ _ _ =>
    simp only [Instr.wf, Bool.and_eq_true] at hwf
    obtain ⟨⟨-, hpre⟩, -⟩ := hwf
    simp only [Instr.reservedEncoding, Bool.or_eq_false_iff, Bool.not_eq_false'] at hr
    obtain ⟨⟨⟨⟨⟨hplain, hrex⟩, -⟩, -⟩, -⟩, -⟩ := hr
    have hlen := VexPrelude.length_le_two hpre hplain hrex
    simp only [Instr.ilen]; omega

/-- Settles O4: what was consumed is the encoding, whose length is `ilen`. -/
theorem decodeConsumesIlen : Obligations.DecodeConsumesIlen := by
  intro mode bs i rest h
  obtain ⟨hwf, hbytes⟩ := decode_inv h
  refine ⟨?_, i.four_le_ilen, Instr.ilen_le_thirteen hwf⟩
  rw [hbytes, List.length_append, encode_length]

/-! ## Single sequences -/

/-- Settles O6: with 62H and E6H in their places, both bits are looked at before anything is answered. -/
theorem evexReservedBitsRefused : Obligations.EvexReservedBitsRefused := by
  intro p0 p1 p2 rest hres
  cases hdec : decode .mode64 (0x62#8 :: p0 :: p1 :: p2 :: 0xE6#8 :: rest) with
  | error r => exact ⟨r, rfl⟩
  | ok x =>
    have hevex : decodeEvex .mode64 ⟨[], none⟩ (p0 :: p1 :: p2 :: 0xE6#8 :: rest) = .ok x :=
      (decode_prefixes (mode := .mode64) (ps := []) rfl rfl rfl rfl rfl).symm.trans hdec
    simp only [decodeEvex, ite_error_eq_ok, Bool.not_eq_true', Bool.not_eq_false, ne_eq, not_not] at hevex
    obtain ⟨-, -, h0, h1, -⟩ := hevex
    rcases hres with h | h
    · exact absurd h0 h
    · rw [h] at h1; cases h1

theorem decode_of_encode_eq {mode : Mode} {i : Instr} {bs : List Byte} (hbytes : encode i = bs)
    (hwf : i.wf mode = true) : decode mode bs = .ok (i, []) := by
  have h := decode_encode_append [] hwf
  rwa [List.append_nil, hbytes] at h

/-- Settles O7: each word is the encoding of the instruction it stands for. -/
theorem specWordsDecode : Obligations.SpecWordsDecode :=
  ⟨decode_of_encode_eq rfl rfl, decode_of_encode_eq rfl rfl, decode_of_encode_eq rfl rfl,
    decode_of_encode_eq rfl rfl, decode_of_encode_eq rfl rfl, decode_of_encode_eq rfl rfl,
    decode_of_encode_eq rfl rfl, decode_of_encode_eq rfl rfl⟩

end Sys2Proof

/-! SUPPORT. Encodings that always take #UD, and how register numbers are assembled (30_encoding.md R74, R78 to R80). -/

namespace Sys2Proof.Machine

/-! ## Reserved encodings (30_encoding.md R78 to R80) -/

/-- The encoding conditions are the first thing that Precheck tests. -/
theorem State.precheck_reserved (s : State) (form : Form) : s.precheck form true = some .ud := rfl

/-- Settles O35: a form's Precheck raises #UD, and row 11 has no form. -/
theorem reservedEncodingIsUndefined : Obligations.ReservedEncodingIsUndefined := by
  intro i s hm _ hr
  cases hc : i.sourceCtx s with
  | none => exact traps_of_sourceCtx_none hc hm
  | some x => exact traps_of_precheck hc hm (by rw [hr, State.precheck_reserved])

/-- Settles O33: row 11 is reserved whatever it carries. -/
theorem reservedLengthIsUndefined : Obligations.ReservedLengthIsUndefined :=
  fun _ _ _ _ _ s hm hts => reservedEncodingIsUndefined _ s hm hts rfl

/-! ## Register numbers (30_encoding.md R74) -/

/-- Settles O48: each number is its field under the extension bits of the row's encoding. -/
theorem registerNumberAssembly : Obligations.RegisterNumberAssembly := by
  intro ps pre x v2 v3 e bc reg n rm s dest source
  have hdest : ∀ {i : Instr} {ext : Ext} {k : Nat}, i.destReg = some (ext.dest reg) →
      16 * ext.rHi.toNat + 8 * ext.r.toNat + reg.toNat = k → dest i k := by
    rintro i ext k hd rfl
    simp only [dest, hd, Option.map_some, Ext.dest_toNat]
  have hsource : ∀ {i : Instr} {c : SourceCtx} {o : RmOperand} {k b x' : Nat}, i.sourceCtx s = some (c, o) →
      16 * (c.form.isEvex && c.ext.x).toNat + 8 * c.ext.b.toNat + n.toNat = k →
      8 * c.ext.b.toNat + n.toNat = b → 8 * c.ext.x.toNat + n.toNat = x' → source i k b x' := by
    rintro i c o k b x' hc rfl rfl rfl
    exact ⟨c, o, hc, Ext.source_toNat _ _ _, Ext.baseReg_toNat _ _, Ext.indexReg_toNat _ _⟩
  refine ⟨hdest rfl ?_, hsource rfl ?_ ?_ ?_, hdest rfl ?_, hsource rfl ?_ rfl rfl, ?vex2, ?vex3, ?evex⟩
  case vex2 =>
    simp only [List.forall_mem_cons, List.not_mem_nil, false_imp_iff, implies_true, and_true]
    refine ⟨⟨hdest rfl ?_, hsource rfl ?_ ?_ ?_⟩, hdest rfl ?_, hsource rfl ?_ ?_ ?_⟩ <;>
      simp [Ext.ofVex2, Form.isEvex]
  case vex3 =>
    simp only [List.forall_mem_cons, List.not_mem_nil, false_imp_iff, implies_true, and_true]
    refine ⟨⟨hdest rfl ?_, hsource rfl ?_ rfl rfl⟩, hdest rfl ?_, hsource rfl ?_ rfl rfl⟩ <;>
      simp [Ext.ofVex3, Form.isEvex]
  case evex =>
    simp only [List.forall_mem_cons, List.not_mem_nil, false_imp_iff, implies_true, and_true]
    refine ⟨?_, ?_, ?_, ?_⟩ <;> exact ⟨hdest rfl rfl, hsource rfl rfl rfl rfl⟩
  all_goals simp [Ext.none, Ext.ofRex, Form.isEvex]

end Sys2Proof.Machine

/-! SUPPORT. Effective addresses as integers modulo 2^AS, and the segment they are taken in (30_encoding.md R66 to R69,
R77, R84). -/

namespace Sys2Proof.Machine

/-! ## Quadwords modulo 2^AS (30_encoding.md R66) -/

/-- 2^AS. -/
def asModulus (as32 : Bool) : ℤ := if as32 then 2 ^ 32 else 2 ^ 64

/-- The quadword stands for the integer, modulo 2^AS. -/
def RepMod (as32 : Bool) (a : Qword) (z : ℤ) : Prop := (a.toNat : ℤ) ≡ z [ZMOD asModulus as32]

theorem asModulus_dvd (as32 : Bool) : asModulus as32 ∣ 2 ^ 64 := by
  cases as32 <;> decide

/-- Reducing modulo 2^64, as quadwords do, loses nothing modulo 2^AS. -/
theorem emod_two_pow_64_modEq (as32 : Bool) (z : ℤ) : z % 2 ^ 64 ≡ z [ZMOD asModulus as32] :=
  (Int.mod_modEq z (2 ^ 64)).of_dvd (asModulus_dvd as32)

theorem RepMod.self (as32 : Bool) (a : Qword) : RepMod as32 a a.toNat := Int.ModEq.refl _

theorem RepMod.zero (as32 : Bool) : RepMod as32 0#64 0 := Int.ModEq.refl _

theorem RepMod.add {as32 : Bool} {a b : Qword} {x y : ℤ} (ha : RepMod as32 a x) (hb : RepMod as32 b y) :
    RepMod as32 (a + b) (x + y) := by
  have h := (emod_two_pow_64_modEq as32 (a.toNat + b.toNat)).trans (Int.ModEq.add ha hb)
  rw [RepMod, BitVec.toNat_add]
  exact_mod_cast h

theorem RepMod.mul {as32 : Bool} {a b : Qword} {x y : ℤ} (ha : RepMod as32 a x) (hb : RepMod as32 b y) :
    RepMod as32 (a * b) (x * y) := by
  have h := (emod_two_pow_64_modEq as32 (a.toNat * b.toNat)).trans (Int.ModEq.mul ha hb)
  rw [RepMod, BitVec.toNat_mul]
  exact_mod_cast h

theorem RepMod.ofNat (as32 : Bool) (n : Nat) : RepMod as32 (BitVec.ofNat 64 n) n := by
  have h := emod_two_pow_64_modEq as32 n
  rw [RepMod, BitVec.toNat_ofNat]
  exact_mod_cast h

theorem RepMod.signExtend (as32 : Bool) {w : Nat} (d : BitVec w) : RepMod as32 (d.signExtend 64) d.toInt := by
  rw [RepMod, BitVec.signExtend, BitVec.toNat_ofInt, Int.toNat_of_nonneg (Int.emod_nonneg _ (by decide))]
  exact_mod_cast emod_two_pow_64_modEq as32 d.toInt

theorem RepMod.shiftLeft {as32 : Bool} {a : Qword} {x : ℤ} (ha : RepMod as32 a x) (k : Nat) :
    RepMod as32 (a <<< k) (x * 2 ^ k) := by
  have h := (emod_two_pow_64_modEq as32 (a.toNat * 2 ^ k)).trans (Int.ModEq.mul_right (2 ^ k) ha)
  rw [RepMod, BitVec.toNat_shiftLeft, Nat.shiftLeft_eq]
  exact_mod_cast h

theorem truncAS_toNat (as32 : Bool) (a : Qword) : ((truncAS as32 a).toNat : ℤ) = a.toNat % asModulus as32 := by
  cases as32 with
  | true =>
    simp only [truncAS, asModulus, if_true, BitVec.toNat_setWidth]
    omega
  | false =>
    simp only [truncAS, asModulus, Bool.false_eq_true, if_false]
    omega

theorem RepMod.truncAS {as32 : Bool} {a : Qword} {x : ℤ} (ha : RepMod as32 a x) :
    RepMod as32 (truncAS as32 a) x := by
  rw [RepMod, truncAS_toNat]
  exact (Int.mod_modEq _ _).trans ha

/-- A value cut to AS bits is the remainder of what it stands for. -/
theorem RepMod.truncAS_toNat_eq {as32 : Bool} {a : Qword} {x : ℤ} (ha : RepMod as32 a x) :
    ((Machine.truncAS as32 a).toNat : ℤ) = x % asModulus as32 := by
  rw [truncAS_toNat]
  exact ha

/-! ## The parts of an address (30_encoding.md R66 to R68) -/

theorem asModulus_addr32 (mode : Mode) (ps : List Prefix) :
    asModulus (addr32 mode ps) = if mode = .mode32 ∨ .addrSize ∈ ps then 2 ^ 32 else 2 ^ 64 := by
  cases mode <;> simp [asModulus, addr32]

/-- The displacement as an integer, the one-byte form multiplied by `N`. -/
def Disp.intValue (n : Nat) : Disp → ℤ
  | .none => 0
  | .d8 d => d.toInt * n
  | .d32 d => d.toInt

/-- The index register times its scale as an integer, none for number 4. -/
def State.intScaledIndex (s : State) (ss : BitVec 2) (idx : BitVec 4) : ℤ :=
  if idx = 4#4 then 0 else (s.readGpr idx).toNat * 2 ^ ss.toNat

theorem RepMod.disp (as32 : Bool) (n : Nat) (d : Disp) :
    RepMod as32 (Disp.value n d) (Disp.intValue n d) := by
  cases d with
  | none => exact RepMod.zero as32
  | d8 d => exact (RepMod.signExtend as32 d).mul (RepMod.ofNat as32 n)
  | d32 d => exact RepMod.signExtend as32 d

theorem RepMod.addrReg (s : State) (as32 : Bool) (i : BitVec 4) :
    RepMod as32 (s.addrReg as32 i) (s.readGpr i).toNat :=
  (RepMod.self as32 _).truncAS

theorem RepMod.scaledIndex (s : State) (as32 : Bool) (ss : BitVec 2) (idx : BitVec 4) :
    RepMod as32 (s.scaledIndex as32 ss idx) (s.intScaledIndex ss idx) := by
  unfold State.scaledIndex State.intScaledIndex
  split_ifs
  · exact RepMod.zero as32
  · exact (RepMod.addrReg s as32 idx).shiftLeft _

/-! ## Effective addresses (30_encoding.md R66 to R68, R77, R84) -/

section EffAddr

variable (s : State) (c : SourceCtx)

theorem State.effAddr_base (rm : BitVec 3) (disp : Disp) :
    ((s.effAddr c (.base rm disp)).toNat : ℤ) =
      ((s.readGpr (c.ext.baseReg rm)).toNat + Disp.intValue c.dispScale disp) %
        asModulus (addr32 s.mode c.prefixes) :=
  ((RepMod.addrReg s _ _).add (RepMod.disp _ _ disp)).truncAS_toNat_eq

theorem State.effAddr_sib (ss : BitVec 2) (index b : BitVec 3) (disp : Disp) :
    ((s.effAddr c (.sib ss index b disp)).toNat : ℤ) =
      ((s.readGpr (c.ext.baseReg b)).toNat + s.intScaledIndex ss (c.ext.indexReg index) +
        Disp.intValue c.dispScale disp) % asModulus (addr32 s.mode c.prefixes) :=
  (((RepMod.addrReg s _ _).add (RepMod.scaledIndex s _ _ _)).add (RepMod.disp _ _ disp)).truncAS_toNat_eq

theorem State.effAddr_sibNoBase (ss : BitVec 2) (index : BitVec 3) (d : BitVec 32) :
    ((s.effAddr c (.sibNoBase ss index d)).toNat : ℤ) =
      (s.intScaledIndex ss (c.ext.indexReg index) + d.toInt) % asModulus (addr32 s.mode c.prefixes) :=
  ((RepMod.scaledIndex s _ _ _).add (RepMod.signExtend _ d)).truncAS_toNat_eq

/-- Relative to the next instruction. -/
theorem State.effAddr_disp32_mode64 (hm : s.mode = .mode64) (d : BitVec 32) :
    ((s.effAddr c (.disp32 d)).toNat : ℤ) =
      (s.ip.toNat + c.ilen + d.toInt) % asModulus (addr32 s.mode c.prefixes) := by
  have hea : s.effAddr c (.disp32 d) =
      truncAS (addr32 s.mode c.prefixes) (s.ip + BitVec.ofNat 64 c.ilen + d.signExtend 64) := by
    simp [State.effAddr, hm, State.instrPtr_mode64 hm]
  rw [hea]
  exact (((RepMod.self _ _).add (RepMod.ofNat _ _)).add (RepMod.signExtend _ d)).truncAS_toNat_eq

/-- Absolute. -/
theorem State.effAddr_disp32_mode32 (hm : s.mode = .mode32) (d : BitVec 32) :
    ((s.effAddr c (.disp32 d)).toNat : ℤ) = d.toInt % asModulus (addr32 s.mode c.prefixes) := by
  have hea : s.effAddr c (.disp32 d) = truncAS (addr32 s.mode c.prefixes) (d.signExtend 64) := by
    simp [State.effAddr, hm]
  rw [hea]
  exact (RepMod.signExtend _ d).truncAS_toNat_eq

end EffAddr

/-- Settles O49: the displacement forms are the cases of one sum. -/
theorem effectiveAddressNoSib : Obligations.EffectiveAddressNoSib := by
  intro s c
  rw [← asModulus_addr32]
  refine ⟨fun rm => ?_, fun rm d => s.effAddr_base c rm (.d8 d), fun rm d => s.effAddr_base c rm (.d32 d),
    fun d hm => s.effAddr_disp32_mode64 c hm d, fun d hm => s.effAddr_disp32_mode32 c hm d⟩
  rw [s.effAddr_base c rm .none, Disp.intValue, add_zero]

/-- Settles O50: likewise, with the scaled index as a summand of its own. -/
theorem effectiveAddressSib : Obligations.EffectiveAddressSib := by
  intro s c ss index
  rw [← asModulus_addr32]
  refine ⟨fun b => ?_, fun b d => s.effAddr_sib c ss index b (.d8 d), fun b d => s.effAddr_sib c ss index b (.d32 d),
    fun d => s.effAddr_sibNoBase c ss index d⟩
  have h := s.effAddr_sib c ss index b .none
  rwa [Disp.intValue, add_zero] at h

/-! ## The segment (30_encoding.md R69) -/

/-- A base register number 4 or 5 is field 4 or 5 without extension. -/
theorem Ext.baseReg_eq_sp_or_bp (e : Ext) (n : BitVec 3) :
    (e.baseReg n = 4#4 ∨ e.baseReg n = 5#4) ↔ e.b = false ∧ (n = 4#3 ∨ n = 5#3) := by
  unfold Ext.baseReg
  cases e.b <;> revert n <;> decide

theorem defaultSegment_eq (e : Ext) (a : Address) :
    defaultSegment e a =
      match a with
      | .base n _ | .sib _ _ n _ => if e.b = false ∧ (n = 4#3 ∨ n = 5#3) then Seg.ss else Seg.ds
      | .disp32 _ | .sibNoBase _ _ _ => Seg.ds := by
  cases a <;> simp only [defaultSegment, e.baseReg_eq_sp_or_bp]

/-- Outside Mode64 every override is honoured, in Mode64 those that name FS and GS. -/
theorem overrideHonoured_iff {mode : Mode} {seg : Seg} :
    overrideHonoured mode seg = true ↔ mode ≠ .mode64 ∨ seg = .fs ∨ seg = .gs := by
  cases mode <;> cases seg <;> simp [overrideHonoured]

theorem segmentOverride_eq_some {mode : Mode} {ps : List Prefix} {seg : Seg}
    (h : segmentOverride mode ps = some seg) : .seg seg ∈ ps ∧ overrideHonoured mode seg = true := by
  obtain ⟨p, hp, hseg⟩ := List.exists_of_findSome?_eq_some h
  cases p with
  | seg seg' =>
    rw [Option.ite_none_right_eq_some] at hseg
    obtain ⟨hon, heq⟩ := hseg
    obtain rfl := Option.some.inj heq
    exact ⟨hp, hon⟩
  | _ => cases hseg

/-- An honoured override is found. -/
theorem segmentOverride_ne_none {mode : Mode} {ps : List Prefix} {seg : Seg} (hp : .seg seg ∈ ps)
    (hon : overrideHonoured mode seg = true) : segmentOverride mode ps ≠ none := by
  intro h
  have hnone := List.findSome?_eq_none_iff.1 h _ hp
  simp [hon] at hnone

/-- Admitted prefixes hold one override at most. -/
theorem seg_eq_of_prefixesOk {ps : List Prefix} (h : prefixesOk ps = true) {a b : Seg}
    (ha : .seg a ∈ ps) (hb : .seg b ∈ ps) : a = b := by
  simp only [prefixesOk, Bool.and_eq_true, decide_eq_true_eq] at h
  have hin : ∀ {x : Seg}, .seg x ∈ ps → .seg x ∈ ps.filter Prefix.isSeg :=
    fun hx => List.mem_filter.2 ⟨hx, rfl⟩
  obtain ⟨-, hlen⟩ := h
  obtain ⟨p, hp⟩ := List.length_eq_one_iff.1 (le_antisymm hlen (List.length_pos_of_mem (hin ha)))
  rw [hp] at hin
  exact Prefix.seg.inj ((List.mem_singleton.1 (hin ha)).trans (List.mem_singleton.1 (hin hb)).symm)

/-- Settles O51: an honoured override is the only one there is, and without one the default stands. -/
theorem operandSegment : Obligations.OperandSegment := by
  intro s c a hps
  refine ⟨fun seg hseg hmode => ?_, fun hignored => ?_⟩
  · have hne := segmentOverride_ne_none hseg (overrideHonoured_iff.2 hmode)
    obtain ⟨seg', hsome⟩ := Option.ne_none_iff_exists'.1 hne
    rw [State.operandSegment, hsome, Option.getD_some]
    exact seg_eq_of_prefixesOk hps (segmentOverride_eq_some hsome).1 hseg
  · have hnone : segmentOverride s.mode c.prefixes = none := by
      refine Option.eq_none_iff_forall_ne_some.2 fun seg hsome => ?_
      obtain ⟨hseg, hon⟩ := segmentOverride_eq_some hsome
      obtain ⟨hmode, hfs, hgs⟩ := hignored seg hseg
      rcases overrideHonoured_iff.1 hon with h | h | h
      · exact h hmode
      · exact hfs h
      · exact hgs h
    rw [State.operandSegment, hnone, Option.getD_none]
    exact defaultSegment_eq c.ext a

/-! ## Redundant forms (30_encoding.md R83) -/

theorem qword_eq_of_toNat_int_eq {a b : Qword} {x y : ℤ} (ha : (a.toNat : ℤ) = x) (hb : (b.toNat : ℤ) = y)
    (h : x = y) : a = b :=
  BitVec.eq_of_toNat_eq (by exact_mod_cast ha.trans (h.trans hb.symm))

/-- The default segment and the override depend on the base field, its extension bit and the prefixes alone. -/
theorem State.operandSegment_congr (s : State) {c c' : SourceCtx} (hext : c.ext = c'.ext)
    (hps : c.prefixes = c'.prefixes) {a a' : Address}
    (ha : defaultSegment c'.ext a = defaultSegment c'.ext a') : s.operandSegment c a = s.operandSegment c' a' := by
  rw [State.operandSegment, State.operandSegment, hext, hps, ha]

/-- Index number 4 adds nothing. -/
theorem State.intScaledIndex_none (s : State) {e : Ext} (hx : e.x = false) (ss : BitVec 2) :
    s.intScaledIndex ss (e.indexReg 4#3) = 0 := by
  have h4 : e.indexReg 4#3 = 4#4 := by rw [Ext.indexReg, hx]; rfl
  rw [State.intScaledIndex, if_pos h4]

/-- Settles O59: the two forms are one integer sum. -/
theorem redundantDisplacements : Obligations.RedundantDisplacements := by
  intro s c c' hext hps
  have hbase : ∀ (n : BitVec 3) (d d' : Disp), Disp.intValue c.dispScale d = Disp.intValue c'.dispScale d' →
      s.effAddr c (.base n d) = s.effAddr c' (.base n d') := fun n d d' hd =>
    qword_eq_of_toNat_int_eq (s.effAddr_base c n d) (s.effAddr_base c' n d') (by rw [hext, hps, hd])
  have hsib : ∀ (ss : BitVec 2) (x n : BitVec 3) (d d' : Disp),
      Disp.intValue c.dispScale d = Disp.intValue c'.dispScale d' →
      s.effAddr c (.sib ss x n d) = s.effAddr c' (.sib ss x n d') := fun ss x n d d' hd =>
    qword_eq_of_toNat_int_eq (s.effAddr_sib c ss x n d) (s.effAddr_sib c' ss x n d') (by rw [hext, hps, hd])
  refine ⟨fun z hz ss x n => ?_, fun d e he ss x n => ⟨hbase n _ _ he.symm, hsib ss x n _ _ he.symm⟩,
    fun hx ss n => ⟨fun d hscale => ?_, fun e hm => ?_⟩, fun d d' ss x n => ⟨?_, ?_, ?_⟩⟩
  · have hzero : Disp.intValue c'.dispScale z = 0 := by
      simp only [List.mem_cons, List.not_mem_nil, or_false] at hz
      rcases hz with rfl | rfl <;> simp [Disp.intValue]
    exact ⟨hbase n _ _ hzero.symm, hsib ss x n _ _ hzero.symm⟩
  · refine qword_eq_of_toNat_int_eq (s.effAddr_base c n d) (s.effAddr_sib c' ss 4#3 n d) ?_
    rw [hext, hps, hscale, s.intScaledIndex_none (hext ▸ hx), add_zero]
  · refine qword_eq_of_toNat_int_eq (s.effAddr_disp32_mode32 c hm e) (s.effAddr_sibNoBase c' ss 4#3 e) ?_
    rw [hps, s.intScaledIndex_none (hext ▸ hx), zero_add]
  · exact s.operandSegment_congr hext hps rfl
  · exact s.operandSegment_congr hext hps rfl
  · exact s.operandSegment_congr hext hps rfl

end Sys2Proof.Machine

/-! SUPPORT. One meaning for every instruction with a form, and what of an encoding it depends on (30_encoding.md R83,
41_sse_form.md R120, 42_vex_forms.md R125, R126, 43_evex_forms.md R138). -/

namespace Sys2Proof.Machine

/-! ## Every form at once -/

/-- What an instruction writes into its destination: enabled elements, masked-off ones kept or zeroed, zeros above;
form F1 keeps bits 511:128 (41_sse_form.md R120, 43_evex_forms.md R138). -/
def formResult (c : SourceCtx) (z : Bool) (old : Vec) (r : Nat → Dword) : Vec :=
  if c.form = .f1 then old &&& ~~~((BitVec.allOnes 128).setWidth 512) ||| packDwords c.form.kl r
  else packDwords c.form.kl fun j => maskedDword (c.enabled j) z (r j) (dwordOf old j)

/-- The flags of the enabled elements; embedded rounding records none (40_conversion.md R114, R117). -/
def State.formResponse (s : State) (c : SourceCtx) (er : Option RoundingMode) (lane : Nat → Dword × FpFlags) :
    Eff State :=
  if er.isSome then .ok s
  else s.exceptionResponse (flagsOf c.form.kl fun j => if c.enabled j then lane j else (0#32, FpFlags.none))

/-- What follows the read of the source, up to the advance of `ip`. -/
def State.convertAndWrite (s : State) (c : SourceCtx) (d : BitVec 5) (z : Bool) (er : Option RoundingMode)
    (src : Nat → Qword) : Eff State :=
  (s.formResponse c er fun j => convert (src j) (er.getD s.rc) s.daz).andThen fun s' =>
  .ok (s'.writeZmm d (formResult c z (s.readZmm d) fun j => (convert (src j) (er.getD s.rc) s.daz).1))

/-- An instruction with a form up to the advance of `ip`. -/
def State.runForm (s : State) (c : SourceCtx) (rm : RmOperand) (reserved : Bool) (d : BitVec 5) (z : Bool)
    (er : Option RoundingMode) : Eff State :=
  (s.prologue c.form reserved).andThen fun _ => (s.loadSource c rm).andThen (s.convertAndWrite c d z er)

theorem legacyBody_eq_runForm (ps : List Prefix) (ext : Ext) (ilen : Nat) (reg : BitVec 3) (rm : RmOperand)
    (s : State) :
    legacyBody ps ext ilen reg rm s =
      (s.runForm ⟨.f1, ext, ps, ilen, false, fun _ => true⟩ rm (ps.contains .lock) (ext.dest reg) false
        none).andThen fun t => .ok (t.advance ilen) := by
  simp only [State.runForm, State.convertAndWrite, Eff.andThen_assoc, Eff.ok_andThen]
  rfl

theorem vexBody_eq_runForm {form : Form} (hf : form ≠ .f1) (pre : VexPrelude) (vvvv : BitVec 4) (ext : Ext)
    (ilen : Nat) (reg : BitVec 3) (rm : RmOperand) (s : State) :
    vexBody form pre vvvv ext ilen reg rm s =
      (s.runForm ⟨form, ext, pre.prefixes, ilen, false, fun _ => true⟩ rm
        (!pre.prefixes.all (fun p => p.isSeg || p == .addrSize) || pre.rex.isSome || vvvv != 15#4) (ext.dest reg)
        false none).andThen fun t => .ok (t.advance ilen) := by
  rw [← VexPrelude.isUD_eq]
  simp only [State.runForm, State.convertAndWrite, formResult, if_neg hf, Eff.andThen_assoc, Eff.ok_andThen]
  rfl

theorem evexBody_eq_runForm {form : Form} (hf : form ≠ .f1) (pre : VexPrelude) (e : Evex) (bcast : Bool)
    (er : Option RoundingMode) (ilen : Nat) (reg : BitVec 3) (rm : RmOperand) (s : State) :
    evexBody form pre e bcast er ilen reg rm s =
      (s.runForm ⟨form, Ext.ofEvex e, pre.prefixes, ilen, bcast, s.laneEnabled e.aaa⟩ rm
        (!pre.prefixes.all (fun p => p.isSeg || p == .addrSize) || pre.rex.isSome ||
          e.vvvv != 15#4 || e.vHi || (e.z && e.aaa == 0#3) || !e.w)
        ((Ext.ofEvex e).dest reg) e.z er).andThen fun t => .ok (t.advance ilen) := by
  rw [← VexPrelude.isUD_eq]
  simp only [State.runForm, State.convertAndWrite, formResult, if_neg hf, Eff.andThen_assoc, Eff.ok_andThen]
  rfl

/-- The instruction is that, and then `ip` moves past it. -/
theorem exec_eq_runForm {i : Instr} {s : State} {c : SourceCtx} {rm : RmOperand} {d : BitVec 5}
    (hc : i.sourceCtx s = some (c, rm)) (hd : i.destReg = some d) :
    exec i s = ((s.runForm c rm i.reservedEncoding d i.masking.2 i.erMode).andThen fun t =>
      .ok (t.advance i.ilen)).outcome := by
  cases i with
  | vcvtpd2dqReservedLength => cases hc
  | cvtpd2dq | cvtpd2dqRex =>
    obtain ⟨rfl, rfl⟩ := Prod.mk.inj (Option.some.inj hc)
    obtain rfl := Option.some.inj hd
    exact congrArg Eff.outcome (legacyBody_eq_runForm ..)
  | vcvtpd2dqVex128C5 | vcvtpd2dqVex128C4 | vcvtpd2dqVex256C5 | vcvtpd2dqVex256C4 =>
    obtain ⟨rfl, rfl⟩ := Prod.mk.inj (Option.some.inj hc)
    obtain rfl := Option.some.inj hd
    exact congrArg Eff.outcome (vexBody_eq_runForm (by decide) ..)
  | vcvtpd2dqEvex128 | vcvtpd2dqEvex256 | vcvtpd2dqEvex512 =>
    obtain ⟨rfl, rfl⟩ := Prod.mk.inj (Option.some.inj hc)
    obtain rfl := Option.some.inj hd
    exact congrArg Eff.outcome (evexBody_eq_runForm (by decide) _ _ _ none ..)
  | vcvtpd2dqEvex512Er _ _ rc =>
    obtain ⟨rfl, rfl⟩ := Prod.mk.inj (Option.some.inj hc)
    obtain rfl := Option.some.inj hd
    exact congrArg Eff.outcome (evexBody_eq_runForm (by decide) _ _ _ (some rc) ..)

/-! ## What it leaves for the advance of `ip` -/

theorem State.formResponse_eq_ok {s t : State} {c : SourceCtx} {er : Option RoundingMode}
    {lane : Nat → Dword × FpFlags} (h : s.formResponse c er lane = .ok t) : ∃ fl, t = s.recordFlags fl := by
  unfold State.formResponse at h
  split_ifs at h
  · cases h
    exact ⟨FpFlags.none, s.recordFlags_none.symm⟩
  · obtain ⟨-, -, ht⟩ := State.exceptionResponse_eq_ok.1 h
    exact ⟨_, ht⟩

theorem State.runForm_eq_ok {s t : State} {c : SourceCtx} {rm : RmOperand} {u : Bool} {d : BitVec 5} {z : Bool}
    {er : Option RoundingMode} (h : s.runForm c rm u d z er = .ok t) :
    t.mode = s.mode ∧ t.ip = s.ip ∧ t.trap = s.trap := by
  simp only [State.runForm, State.convertAndWrite, Eff.andThen_eq_ok] at h
  obtain ⟨_, -, _, -, t', hresp, ht⟩ := h
  obtain ⟨fl, rfl⟩ := State.formResponse_eq_ok hresp
  cases ht
  exact ⟨rfl, rfl, rfl⟩

theorem Raised.trap_ne_none {s t : State} (h : Raised s t) : t.trap ≠ none := by
  obtain ⟨fl, e, c, a, rfl, -⟩ := h
  simp

theorem State.runForm_eq_raise {s t : State} {c : SourceCtx} {rm : RmOperand} {u : Bool} {d : BitVec 5} {z : Bool}
    {er : Option RoundingMode} (h : s.runForm c rm u d z er = .raise t) : t.trap ≠ none := by
  simp only [State.runForm, State.convertAndWrite, Eff.andThen_eq_raise, reduceCtorEq, and_false, exists_false,
    or_false] at h
  rcases h with h | ⟨_, -, h | ⟨_, -, h⟩⟩
  · exact (prologue_raised h).trap_ne_none
  · exact (loadSource_raised h).trap_ne_none
  · unfold State.formResponse at h
    split_ifs at h
    exact (exceptionResponse_raised h).trap_ne_none

/-- Two instructions that are the same up to the advance of `ip` differ in `ip` alone, and only where they
complete. -/
theorem outcome_advance_of_eq {s : State} {e : Eff State} (m n : Nat) (hs : s.trap = none)
    (hok : ∀ t, e = .ok t → t.mode = s.mode ∧ t.ip = s.ip ∧ t.trap = s.trap)
    (hraise : ∀ t, e = .raise t → t.trap ≠ none) :
    (∀ t, (e.andThen fun t => .ok (t.advance m)).outcome = .next t →
      (e.andThen fun t => .ok (t.advance n)).outcome = .next
        (if t.trap = none then { t with ip := truncAddr s.mode (s.ip + BitVec.ofNat 64 n) } else t)) ∧
    ∀ r, (e.andThen fun t => .ok (t.advance m)).outcome = .refused r →
      (e.andThen fun t => .ok (t.advance n)).outcome = .refused r := by
  cases e with
  | ok x =>
    obtain ⟨hmode, hip, htrap⟩ := hok x rfl
    refine ⟨fun t ht => ?_, fun r hr => by cases hr⟩
    cases ht
    have hnone : (x.advance m).trap = none := htrap.trans hs
    rw [if_pos hnone, ← hmode, ← hip]
    rfl
  | raise x =>
    refine ⟨fun t ht => ?_, fun r hr => by cases hr⟩
    cases ht
    rw [if_neg (hraise x rfl)]
    rfl
  | refuse x =>
    refine ⟨fun t ht => ?_, fun r hr => ?_⟩
    · cases ht
    · cases hr
      rfl

/-! ## What of the encoding it depends on -/

/-- `enabled` is what the fields of the writemask say; without any, every element is enabled. -/
theorem sourceCtx_enabled {i : Instr} {s : State} {c : SourceCtx} {rm : RmOperand}
    (hc : i.sourceCtx s = some (c, rm)) : c.enabled = s.laneEnabled i.masking.1 := by
  cases i with
  | vcvtpd2dqReservedLength => cases hc
  | _ =>
    obtain ⟨rfl, -⟩ := Prod.mk.inj (Option.some.inj hc)
    rfl

theorem sourceCtx_enabled_of_not_evex {i : Instr} {s : State} {c : SourceCtx} {rm : RmOperand}
    (hc : i.sourceCtx s = some (c, rm)) (hf : c.form.isEvex = false) : c.enabled = fun _ => true := by
  cases i with
  | vcvtpd2dqReservedLength => cases hc
  | vcvtpd2dqEvex128 | vcvtpd2dqEvex256 | vcvtpd2dqEvex512 | vcvtpd2dqEvex512Er =>
    obtain ⟨rfl, -⟩ := Prod.mk.inj (Option.some.inj hc)
    cases hf
  | _ =>
    obtain ⟨rfl, -⟩ := Prod.mk.inj (Option.some.inj hc)
    rfl

/-- What two contexts must share for their instructions to do the same with one source operand: the number of
elements, which of them are enabled, and the broadcast; whether they are of form F1; and where they are not both of
EVEX or both not, that nothing is masked off. -/
structure SameWork (c c' : SourceCtx) : Prop where
  kl : c.form.kl = c'.form.kl
  enabled : c.enabled = c'.enabled
  bcast : c.bcast = c'.bcast
  f1 : c.form = .f1 ↔ c'.form = .f1
  evex : c.form.isEvex = c'.form.isEvex ∨ c.enabled = fun _ => true

theorem SameWork.width {c c' : SourceCtx} (h : SameWork c c') : c.width = c'.width := by
  rw [SourceCtx.width, SourceCtx.width, h.kl, h.bcast]

theorem SameWork.checkedParts {c c' : SourceCtx} (h : SameWork c c') (suppress : Bool) :
    c.checkedParts suppress = c'.checkedParts suppress := by
  rcases h.evex with hev | hall
  · rw [SourceCtx.checkedParts, SourceCtx.checkedParts, h.width, hev, h.kl, h.enabled, h.bcast]
  · have hall' : c'.enabled = fun _ => true := h.enabled ▸ hall
    rw [SourceCtx.checkedParts_of_all_enabled (fun j _ => by rw [hall]),
      SourceCtx.checkedParts_of_all_enabled (fun j _ => by rw [hall']), h.width]

theorem SameWork.checkOperand {s : State} {c c' : SourceCtx} (h : SameWork c c') {a a' : Address}
    (hseg : s.operandSegment c a = s.operandSegment c' a') (hea : s.effAddr c a = s.effAddr c' a') :
    s.checkOperand c a = s.checkOperand c' a' := by
  by_cases hf : c.form = .f1
  · simp [State.checkOperand, State.operandAddr, hseg, hea, hf, h.f1.1 hf, h.checkedParts]
  · have hf' : c'.form ≠ .f1 := fun h' => hf (h.f1.2 h')
    simp [State.checkOperand, State.operandAddr, hseg, hea, hf, hf', h.width, h.checkedParts]

theorem SameWork.loadSource {s : State} {c c' : SourceCtx} (h : SameWork c c') {rm rm' : RmOperand}
    (hsame : s.SameOperand c c' rm rm') : s.loadSource c rm = s.loadSource c' rm' := by
  cases rm with
  | reg n =>
    cases rm' with
    | mem a => cases hsame
    | reg n' =>
      have hsrc : c.ext.source c.form n = c'.ext.source c'.form n' := hsame
      have helem : s.sourceElement c (.reg n) = s.sourceElement c' (.reg n') := by
        funext j
        simp only [State.sourceElement, hsrc]
      rw [State.loadSource, State.loadSource, helem]
  | mem a =>
    cases rm' with
    | reg n => cases hsame
    | mem a' =>
      obtain ⟨hseg, hea⟩ := hsame
      have helem : s.sourceElement c (.mem a) = s.sourceElement c' (.mem a') := by
        funext j
        simp only [State.sourceElement, State.operandAddr, hseg, hea, h.bcast]
      rw [State.loadSource, State.loadSource, helem, h.checkOperand hseg hea]

theorem SameWork.convertAndWrite {s : State} {c c' : SourceCtx} (h : SameWork c c') (d : BitVec 5) (z : Bool)
    (er : Option RoundingMode) : s.convertAndWrite c d z er = s.convertAndWrite c' d z er := by
  funext src
  simp only [State.convertAndWrite, State.formResponse, formResult, h.kl, h.enabled, h.f1]

/-- The common part of the two instructions, where their prologues agree. -/
theorem SameWork.runForm {s : State} {c c' : SourceCtx} (h : SameWork c c') {rm rm' : RmOperand}
    (hsame : s.SameOperand c c' rm rm') (hpro : s.prologue c.form false = s.prologue c'.form false) (d : BitVec 5)
    (z : Bool) (er : Option RoundingMode) : s.runForm c rm false d z er = s.runForm c' rm' false d z er := by
  rw [State.runForm, State.runForm, hpro, h.loadSource hsame, h.convertAndWrite]

/-- Forms of equal KL, none of them F1, that are not both of EVEX or both not, are F2 and F4, or F3 and F5: with one
writemask for both, which the VEX one does not have, nothing is masked off. -/
theorem sameWork_of_kl {i j : Instr} {s : State} {c c' : SourceCtx} {rm rm' : RmOperand}
    (hi : i.sourceCtx s = some (c, rm)) (hj : j.sourceCtx s = some (c', rm')) (hkl : c.form.kl = c'.form.kl)
    (hf1 : c.form = .f1 ↔ c'.form = .f1) (hmask : i.masking = j.masking) (hbcast : c.bcast = c'.bcast) :
    SameWork c c' := by
  have hen : c.enabled = c'.enabled := by rw [sourceCtx_enabled hi, sourceCtx_enabled hj, hmask]
  refine ⟨hkl, hen, hbcast, hf1, ?_⟩
  cases hev : c.form.isEvex with
  | false => exact .inr (sourceCtx_enabled_of_not_evex hi hev)
  | true =>
    cases hev' : c'.form.isEvex with
    | true => exact .inl rfl
    | false => exact .inr (hen.trans (sourceCtx_enabled_of_not_evex hj hev'))

theorem sourceCtx_destReg {i : Instr} {s : State} {x : SourceCtx × RmOperand} (hi : i.sourceCtx s = some x) :
    ∃ d, i.destReg = some d := by
  obtain ⟨-, d, -, -, hd, -⟩ := exec_shape hi
  exact ⟨d, hd⟩

/-- Settles O56: the two instructions are the same up to the advance of `ip`. -/
theorem equivalentEncodings : Obligations.EquivalentEncodings := by
  intro i j s c c' rm rm' htrap hi hj hri hrj hforms hdest hmask her hbcast hsame
  obtain ⟨d, hd⟩ := sourceCtx_destReg hi
  have hkl : c.form.kl = c'.form.kl := hforms.elim (congrArg Form.kl) And.left
  have hf1 : c.form = .f1 ↔ c'.form = .f1 := by
    rcases hforms with hf | ⟨-, hf, hf', -⟩
    · rw [hf]
    · exact iff_of_false hf hf'
  have hpro : s.prologue c.form false = s.prologue c'.form false := by
    rcases hforms with hf | ⟨-, -, -, hon, hon'⟩
    · rw [hf]
    · exact (State.prologue_eq_ok (x := ()).2 ⟨rfl, hon⟩).trans (State.prologue_eq_ok.2 ⟨rfl, hon'⟩).symm
  have hrun := (sameWork_of_kl hi hj hkl hf1 hmask hbcast).runForm hsame hpro d i.masking.2 i.erMode
  have hexec := exec_eq_runForm hi hd
  have hexec' := exec_eq_runForm hj (hdest ▸ hd)
  rw [hri] at hexec
  rw [hrj, ← hmask, ← her, ← hrun] at hexec'
  rw [hexec, hexec']
  exact outcome_advance_of_eq _ _ htrap (fun _ => State.runForm_eq_ok) fun _ => State.runForm_eq_raise

end Sys2Proof.Machine

/-! SUPPORT. A table word placed at reset, and the step that runs it (10_state.md R35, 20_memory.md R55). -/

namespace Sys2Proof.Machine

/-! ## Placed bytes are read back -/

/-- One placed byte. -/
def State.writeByte (s : State) (a : Qword) (b : Byte) : State :=
  { s with mem := s.mem.write a.toNat b }

theorem State.writeBytes_cons (s : State) (la : Qword) (i : Nat) (b : Byte) (bs : List Byte) :
    s.writeBytes la i (b :: bs) = (s.writeByte (s.byteAddr la i) b).writeBytes la (i + 1) bs := rfl

@[simp] theorem State.byteAddr_writeByte (s : State) (a : Qword) (b : Byte) (la : Qword) (i : Nat) :
    (s.writeByte a b).byteAddr la i = s.byteAddr la i := rfl

theorem State.wf_mem_writeByte {s : State} (hwf : s.mem.wf = true) (a : Qword) (b : Byte) :
    (s.writeByte a b).mem.wf = true :=
  Memory.wf_write s.mem a.toNat b hwf a.isLt

theorem State.readByte_writeByte {s : State} (hwf : s.mem.wf = true) (a x : Qword) (b : Byte) :
    (s.writeByte a b).readByte x = if x = a then b else s.readByte x := by
  simp only [Memory.wf, Bool.and_eq_true] at hwf
  simp only [State.readByte, State.writeByte, Memory.read_write _ 0 _ _ _ hwf.1, BitVec.toNat_inj]

/-- A byte outside those that are placed is what it was. -/
theorem State.readByte_writeBytes_other (bs : List Byte) {s : State} {la a : Qword} {i : Nat}
    (hwf : s.mem.wf = true) (ha : ∀ j, i ≤ j → j < i + bs.length → a ≠ s.byteAddr la j) :
    (s.writeBytes la i bs).readByte a = s.readByte a := by
  induction bs generalizing s i with
  | nil => rfl
  | cons b bs ih =>
    rw [List.length_cons] at ha
    rw [State.writeBytes_cons, ih (State.wf_mem_writeByte hwf _ _) fun j hj hj' => ha j (by omega) (by omega),
      State.readByte_writeByte hwf, if_neg (ha i le_rfl (by omega))]

/-- Bytes placed at addresses that differ are all read back. -/
theorem State.readByte_writeBytes (bs : List Byte) {s : State} {la : Qword} {i k : Nat} (hwf : s.mem.wf = true)
    (hne : ∀ j j', i ≤ j → j < j' → j' < i + bs.length → s.byteAddr la j ≠ s.byteAddr la j')
    (hk : k < bs.length) : (s.writeBytes la i bs).readByte (s.byteAddr la (i + k)) = bs[k] := by
  induction bs generalizing s i k with
  | nil => cases hk
  | cons b bs ih =>
    rw [List.length_cons] at hne hk
    have hwf' := State.wf_mem_writeByte hwf (s.byteAddr la i) b
    rw [State.writeBytes_cons]
    cases k with
    | zero =>
      change ((s.writeByte (s.byteAddr la i) b).writeBytes la (i + 1) bs).readByte (s.byteAddr la i) = b
      rw [State.readByte_writeBytes_other bs hwf' fun j hj hj' => hne i j le_rfl (by omega) (by omega),
        State.readByte_writeByte hwf, if_pos rfl]
    | succ k =>
      have hk' : i + (k + 1) = i + 1 + k := by omega
      rw [hk']
      exact ih hwf' (fun j j' hj hjj' hj' => hne j j' (by omega) hjj' (by omega)) (by omega)

theorem State.byteAddr_mode64 {s : State} (hm : s.mode = .mode64) (la : Qword) (i : Nat) :
    s.byteAddr la i = la + BitVec.ofNat 64 i := by
  rw [State.byteAddr, hm, truncAddr_mode64]

theorem State.byteAddr_mode64_ne {s : State} (hm : s.mode = .mode64) (la : Qword) {i j : Nat} (hij : i < j)
    (hj : j < 2 ^ 64) : s.byteAddr la i ≠ s.byteAddr la j := by
  rw [State.byteAddr_mode64 hm, State.byteAddr_mode64 hm]
  intro h
  have hnat := congrArg BitVec.toNat (add_left_cancel h)
  rw [BitVec.toNat_ofNat, BitVec.toNat_ofNat] at hnat
  omega

@[simp] theorem length_tableBytes (nbits w : Nat) : (tableBytes nbits w).length = maxInstrBytes := by
  simp [tableBytes]

/-- The fetch window over as many bytes placed there is those bytes. -/
theorem State.fetchWindow_writeBytes {s : State} (hm : s.mode = .mode64) (hwf : s.mem.wf = true) {bs : List Byte}
    (hlen : bs.length = maxInstrBytes) : (s.writeBytes s.fetchAddr 0 bs).fetchWindow = bs := by
  obtain ⟨m, hmem, -⟩ := s.writeBytes_spec s.fetchAddr 0 bs hwf
  have haddr : ∀ i, (s.writeBytes s.fetchAddr 0 bs).byteAddr (s.writeBytes s.fetchAddr 0 bs).fetchAddr i =
      s.byteAddr s.fetchAddr (0 + i) := by
    intro i
    rw [hmem, Nat.zero_add]
    rfl
  refine List.ext_getElem (by simp [State.fetchWindow, hlen]) fun i hi hi' => ?_
  simp only [State.fetchWindow, List.getElem_map, List.getElem_range, haddr]
  refine State.readByte_writeBytes bs hwf (fun j j' _ hjj' hj' => State.byteAddr_mode64_ne hm _ hjj' ?_) hi'
  rw [hlen, maxInstrBytes] at hj'
  omega

/-- Placing a table word changes the mode, the trap record and memory alone. -/
theorem State.withFetchWord_eq {s : State} (hwf : s.mem.wf = true) (nbits w : Nat) :
    ∃ m : Memory, s.withFetchWord nbits w = { s.readyToFetch with mem := m } := by
  obtain ⟨m, hs, -⟩ := s.readyToFetch.writeBytes_spec s.readyToFetch.fetchAddr 0 (tableBytes nbits w) hwf
  exact ⟨m, hs⟩

theorem State.fetchWindow_withFetchWord {s : State} (hwf : s.mem.wf = true) (hm : s.readyToFetch.mode = .mode64)
    (nbits w : Nat) : (s.withFetchWord nbits w).fetchWindow = tableBytes nbits w := by
  rw [State.withFetchWord]
  exact State.fetchWindow_writeBytes hm hwf (length_tableBytes nbits w)

/-! ## The step after reset -/

/-- Where no table of MemCheck answers, only the canonical test is left. -/
theorem State.memCheckOk_of_unprotected {s : State} (hprot : s.prot = ⟨[], [], [], []⟩) {fetch : Bool} {seg : Seg}
    {ea la : Qword} {ps : List Part} (hcan : ∀ o ∈ partBytes ps, s.canonicalOk (s.byteAddr la o) = true) :
    s.memCheckOk fetch seg ea la ps = true := by
  simpa [State.memCheckOk, State.byteOk, State.partFault, State.segmentViolation, State.pageFault, State.isDevice,
    hprot] using hcan

/-- The reset address and the 15 after it are canonical. -/
theorem canonical_after_reset {i : Nat} (hi : i ≤ maxInstrBytes) :
    canonical false (0xFFF0#64 + BitVec.ofNat 64 i) = true := by
  have hall : ∀ i ≤ maxInstrBytes, canonical false (0xFFF0#64 + BitVec.ofNat 64 i) = true := by decide
  exact hall i hi

theorem State.not_straddles_of_unprotected {s : State} (hm : s.mode = .mode64) (hprot : s.prot = ⟨[], [], [], []⟩)
    {n : Nat} (hend : s.ip.toNat + n < 2 ^ 64)
    (hcan : ∀ i, i ≤ n → canonical s.cfg.la57 (s.ip + BitVec.ofNat 64 i) = true) : ¬ s.Straddles n := by
  rintro (⟨-, hover | ⟨i, hi, hc⟩⟩ | ⟨h32, -⟩ | ⟨i, -, hv⟩ | hp)
  · omega
  · simp [hcan i hi] at hc
  · simp [hm] at h32
  · simp [State.segmentViolation, hprot] at hv
  · simp [State.partFault, hprot] at hp

@[simp] theorem State.length_fetchWindow (s : State) : s.fetchWindow.length = maxInstrBytes := by
  simp [State.fetchWindow]

/-- At the reset address in Mode64, with nothing in MemCheck's tables, what decodes runs. -/
theorem step_at_reset_address {s : State} {i : Instr} {rest : List Byte} (ht : s.trap = none)
    (hm : s.mode = .mode64) (hip : s.ip = 0xFFF0#64) (hla : s.cfg.la57 = false) (hprot : s.prot = ⟨[], [], [], []⟩)
    (hdec : decode s.mode s.fetchWindow = .ok (i, rest)) : step s = exec i s := by
  have hilen : i.ilen ≤ maxInstrBytes := by
    obtain ⟨hlen, -⟩ := decodeConsumesIlen _ _ _ _ hdec
    rw [State.length_fetchWindow] at hlen
    omega
  have hcan : ∀ j, j ≤ maxInstrBytes → canonical s.cfg.la57 (s.ip + BitVec.ofNat 64 j) = true := fun j hj => by
    rw [hla, hip]
    exact canonical_after_reset hj
  have hbytes : ∀ n, n ≤ maxInstrBytes → s.memCheckOk true .cs s.instrPtr s.fetchAddr [⟨0, n⟩] = true := by
    refine fun n hn => State.memCheckOk_of_unprotected hprot fun o ho => ?_
    rw [partBytes_whole, List.mem_range] at ho
    rw [State.byteAddr_mode64 hm, State.fetchAddr_mode64 hm]
    simpa [State.canonicalOk, hm] using hcan o (ho.le.trans hn)
  refine stepRunsDecodedInstr s i rest ht (by rw [hm]; rfl) (hbytes 1 (by decide)) hdec
    (State.not_straddles_of_unprotected hm hprot ?_ fun j hj => hcan j (hj.trans hilen)) (hbytes _ hilen)
  rw [hip, BitVec.toNat_ofNat]
  rw [maxInstrBytes] at hilen
  omega

/-- Settles O10: the placed bytes are the fetch window, and nothing at reset stands against fetching them. -/
theorem placedWordRunsAfterReset : Obligations.PlacedWordRunsAfterReset := by
  intro nbits w i hword
  have hwindow := State.fetchWindow_withFetchWord (s := State.reset) Memory.wf_reset rfl nbits w
  obtain ⟨m, hs⟩ := State.withFetchWord_eq (s := State.reset) Memory.wf_reset nbits w
  unfold decodeTableWord at hword
  split at hword
  · rename_i i' rest hdec
    obtain rfl := Option.some.inj hword
    have hmode : (State.reset.withFetchWord nbits w).mode = .mode64 := congrArg State.mode hs
    have htrap : (State.reset.withFetchWord nbits w).trap = none := congrArg State.trap hs
    have hip : (State.reset.withFetchWord nbits w).ip = 0xFFF0#64 := congrArg State.ip hs
    have hcfg : (State.reset.withFetchWord nbits w).cfg = Config.reset := congrArg State.cfg hs
    have hprot : (State.reset.withFetchWord nbits w).prot = ⟨[], [], [], []⟩ := congrArg State.prot hs
    exact step_at_reset_address htrap hmode hip (by rw [hcfg]; rfl) hprot (by rw [hmode, hwindow, hdec])
  · cases hword

end Sys2Proof.Machine

/-! SUPPORT. The conversion of one element is the function of exact rationals (40_conversion.md R100 to R112). -/

namespace Sys2Proof

/-- The mode that rounds the negated value to the negated integer. -/
def RoundingMode.mirror : RoundingMode → RoundingMode
  | .rn => .rn
  | .rd => .ru
  | .ru => .rd
  | .rz => .rz

end Sys2Proof

namespace Sys2Proof.Machine

/-! ## The rounding functions (40_conversion.md R104) -/

/-- An integer is its own rounding. -/
@[simp] theorem ratRound_intCast (rm : RoundingMode) (n : ℤ) : ratRound rm n = n := by
  cases rm <;> simp [ratRound]

theorem ratRound_floor_bounds (rm : RoundingMode) (v : ℚ) :
    ⌊v⌋ ≤ ratRound rm v ∧ ratRound rm v ≤ ⌊v⌋ + 1 := by
  have hceil : ⌊v⌋ ≤ ⌈v⌉ ∧ ⌈v⌉ ≤ ⌊v⌋ + 1 := ⟨Int.floor_le_ceil v, Int.ceil_le_floor_add_one v⟩
  cases rm with
  | rd => exact ⟨le_rfl, by simp [ratRound]⟩
  | ru => exact hceil
  | rn | rz =>
    simp only [ratRound]
    split_ifs <;> omega

/-- Every rounding function is monotone: where the floors differ they decide, else the fractions do. -/
theorem ratRound_mono (rm : RoundingMode) : Monotone (ratRound rm) := by
  intro u v huv
  rcases (Int.floor_mono huv).lt_or_eq with hlt | heq
  · have hu := ratRound_floor_bounds rm u
    have hv := ratRound_floor_bounds rm v
    omega
  · cases rm with
    | rd => exact heq.le
    | ru => exact Int.ceil_mono huv
    | rz =>
      have hsign : 0 ≤ u ↔ 0 ≤ v := by rw [← Int.floor_nonneg, heq, Int.floor_nonneg]
      simp only [ratRound, hsign, heq]
      split_ifs
      · exact le_rfl
      · exact Int.ceil_mono huv
    | rn =>
      simp only [ratRound, heq]
      split_ifs <;> linarith

theorem floor_neg_of_ne {v : ℚ} (h : v ≠ ⌊v⌋) : ⌊-v⌋ = -⌊v⌋ - 1 := by
  have hlt : (⌊v⌋ : ℚ) < v := lt_of_le_of_ne (Int.floor_le v) (Ne.symm h)
  have hup := Int.lt_floor_add_one v
  rw [Int.floor_eq_iff]
  push_cast
  constructor <;> linarith

/-- Rounding is odd, once the modes down and up change places. -/
theorem ratRound_neg (rm : RoundingMode) (v : ℚ) : ratRound rm (-v) = -ratRound rm.mirror v := by
  by_cases h : v = ⌊v⌋
  · rw [h, ratRound_intCast, ← Int.cast_neg, ratRound_intCast]
  · cases rm with
    | rd => exact Int.floor_neg
    | ru => exact Int.ceil_neg
    | rz =>
      have hne : v ≠ 0 := fun h0 => h (by simp [h0])
      have hsign : 0 ≤ -v ↔ ¬ 0 ≤ v := by
        rw [neg_nonneg, not_le]
        exact ⟨fun hle => lt_of_le_of_ne hle hne, le_of_lt⟩
      simp only [RoundingMode.mirror, ratRound, hsign, Int.floor_neg, Int.ceil_neg, ite_not]
      split_ifs <;> rfl
    | rn =>
      have hfract : -v - ((-⌊v⌋ - 1 : ℤ) : ℚ) = 1 - (v - ⌊v⌋) := by
        push_cast
        ring
      have hlow : 1 - (v - ⌊v⌋) < 1 / 2 ↔ 1 / 2 < v - ⌊v⌋ := by constructor <;> intro h <;> linarith
      have hhigh : 1 / 2 < 1 - (v - ⌊v⌋) ↔ v - ⌊v⌋ < 1 / 2 := by constructor <;> intro h <;> linarith
      simp only [RoundingMode.mirror, ratRound, floor_neg_of_ne h, hfract, hlow, hhigh]
      rcases lt_trichotomy (v - ⌊v⌋) (1 / 2) with hlt | heq | hgt
      · simp only [if_pos hlt, if_neg hlt.not_gt]
        omega
      · simp only [heq, lt_irrefl, if_false]
        split_ifs <;> omega
      · simp only [if_pos hgt, if_neg hgt.not_gt]
        omega

/-! ## The integer rounding is that rounding (40_conversion.md R103) -/

theorem roundInt_true (rm : RoundingMode) (m sh : Nat) : roundInt rm true m sh = -roundInt rm.mirror false m sh := by
  cases rm <;> rfl

/-- The value's integer part and fraction are the quotient and the remainder. -/
theorem ratRound_div_two_pow (rm : RoundingMode) (m : Nat) {sh : Nat} (hsh : 0 < sh) :
    ratRound rm ((m : ℚ) / 2 ^ sh) = roundInt rm false m sh := by
  obtain ⟨hf0, hf1⟩ := rem_lt m sh
  obtain ⟨hlow, hhigh⟩ := rem_half m sh hsh
  have hzero := rem_eq_zero m sh
  have hsplit : (m : ℚ) / 2 ^ sh = ((m / 2 ^ sh : Nat) : ℤ) + ((m % 2 ^ sh : Nat) : ℚ) / 2 ^ sh := div_split m sh
  have hfloor := floor_of_split _ _ _ hsplit hf0 hf1
  cases rm with
  | rd => simpa [ratRound, roundInt, roundUp] using hfloor
  | rz =>
    have hpos : (0 : ℚ) ≤ m / 2 ^ sh := by positivity
    simpa [ratRound, roundInt, roundUp, hpos] using hfloor
  | ru =>
    have hceil := ceil_of_split _ _ _ hsplit hf0 hf1
    simp only [ratRound, hceil, hzero, roundInt, roundUp]
    split_ifs <;> simp_all
  | rn =>
    have hfract : (m : ℚ) / 2 ^ sh - ((m / 2 ^ sh : Nat) : ℤ) = ((m % 2 ^ sh : Nat) : ℚ) / 2 ^ sh := by
      rw [hsplit, add_sub_cancel_left]
    simp only [ratRound, hfloor, hfract, hlow, hhigh, roundInt, roundUp]
    rcases lt_trichotomy (m % 2 ^ sh) (2 ^ (sh - 1)) with hlt | heq | hgt
    · simp [hlt, hlt.ne, hlt.not_gt]
    · simp only [heq, lt_irrefl, decide_false, decide_true, Bool.true_and, Bool.false_or, if_false]
      generalize m / 2 ^ sh = q
      simp only [decide_eq_true_eq, Bool.false_eq_true, if_false]
      split_ifs <;> omega
    · simp [hgt, hgt.not_gt]

/-! ## Which values are integers -/

theorem ratRound_eq_self_iff (rm : RoundingMode) (v : ℚ) : (ratRound rm v : ℚ) = v ↔ ∃ n : ℤ, v = n := by
  refine ⟨fun h => ⟨_, h.symm⟩, ?_⟩
  rintro ⟨n, rfl⟩
  rw [ratRound_intCast]

theorem exists_intCast_eq_div_two_pow (m sh : Nat) : (∃ n : ℤ, (m : ℚ) / 2 ^ sh = n) ↔ m % 2 ^ sh = 0 := by
  have hsplit : (m : ℚ) / 2 ^ sh = ((m / 2 ^ sh : Nat) : ℤ) + ((m % 2 ^ sh : Nat) : ℚ) / 2 ^ sh := div_split m sh
  obtain ⟨hf0, hf1⟩ := rem_lt m sh
  have hfloor := floor_of_split _ _ _ hsplit hf0 hf1
  rw [← rem_eq_zero]
  constructor
  · rintro ⟨n, hn⟩
    rw [hn, Int.floor_intCast] at hfloor
    rw [hn, hfloor] at hsplit
    linarith
  · intro h
    exact ⟨_, by rw [hsplit, h, add_zero]⟩

theorem exists_intCast_eq_sign_mul (s : Bool) (v : ℚ) :
    (∃ n : ℤ, (if s then -1 else 1) * v = n) ↔ ∃ n : ℤ, v = n := by
  cases s with
  | false => simp
  | true =>
    constructor
    · rintro ⟨n, hn⟩
      exact ⟨-n, by push_cast; rw [← hn]; simp⟩
    · rintro ⟨n, rfl⟩
      exact ⟨-n, by simp⟩

/-! ## The shifted significand (40_conversion.md R103) -/

section Shifted

variable (rm : RoundingMode) {x : Qword} (h : biasedExp x < 1075)

include h

/-- Where the exponent leaves a shift to the right, the two roundings agree. -/
theorem roundInt_eq_ratRound :
    roundInt rm (signBit x) (significand x) (shiftRight x) = ratRound rm (ratValue x) := by
  have hsh := shiftRight_pos x h
  rw [ratValue_eq x h]
  cases signBit x with
  | false => simp [ratRound_div_two_pow _ _ hsh]
  | true => simp [ratRound_neg, roundInt_true, ratRound_div_two_pow _ _ hsh]

/-- The remainder tells whether rounding leaves the value as it is. -/
theorem significand_mod_eq_zero_iff :
    significand x % 2 ^ shiftRight x = 0 ↔ (ratRound rm (ratValue x) : ℚ) = ratValue x := by
  rw [ratRound_eq_self_iff, ratValue_eq x h, exists_intCast_eq_sign_mul, exists_intCast_eq_div_two_pow]

end Shifted

/-! ## Magnitudes (40_conversion.md R101) -/

theorem fraction_lt (x : Qword) : fraction x < 2 ^ 52 := (x.extractLsb' 0 52).isLt

theorem abs_ratValue (x : Qword) :
    |ratValue x| =
      if biasedExp x = 0 then (fraction x : ℚ) / 2 ^ 1074
      else ((2 ^ 52 + fraction x : ℕ) : ℚ) * 2 ^ biasedExp x / 2 ^ 1075 := by
  have hsign : |(if signBit x then -1 else 1 : ℚ)| = 1 := by cases signBit x <;> simp
  rw [ratValue, abs_mul, hsign, one_mul, abs_of_nonneg]
  split_ifs <;> positivity

theorem ratValue_eq_sign_mul_abs (x : Qword) :
    ratValue x = (if signBit x then -1 else 1) * |ratValue x| := by
  rw [abs_ratValue]
  rfl

/-- A normal value with exponent at least `n`. -/
theorem two_pow_le_abs_ratValue {x : Qword} {n : Nat} (h0 : biasedExp x ≠ 0) (h : n ≤ biasedExp x) :
    (2 : ℚ) ^ n / 2 ^ 1023 ≤ |ratValue x| := by
  have hf : (2 : ℚ) ^ 52 ≤ (2 ^ 52 + fraction x : ℕ) := by exact_mod_cast Nat.le_add_right _ _
  have hpow : (2 : ℚ) ^ n ≤ 2 ^ biasedExp x := pow_le_pow_right₀ (by norm_num) h
  have hexp : (2 : ℚ) ^ 1075 = 2 ^ 52 * 2 ^ 1023 := by rw [← pow_add]
  rw [abs_ratValue, if_neg h0, hexp, div_le_div_iff₀ (by positivity) (by positivity)]
  calc (2 : ℚ) ^ n * (2 ^ 52 * 2 ^ 1023) = 2 ^ 52 * 2 ^ n * 2 ^ 1023 := by rw [mul_left_comm, mul_assoc]
    _ ≤ ((2 ^ 52 + fraction x : ℕ) : ℚ) * 2 ^ biasedExp x * 2 ^ 1023 := by gcongr

/-- A zero or a denormal is below every normal value. -/
theorem abs_ratValue_lt_of_zero_exp {x : Qword} (h : biasedExp x = 0) : |ratValue x| < 2 ^ 1 / 2 ^ 1023 := by
  have hf : (fraction x : ℚ) < 2 ^ 52 := by exact_mod_cast fraction_lt x
  have hexp : (2 : ℚ) ^ 1 * 2 ^ 1074 = 2 ^ 52 * 2 ^ 1023 := by rw [← pow_add, ← pow_add]
  rw [abs_ratValue, if_pos h, div_lt_div_iff₀ (by positivity) (by positivity), hexp]
  gcongr

theorem abs_ratValue_lt_half {x : Qword} (h : biasedExp x = 0) : |ratValue x| < 1 / 2 := by
  refine (abs_ratValue_lt_of_zero_exp h).trans_le ?_
  rw [div_le_div_iff₀ (by positivity) two_pos, one_mul, ← pow_succ]
  exact pow_le_pow_right₀ one_le_two (by norm_num)

/-! ## Bounds on the rounded integer -/

theorem intCast_le_ratRound (rm : RoundingMode) {n : ℤ} {v : ℚ} (h : (n : ℚ) ≤ v) : n ≤ ratRound rm v := by
  simpa using ratRound_mono rm h

theorem ratRound_le_intCast (rm : RoundingMode) {n : ℤ} {v : ℚ} (h : v ≤ n) : ratRound rm v ≤ n := by
  simpa using ratRound_mono rm h

/-- A magnitude within an integer bound rounds to within that bound. -/
theorem abs_ratRound_le (rm : RoundingMode) {n : ℤ} {v : ℚ} (h : |v| ≤ n) : |ratRound rm v| ≤ n := by
  obtain ⟨hlow, hhigh⟩ := abs_le.1 h
  exact abs_le.2 ⟨intCast_le_ratRound rm (by exact_mod_cast hlow), ratRound_le_intCast rm hhigh⟩

/-- The rounded integer of a finite pattern is no signed doubleword (40_conversion.md R105, R107). -/
abbrev RoundsOutOfRange (rm : RoundingMode) (x : Qword) : Prop :=
  ratRound rm (ratValue x) < -2 ^ 31 ∨ 2 ^ 31 - 1 < ratRound rm (ratValue x)

theorem roundsOutOfRange_of_exp {x : Qword} (h : 1075 ≤ biasedExp x) (rm : RoundingMode) : RoundsOutOfRange rm x := by
  have hquot : (2 : ℚ) ^ 1075 / 2 ^ 1023 = 2 ^ 52 := by rw [div_eq_iff (by positivity), ← pow_add]
  have hmag : (2 : ℚ) ^ 52 ≤ |ratValue x| := hquot ▸ two_pow_le_abs_ratValue (by omega) h
  rcases le_abs.1 hmag with hpos | hneg
  · have hround := intCast_le_ratRound rm (n := 2 ^ 52) (by exact_mod_cast hpos)
    omega
  · have hround := ratRound_le_intCast rm (n := -2 ^ 52) (v := ratValue x) (by push_cast; linarith)
    omega

theorem not_roundsOutOfRange_of_abs_le {x : Qword} (h : |ratValue x| ≤ 2 ^ 31 - 1) (rm : RoundingMode) :
    ¬ RoundsOutOfRange rm x := by
  have hround := abs_le.1 (abs_ratRound_le rm (n := 2 ^ 31 - 1) (by exact_mod_cast h))
  omega

theorem not_roundsOutOfRange_of_zero_exp {x : Qword} (h : biasedExp x = 0) (rm : RoundingMode) :
    ¬ RoundsOutOfRange rm x :=
  not_roundsOutOfRange_of_abs_le (by linarith [abs_ratValue_lt_half h]) rm

theorem not_inInt32_iff (n : ℤ) : (!inInt32 n) = true ↔ n < -2 ^ 31 ∨ 2 ^ 31 - 1 < n := by
  simp only [inInt32, Bool.not_and, Bool.or_eq_true, Bool.not_eq_true', decide_eq_false_iff_not, not_le]

theorem toInt_ofInt_of_inRange {n : ℤ} (h : ¬ (n < -2 ^ 31 ∨ 2 ^ 31 - 1 < n)) : (BitVec.ofInt 32 n).toInt = n :=
  BitVec.toInt_ofInt_eq_self (by norm_num) (by norm_num; omega) (by norm_num; omega)

/-! ## The two conversions -/

/-- Settles O20: below exponent 1075 the roundings, the range tests and the tests for an integer agree one by one,
and from there on both conversions are invalid. -/
theorem convertIsRationalConvert : Obligations.ConvertIsRationalConvert := by
  intro x rm daz
  unfold convert ratConvert
  by_cases hnan : biasedExp x = 2047
  · rw [if_pos hnan, if_pos hnan]
  by_cases hzero : biasedExp x = 0 ∧ fraction x = 0
  · rw [if_neg hnan, if_neg hnan, if_pos hzero, if_pos hzero]
  by_cases hflush : biasedExp x = 0 ∧ daz = true
  · rw [if_neg hnan, if_neg hnan, if_neg hzero, if_neg hzero, if_pos hflush, if_pos hflush]
  rw [if_neg hnan, if_neg hnan, if_neg hzero, if_neg hzero, if_neg hflush, if_neg hflush]
  by_cases hbig : 1075 ≤ biasedExp x
  · rw [if_pos hbig, if_pos (roundsOutOfRange_of_exp hbig rm)]
  have hsmall := Nat.lt_of_not_le hbig
  simp only [if_neg hbig, roundInt_eq_ratRound rm hsmall, not_inInt32_iff, ne_eq,
    decide_not, decide_eq_decide.2 (significand_mod_eq_zero_iff rm hsmall)]
  by_cases hexact : (ratRound rm (ratValue x) : ℚ) = ratValue x <;> simp [hexact, FpFlags.none]

/-! ## Everything a conversion can be -/

/-- A pattern with exponent 2047 (40_conversion.md R110). -/
theorem convert_of_exp_2047 {x : Qword} (h : biasedExp x = 2047) (rm : RoundingMode) (daz : Bool) :
    convert x rm daz = (indefinite, ⟨true, false⟩) := if_pos h

/-- DAZ takes a denormal for zero (40_conversion.md R111). -/
theorem convert_flushed {x : Qword} (h : biasedExp x = 0) (rm : RoundingMode) :
    convert x rm true = (0#32, FpFlags.none) := by
  simp [convert, h]

/-- Every other pattern gives its rounded integer, where that is a doubleword (40_conversion.md R105 to R109). -/
theorem convert_rounded {x : Qword} {daz : Bool} (hfin : biasedExp x ≠ 2047)
    (hflush : ¬ (biasedExp x = 0 ∧ daz = true)) (rm : RoundingMode) :
    convert x rm daz =
      if RoundsOutOfRange rm x then (indefinite, ⟨true, false⟩)
      else (BitVec.ofInt 32 (ratRound rm (ratValue x)),
        ⟨false, decide ((ratRound rm (ratValue x) : ℚ) ≠ ratValue x)⟩) := by
  rw [convertIsRationalConvert, ratConvert, if_neg hfin]
  by_cases hzero : biasedExp x = 0 ∧ fraction x = 0
  · have hval : ratValue x = 0 := by simp [ratValue, hzero]
    have hround : ratRound rm 0 = 0 := by simpa using ratRound_intCast rm 0
    simp [hzero, hval, hround, RoundsOutOfRange, FpFlags.none]
  · simp only [if_neg hzero, if_neg hflush, RoundsOutOfRange]
    by_cases hexact : (ratRound rm (ratValue x) : ℚ) = ratValue x <;> simp [hexact, FpFlags.none]

/-- The three things a conversion can be: invalid, a denormal or zero that DAZ flushes, or the rounded integer. -/
inductive Converts (x : Qword) (rm : RoundingMode) (daz : Bool) : Prop where
  | invalid (hwhy : biasedExp x = 2047 ∨ RoundsOutOfRange rm x)
      (h : convert x rm daz = (indefinite, ⟨true, false⟩))
  | flushed (hexp : biasedExp x = 0) (hdaz : daz = true) (h : convert x rm daz = (0#32, FpFlags.none))
  | rounded (hfin : biasedExp x ≠ 2047) (hflush : ¬ (biasedExp x = 0 ∧ daz = true))
      (hrange : ¬ RoundsOutOfRange rm x)
      (h : convert x rm daz = (BitVec.ofInt 32 (ratRound rm (ratValue x)),
        ⟨false, decide ((ratRound rm (ratValue x) : ℚ) ≠ ratValue x)⟩))

theorem converts (x : Qword) (rm : RoundingMode) (daz : Bool) : Converts x rm daz := by
  by_cases hexp : biasedExp x = 2047
  · exact .invalid (.inl hexp) (convert_of_exp_2047 hexp rm daz)
  by_cases hflush : biasedExp x = 0 ∧ daz = true
  · obtain ⟨h0, rfl⟩ := hflush
    exact .flushed h0 rfl (convert_flushed h0 rm)
  have h := convert_rounded hexp hflush rm
  by_cases hrange : RoundsOutOfRange rm x
  · exact .invalid (.inr hrange) (h.trans (if_pos hrange))
  · exact .rounded hexp hflush hrange (h.trans (if_neg hrange))

/-- Settles O23: the test for exponent 2047 comes first. -/
theorem nanAndInfinityAreInvalid : Obligations.NanAndInfinityAreInvalid :=
  fun _ rm daz h => convert_of_exp_2047 h rm daz

/-- Settles O21: what DAZ flushes is too small to be out of range. -/
theorem invalidCondition : Obligations.InvalidCondition := by
  intro x rm daz
  cases converts x rm daz with
  | invalid hwhy h => exact ⟨iff_of_true (by rw [h]) hwhy, fun _ => by rw [h]; rfl⟩
  | flushed hexp _ h =>
    have hie : (convert x rm daz).2.ie = false := by rw [h]; rfl
    have hfin : biasedExp x ≠ 2047 := by omega
    have hrange := not_roundsOutOfRange_of_zero_exp hexp rm
    exact ⟨iff_of_false (by simp [hie]) (not_or.2 ⟨hfin, hrange⟩), by simp [hie]⟩
  | rounded hfin _ hrange h =>
    have hie : (convert x rm daz).2.ie = false := by rw [h]
    exact ⟨iff_of_false (by simp [hie]) (not_or.2 ⟨hfin, hrange⟩), by simp [hie]⟩

/-- Settles O22: a rounded conversion records PE where rounding changed the value, the others never. -/
theorem precisionCondition : Obligations.PrecisionCondition := by
  intro x rm daz
  cases converts x rm daz with
  | invalid _ h => simp [h]
  | flushed hexp hdaz h =>
    rw [h]
    simp [hexp, hdaz, FpFlags.none]
  | rounded _ hflush hrange h =>
    rw [h]
    exact ⟨by simp [hflush], fun _ => toInt_ofInt_of_inRange hrange⟩

/-- Settles O25: rounding stays within an integer bound, and no case of a conversion has both flags. -/
theorem smallValuesAreValid : Obligations.SmallValuesAreValid := by
  intro x rm daz
  cases converts x rm daz with
  | invalid hwhy h =>
    refine ⟨fun hfin hsmall => absurd hwhy (not_or.2 ⟨hfin, not_roundsOutOfRange_of_abs_le hsmall.le rm⟩), ?_⟩
    simp [h]
  | flushed _ _ h | rounded _ _ _ h => simp [h, FpFlags.none]

/-! ## Denormals (40_conversion.md R111) -/

theorem ratRound_tiny (rm : RoundingMode) {v : ℚ} (h0 : 0 < v) (h1 : v < 1 / 2) :
    ratRound rm v = if rm = .ru then 1 else 0 := by
  have hfloor : ⌊v⌋ = 0 := Int.floor_eq_zero_iff.2 ⟨h0.le, by linarith⟩
  have hceil : ⌈v⌉ = 1 := by
    rw [Int.ceil_eq_iff]
    constructor <;> norm_num <;> linarith
  cases rm <;> simp [ratRound, hfloor, hceil, h0.le, h1, -one_div]

theorem abs_ratValue_pos {x : Qword} (he : biasedExp x = 0) (hf : fraction x ≠ 0) : 0 < |ratValue x| := by
  have hf' : (0 : ℚ) < fraction x := by exact_mod_cast Nat.pos_of_ne_zero hf
  rw [abs_ratValue, if_pos he]
  positivity

/-- A denormal rounds to 0 but away from it in the directed mode of its sign. -/
theorem ratRound_denormal (rm : RoundingMode) {x : Qword} (he : biasedExp x = 0) (hf : fraction x ≠ 0) :
    ratRound rm (ratValue x) =
      if signBit x then (if rm = .rd then -1 else 0) else (if rm = .ru then 1 else 0) := by
  have htiny := fun rm' => ratRound_tiny rm' (abs_ratValue_pos he hf) (abs_ratValue_lt_half he)
  rw [ratValue_eq_sign_mul_abs]
  cases signBit x with
  | false => simp [htiny]
  | true => cases rm <;> simp [ratRound_neg, htiny, RoundingMode.mirror]

/-- No integer has the magnitude of a denormal. -/
theorem intCast_ne_denormal {x : Qword} (he : biasedExp x = 0) (hf : fraction x ≠ 0) (n : ℤ) :
    (n : ℚ) ≠ ratValue x := by
  intro hn
  have hpos := abs_ratValue_pos he hf
  have hlt := abs_ratValue_lt_half he
  rw [← hn, ← Int.cast_abs] at hpos hlt
  have hpos' : 0 < |n| := by exact_mod_cast hpos
  have hlt' : |n| < 1 := by exact_mod_cast hlt.trans one_half_lt_one
  omega

/-- Without DAZ a denormal gives that integer with PE alone. -/
theorem convert_denormal (rm : RoundingMode) {x : Qword} (he : biasedExp x = 0) (hf : fraction x ≠ 0) :
    convert x rm false = (BitVec.ofInt 32 (ratRound rm (ratValue x)), ⟨false, true⟩) := by
  rw [convert_rounded (by omega) (by simp) rm, if_neg (not_roundsOutOfRange_of_zero_exp he rm),
    decide_eq_true (intCast_ne_denormal he hf _)]

/-- Settles O24: DAZ flushes a denormal, and without it the mode and the sign say which tiny integer it rounds to. -/
theorem denormalSources : Obligations.DenormalSources := by
  intro x rm he hf
  simp only [convert_flushed he, convert_denormal _ he hf, ratRound_denormal _ he hf]
  refine ⟨rfl, trivial, ?_⟩
  cases signBit x <;> decide

/-! ## Monotonicity (40_conversion.md R109) -/

theorem abs_ratValue_lt_of_exp {x y : Qword} (hx : biasedExp x = 0) (hy : biasedExp y ≠ 0) :
    |ratValue x| < |ratValue y| :=
  (abs_ratValue_lt_of_zero_exp hx).trans_le (two_pow_le_abs_ratValue hy (Nat.one_le_iff_ne_zero.2 hy))

/-- A value above a smaller magnitude is not negative. -/
theorem nonneg_of_abs_lt {u v : ℚ} (habs : |u| < |v|) (h : u ≤ v) : 0 ≤ v := by
  by_contra hneg
  rw [abs_of_neg (not_le.1 hneg)] at habs
  linarith [neg_abs_le u]

/-- Settles O26: rounding is monotone, and what DAZ flushes lies between the negative and the positive normal
values, whose roundings are on either side of 0. -/
theorem convertIsMonotone : Obligations.ConvertIsMonotone := by
  intro x y rm daz hx hy hxy
  cases converts x rm daz with
  | invalid _ h => simp [h] at hx
  | flushed hexp hdaz hcx =>
    cases converts y rm daz with
    | invalid _ h => simp [h] at hy
    | flushed _ _ hcy => rw [hcx, hcy]
    | rounded _ hflush hrange hcy =>
      have hlt := abs_ratValue_lt_of_exp hexp fun h => hflush ⟨h, hdaz⟩
      rw [hcx, hcy, toInt_ofInt_of_inRange hrange]
      exact intCast_le_ratRound rm (by exact_mod_cast nonneg_of_abs_lt hlt hxy)
  | rounded _ hflush hrange hcx =>
    cases converts y rm daz with
    | invalid _ h => simp [h] at hy
    | flushed hexp hdaz hcy =>
      have hlt := abs_ratValue_lt_of_exp hexp fun h => hflush ⟨h, hdaz⟩
      have hneg : 0 ≤ -ratValue x := nonneg_of_abs_lt (by simpa using hlt) (neg_le_neg hxy)
      rw [hcx, hcy, toInt_ofInt_of_inRange hrange]
      exact ratRound_le_intCast rm (by push_cast; linarith)
    | rounded _ _ hrange' hcy =>
      rw [hcx, hcy, toInt_ofInt_of_inRange hrange, toInt_ofInt_of_inRange hrange']
      exact ratRound_mono rm hxy

/-- Settles O27: each of the eight rows is evaluated in the four modes. -/
theorem rangeEdges : Obligations.RangeEdges := by
  refine ⟨?_, ?_, ?_, ?_, ?_, ?_, ?_, ?_⟩ <;> decide

end Sys2Proof.Machine

/-! SUPPORT. What an instruction with a readable source answers: the floating-point response, and then the write
(40_conversion.md R114 to R117). -/

namespace Sys2Proof.Machine

/-! ## The flags of the enabled elements, and what they leave in MXCSR -/

/-- The flags that the enabled elements contribute together (40_conversion.md R114). -/
def enabledFlags (c : SourceCtx) (lane : Nat → Dword × FpFlags) : FpFlags :=
  flagsOf c.form.kl fun j => if c.enabled j then lane j else (0#32, FpFlags.none)

theorem enabledFlags_ie (c : SourceCtx) (lane : Nat → Dword × FpFlags) :
    (enabledFlags c lane).ie = true ↔ AnyIe c.form.kl c.enabled lane := by
  rw [enabledFlags, flagsOf_ie]
  refine exists_congr fun j => and_congr_right fun _ => ?_
  cases c.enabled j <;> simp [FpFlags.none]

theorem enabledFlags_pe (c : SourceCtx) (lane : Nat → Dword × FpFlags) :
    (enabledFlags c lane).pe = true ↔ AnyPe c.form.kl c.enabled lane := by
  rw [enabledFlags, flagsOf_pe]
  refine exists_congr fun j => and_congr_right fun _ => ?_
  cases c.enabled j <;> simp [FpFlags.none]

theorem stickyFlags_of_mxcsr {s t : State} {fl : FpFlags} {ie pe : Prop} (hm : t.mxcsr = (s.recordFlags fl).mxcsr)
    (hie : fl.ie = true ↔ ie) (hpe : fl.pe = true ↔ pe) : StickyFlags s t ie pe := by
  have hie' : t.ie = (s.ie || fl.ie) := (congrArg (BitVec.getLsbD · 0) hm).trans (s.ie_recordFlags fl)
  have hpe' : t.pe = (s.pe || fl.pe) := (congrArg (BitVec.getLsbD · 5) hm).trans (s.pe_recordFlags fl)
  refine ⟨by rw [hie', Bool.or_eq_true, hie], by rw [hpe', Bool.or_eq_true, hpe], fun b _ h0 h5 => ?_⟩
  rw [hm, s.getLsbD_mxcsr_recordFlags fl h0 h5]

/-- An instruction whose whole effect is to record flags, write one register and advance `ip` completes. -/
theorem completes_of_exec {i : Instr} {s : State} {fl : FpFlags} {d : BitVec 5} {v : Vec} {elem : Nat → Dword}
    {ie pe : Prop} (hexec : exec i s = .next (((s.recordFlags fl).writeZmm d v).advance i.ilen))
    (helem : ∀ j, j < 16 → (if 32 * j < s.cfg.maxvl.bits then dwordOf v j else dwordOf (s.readZmm d) j) = elem j)
    (hie : fl.ie = true ↔ ie) (hpe : fl.pe = true ↔ pe) : Completes i s d elem ie pe := by
  refine ⟨_, hexec, fun j hj => ?_, fun n hn => ?_, stickyFlags_of_mxcsr rfl hie hpe, rfl, rfl, fun _ => rfl⟩
  · rw [State.readZmm_advance, dwordOf_writeZmm]
    exact helem j hj
  · rw [State.readZmm_advance, State.readZmm_writeZmm_other _ _ _ _ hn, State.readZmm_recordFlags]

/-! ## Past the prologue and the read of the source -/

theorem exec_of_readable {i : Instr} {s : State} {c : SourceCtx} {rm : RmOperand} {d : BitVec 5}
    (hc : i.sourceCtx s = some (c, rm)) (hd : i.destReg = some d) (hr : i.reservedEncoding = false)
    (he : s.enabledFor c.form = true) (hread : s.readable c rm = true) :
    exec i s = ((s.convertAndWrite c d i.masking.2 i.erMode (s.sourceElement c rm)).andThen fun t =>
      .ok (t.advance i.ilen)).outcome := by
  have hpro : s.prologue c.form false = .ok () := State.prologue_eq_ok.2 ⟨rfl, he⟩
  have hload : s.loadSource c rm = .ok (s.sourceElement c rm) := State.loadSource_eq_ok.2 ⟨hread, rfl⟩
  rw [exec_eq_runForm hc hd, State.runForm, hr, hpro, Eff.ok_andThen, hload, Eff.ok_andThen]

/-! ## Embedded rounding (43_evex_forms.md R137) -/

theorem maxvl_of_enabledFor_evex {s : State} {form : Form} (hf : form.isEvex = true) (he : s.enabledFor form = true) :
    s.cfg.maxvl = .v512 := by
  simp only [State.enabledFor, Bool.and_eq_true] at he
  obtain ⟨-, hmax⟩ := he
  cases form with
  | f1 | f2 | f3 => cases hf
  | f4 | f5 | f6 => exact eq_of_beq hmax

theorem State.laneEnabled_iff (s : State) (aaa : BitVec 3) (j : Nat) :
    s.laneEnabled aaa j = true ↔ aaa = 0#3 ∨ (s.readK aaa).getLsbD j = true := by
  simp only [State.laneEnabled, Bool.or_eq_true, beq_iff_eq]

/-- Doubleword `j` of what an EVEX form writes (43_evex_forms.md R132, R133). -/
theorem dwordOf_formResult_evex {c : SourceCtx} (hf : c.form.isEvex = true) (z : Bool) (old : Vec) (r : Nat → Dword)
    (j : Nat) :
    dwordOf (formResult c z old r) j =
      if j < c.form.kl then maskedDword (c.enabled j) z (r j) (dwordOf old j) else 0#32 := by
  have hne : c.form ≠ .f1 := fun h => by simp [h, Form.isEvex] at hf
  have hkl : c.form.kl ≤ 16 := by cases c.form <;> decide
  rw [formResult, if_neg hne, dwordOf_packDwords _ _ _ hkl]

/-- Settles O32: no response is asked for, so MXCSR has no say, and no flag is recorded. -/
theorem embeddedRoundingResult : Obligations.EmbeddedRoundingResult := by
  intro pre e rc reg rm s i c d hr he
  have hexec : exec i s = .next (((s.recordFlags FpFlags.none).writeZmm d
      (formResult c e.z (s.readZmm d) fun j => (s.lane c (.reg rm) rc j).1)).advance i.ilen) := by
    rw [State.recordFlags_none, exec_of_readable (c := c) (d := d) rfl rfl hr he rfl]
    rfl
  refine ⟨completes_of_exec hexec (fun j hj => ?_) (by simp [FpFlags.none]) (by simp [FpFlags.none]), ?_⟩
  · have hbits : 32 * j < s.cfg.maxvl.bits := by
      rw [maxvl_of_enabledFor_evex rfl he, MaxVl.bits]
      omega
    rw [if_pos hbits, dwordOf_formResult_evex rfl]
    simp only [maskedDword, c, State.laneEnabled_iff]
    rfl
  · intro t ht
    cases hexec.symm.trans ht
    exact (congrArg State.mxcsr s.recordFlags_none :)

/-! ## The response of the other rows (40_conversion.md R116) -/

section Response

variable {s : State} {fl : FpFlags}

theorem State.exceptionResponse_of_unmasked_ie (hie : fl.ie = true) (him : s.im = false) :
    s.exceptionResponse fl =
      .raise { s with mxcsr := s.mxcsr ||| 1#32, trap := some ⟨s.simdException, .none⟩ } := by
  rw [State.exceptionResponse, hie, him]
  rfl

theorem State.exceptionResponse_of_unmasked_pe (hie : fl.ie = true → s.im = true) (hpe : fl.pe = true)
    (hpm : s.pm = false) :
    s.exceptionResponse fl =
      .raise { s with
        mxcsr := s.mxcsr ||| FpFlags.bits ⟨fl.ie, true⟩, trap := some ⟨s.simdException, .none⟩ } := by
  have hmasked : ¬ (fl.ie && !s.im) = true := by simpa using hie
  rw [State.exceptionResponse, if_neg hmasked, hpe, hpm]
  rfl

end Response

theorem erMode_of_not_isEr {i : Instr} (h : i.isEr = false) : i.erMode = none := by
  cases i with
  | vcvtpd2dqEvex512Er => cases h
  | _ => rfl

/-- Without embedded rounding the response to the flags of the enabled elements comes before the write. -/
theorem exec_response {i : Instr} {s : State} {c : SourceCtx} {rm : RmOperand} (hc : i.sourceCtx s = some (c, rm))
    (her : i.isEr = false) (hr : i.reservedEncoding = false) (he : s.enabledFor c.form = true)
    (hread : s.readable c rm = true) :
    ∃ d v, exec i s = ((s.exceptionResponse (enabledFlags c (s.lane c rm s.rc))).andThen fun s' =>
      .ok ((s'.writeZmm d v).advance i.ilen)).outcome := by
  obtain ⟨d, hd⟩ := sourceCtx_destReg hc
  refine ⟨d, formResult c i.masking.2 (s.readZmm d) fun j => (s.lane c rm s.rc j).1, ?_⟩
  rw [exec_of_readable hc hd hr he hread, erMode_of_not_isEr her, State.convertAndWrite, Eff.andThen_assoc]
  rfl

/-- Settles O34: each clause is one case of the response to the flags that the enabled elements contribute. -/
theorem unmaskedResponse : Obligations.UnmaskedResponse := by
  intro i s c rm hc her hr he hread ie pe x
  obtain ⟨d, v, hexec⟩ := exec_response hc her hr he hread
  have hie := enabledFlags_ie c (s.lane c rm s.rc)
  have hpe := enabledFlags_pe c (s.lane c rm s.rc)
  generalize enabledFlags c (s.lane c rm s.rc) = fl at hexec hie hpe
  simp only [hexec, ie, pe, ← hie, ← hpe]
  refine ⟨fun h him => ?_, fun h him hp hpm => ?_, fun h hp hpm => ?_, fun him hpm => ?_⟩
  · rw [State.exceptionResponse_of_unmasked_ie h him]
    rfl
  · rw [State.exceptionResponse_of_unmasked_pe (fun _ => him) hp hpm, h]
    rfl
  · rw [State.exceptionResponse_of_unmasked_pe (fun h' => absurd h' h) hp hpm, Bool.eq_false_iff.2 h]
    rfl
  · rw [State.exceptionResponse_eq_ok.2 ⟨him, hpm, rfl⟩]
    exact ⟨_, rfl, rfl, stickyFlags_of_mxcsr rfl Iff.rfl Iff.rfl⟩

end Sys2Proof.Machine

/-! SUPPORT. Completion and full effect where every contributed flag is masked (40_conversion.md R115), and the legacy
rows (41_sse_form.md R120). -/

namespace Sys2Proof.Machine

/-- Every contributed flag is masked where IM is set if some enabled element contributes IE, and PM if one
contributes PE. -/
theorem State.masked_iff (s : State) (kl : Nat) (enabled : Nat → Bool) (lane : Nat → Dword × FpFlags) :
    s.masked kl enabled lane = true ↔
      (AnyIe kl enabled lane → s.im = true) ∧ (AnyPe kl enabled lane → s.pm = true) := by
  have element (j : Nat) : (!enabled j || ((!(lane j).2.ie || s.im) && (!(lane j).2.pe || s.pm))) = true ↔
      (enabled j = true → (lane j).2.ie = true → s.im = true) ∧
        (enabled j = true → (lane j).2.pe = true → s.pm = true) := by
    simp only [imp_iff_not_or, Bool.not_eq_true, Bool.not_eq_true', Bool.or_eq_true, Bool.and_eq_true, or_and_left]
  simp only [State.masked, List.all_eq_true, List.mem_range, element, AnyIe, AnyPe, forall_exists_index, and_imp,
    ← forall_and]

/-- Without embedded rounding an instruction with a readable source and every contributed flag masked records the
flags of the enabled elements and writes its destination. -/
theorem completes_of_masked {i : Instr} {s : State} {c : SourceCtx} {rm : RmOperand} {d : BitVec 5}
    {elem : Nat → Dword} (hc : i.sourceCtx s = some (c, rm)) (hd : i.destReg = some d) (her : i.isEr = false)
    (hr : i.reservedEncoding = false) (he : s.enabledFor c.form = true) (hread : s.readable c rm = true)
    (hm : s.masked c.form.kl c.enabled (s.lane c rm s.rc) = true)
    (helem : ∀ j, j < 16 →
      (if 32 * j < s.cfg.maxvl.bits then
          dwordOf (formResult c i.masking.2 (s.readZmm d) fun j => (s.lane c rm s.rc j).1) j
        else dwordOf (s.readZmm d) j) = elem j) :
    Completes i s d elem (AnyIe c.form.kl c.enabled (s.lane c rm s.rc))
      (AnyPe c.form.kl c.enabled (s.lane c rm s.rc)) := by
  have hie := enabledFlags_ie c (s.lane c rm s.rc)
  have hpe := enabledFlags_pe c (s.lane c rm s.rc)
  obtain ⟨him, hpm⟩ := (s.masked_iff _ _ _).1 hm
  have hresp : s.formResponse c none (s.lane c rm s.rc) = .ok (s.recordFlags (enabledFlags c (s.lane c rm s.rc))) :=
    State.exceptionResponse_eq_ok.2 ⟨him ∘ hie.1, hpm ∘ hpe.1, rfl⟩
  refine completes_of_exec ?_ helem hie hpe
  rw [exec_of_readable hc hd hr he hread, erMode_of_not_isEr her]
  exact congrArg (fun e : Eff State => ((e.andThen _).andThen _).outcome) hresp

/-- Doubleword `j` of what form F1 writes, whatever MAXVL is: it has at least the 128 bits that F1 changes. -/
theorem dwordOf_formResult_legacy {c : SourceCtx} (hf : c.form = .f1) (z : Bool) (maxvl : MaxVl) (old : Vec)
    (r : Nat → Dword) (j : Nat) :
    (if 32 * j < maxvl.bits then dwordOf (formResult c z old r) j else dwordOf old j) =
      if j < 2 then r j else if j < 4 then 0#32 else dwordOf old j := by
  have hbits : 128 ≤ maxvl.bits := by cases maxvl <;> decide
  by_cases hj : 32 * j < maxvl.bits
  · rw [if_pos hj, formResult, if_pos hf, hf]
    exact dwordOf_legacy old r j
  · rw [if_neg hj, if_neg (by omega), if_neg (by omega)]

/-- Settles O28: both rows run form F1 with every element enabled, and differ in their extension bits alone. -/
theorem legacyResult : Obligations.LegacyResult := by
  constructor
  · intro ps reg rm s i c d hr he hread hm
    exact completes_of_masked (c := c) rfl rfl rfl hr he hread hm fun j _ => dwordOf_formResult_legacy rfl ..
  · intro ps x reg rm s i c d hr he hread hm
    exact completes_of_masked (c := c) rfl rfl rfl hr he hread hm fun j _ => dwordOf_formResult_legacy rfl ..

end Sys2Proof.Machine

/-! SUPPORT. The VEX rows (42_vex_forms.md R125, R126): every element converts, and zeros stand above the results up
to MAXVL, which is at least the 128 bits that either form's results need. -/

namespace Sys2Proof.Machine

/-- Doubleword `j` of the destination after the write of a form F2 or F3. -/
theorem dwordOf_formResult_vex {c : SourceCtx} (hf : c.form = .f2 ∨ c.form = .f3) (hall : ∀ j, c.enabled j = true)
    (z : Bool) (s : State) (d : BitVec 5) (r : Nat → Dword) (j : Nat) :
    (if 32 * j < s.cfg.maxvl.bits then dwordOf (formResult c z (s.readZmm d) r) j else dwordOf (s.readZmm d) j) =
      zeroExtended s d c.form.kl r j := by
  have hne : c.form ≠ .f1 := by rcases hf with h | h <;> simp [h]
  have hkl : c.form.kl ≤ 4 := by rcases hf with h | h <;> simp [h, Form.kl]
  have hbits : 128 ≤ s.cfg.maxvl.bits := by cases s.cfg.maxvl <;> decide
  have hresult : dwordOf (formResult c z (s.readZmm d) r) j = if j < c.form.kl then r j else 0#32 := by
    rw [formResult, if_neg hne, dwordOf_packDwords _ _ _ (by omega), maskedDword, if_pos (hall j)]
  rw [hresult, zeroExtended]
  by_cases hj : j < c.form.kl
  · rw [if_pos hj, if_pos hj, if_pos (by omega)]
  · rw [if_neg hj, if_neg hj]

/-- A VEX form with a readable source and every contributed flag masked completes, with zeros above its results. -/
theorem completes_vex {i : Instr} {s : State} {c : SourceCtx} {rm : RmOperand} {d : BitVec 5}
    (hf : c.form = .f2 ∨ c.form = .f3) (hall : ∀ j, c.enabled j = true) (hc : i.sourceCtx s = some (c, rm))
    (hd : i.destReg = some d) (her : i.isEr = false) (hr : i.reservedEncoding = false)
    (he : s.enabledFor c.form = true) (hread : s.readable c rm = true)
    (hm : s.masked c.form.kl c.enabled (s.lane c rm s.rc) = true) :
    Completes i s d (zeroExtended s d c.form.kl fun j => (s.lane c rm s.rc j).1)
      (AnyIe c.form.kl c.enabled (s.lane c rm s.rc)) (AnyPe c.form.kl c.enabled (s.lane c rm s.rc)) :=
  completes_of_masked hc hd her hr he hread hm fun j _ => dwordOf_formResult_vex hf hall _ s d _ j

/-- Settles O29: both rows run form F2 with every element enabled, and differ in their extension bits alone. -/
theorem vex128Result : Obligations.Vex128Result := by
  constructor
  · intro pre v reg rm s i c d
    exact completes_vex (c := c) (.inl rfl) (fun _ => rfl) rfl rfl rfl
  · intro pre v reg rm s i c d
    exact completes_vex (c := c) (.inl rfl) (fun _ => rfl) rfl rfl rfl

/-- Settles O30: likewise with form F3, whose four results fill the low 128 bits. -/
theorem vex256Result : Obligations.Vex256Result := by
  constructor
  · intro pre v reg rm s i c d
    exact completes_vex (c := c) (.inr rfl) (fun _ => rfl) rfl rfl rfl
  · intro pre v reg rm s i c d
    exact completes_vex (c := c) (.inr rfl) (fun _ => rfl) rfl rfl rfl

end Sys2Proof.Machine

/-! SUPPORT. The EVEX rows without embedded rounding (43_evex_forms.md R132 to R136): an enabled element converts, a
masked-off one is kept or zeroed, and zeros stand above the results. -/

namespace Sys2Proof.Machine

/-- Doubleword `j` of the destination after the write of an enabled EVEX form, whose MAXVL is 512, so that every
stored doubleword is one that the form writes. -/
theorem dwordOf_formResult_evex_of_enabledFor {c : SourceCtx} {s : State} (hf : c.form.isEvex = true)
    (he : s.enabledFor c.form = true) (z : Bool) (d : BitVec 5) (r : Nat → Dword) {j : Nat} (hj : j < 16) :
    (if 32 * j < s.cfg.maxvl.bits then dwordOf (formResult c z (s.readZmm d) r) j else dwordOf (s.readZmm d) j) =
      if j < c.form.kl then maskedDword (c.enabled j) z (r j) (dwordOf (s.readZmm d) j) else 0#32 := by
  have hbits : 32 * j < s.cfg.maxvl.bits := by
    rw [maxvl_of_enabledFor_evex hf he, MaxVl.bits]
    omega
  rw [if_pos hbits, dwordOf_formResult_evex hf]

/-- An EVEX form without embedded rounding, with a readable source and every contributed flag masked, completes. -/
theorem completes_evex {i : Instr} {s : State} {c : SourceCtx} {rm : RmOperand} {d : BitVec 5}
    (hf : c.form.isEvex = true) (hc : i.sourceCtx s = some (c, rm)) (hd : i.destReg = some d) (her : i.isEr = false)
    (hr : i.reservedEncoding = false) (he : s.enabledFor c.form = true) (hread : s.readable c rm = true)
    (hm : s.masked c.form.kl c.enabled (s.lane c rm s.rc) = true) :
    Completes i s d
      (fun j => if j < c.form.kl then
          maskedDword (c.enabled j) i.masking.2 (s.lane c rm s.rc j).1 (dwordOf (s.readZmm d) j)
        else 0#32)
      (AnyIe c.form.kl c.enabled (s.lane c rm s.rc)) (AnyPe c.form.kl c.enabled (s.lane c rm s.rc)) :=
  completes_of_masked hc hd her hr he hread hm fun _ hj => dwordOf_formResult_evex_of_enabledFor hf he _ d _ hj

/-- The table of 43_evex_forms.md R132 by the writemask named and its bit. -/
theorem maskedDword_laneEnabled (s : State) (aaa : BitVec 3) (j : Nat) (z : Bool) (result old : Dword) :
    maskedDword (s.laneEnabled aaa j) z result old =
      if aaa = 0#3 ∨ (s.readK aaa).getLsbD j = true then result else if z then 0#32 else old := by
  simp only [maskedDword, State.laneEnabled_iff]

/-- Settles O31: the three rows run their forms alike, with the elements that the writemask enables. -/
theorem evexResult : Obligations.EvexResult := by
  intro pre e bc reg rm s f i hrow c d hr he hread hm
  simp only [← maskedDword_laneEnabled]
  rcases hrow with ⟨rfl, rfl⟩ | ⟨rfl, rfl⟩ | ⟨rfl, rfl⟩
  · exact completes_evex (c := c) rfl rfl rfl rfl hr he hread hm
  · exact completes_evex (c := c) rfl rfl rfl rfl hr he hread hm
  · exact completes_evex (c := c) rfl rfl rfl rfl hr he hread hm

/-! ## The elements of a source (43_evex_forms.md R130, R131) -/

/-- A sum that has wrapped already wraps to the same address. -/
theorem truncAddr_truncAddr_add (mode : Mode) (a b : Qword) :
    truncAddr mode (truncAddr mode a + b) = truncAddr mode (a + b) := by
  cases mode with
  | mode32 =>
    apply BitVec.eq_of_toNat_eq
    simp only [truncAddr_mode32_toNat, BitVec.toNat_add]
    omega
  | mode64 | other => rfl

/-- Offsets within an operand add up. -/
theorem State.byteAddr_byteAddr (s : State) (la : Qword) (i j : Nat) :
    s.byteAddr (s.byteAddr la i) j = s.byteAddr la (i + j) := by
  simp only [State.byteAddr, truncAddr_truncAddr_add, BitVec.ofNat_add, BitVec.add_assoc]

/-- Settles O46: a register element is its bits by definition, and a memory element is read byte by byte from its
own offset. -/
theorem sourceElements : Obligations.SourceElements := by
  intro s c j _
  refine ⟨fun n => rfl, fun a i hi => ?_⟩
  rw [State.sourceElement, s.extractLsb'_readQword _ hi, State.byteAddr_byteAddr]

end Sys2Proof.Machine

/-! SUPPORT. The exceptions of the prologue: an absent extension, a disabled state and CR0.TS (60_exceptions.md R142 to
R144). -/

namespace Sys2Proof.Machine

/-! ## Forms and their prologue -/

/-- Every row that has a form has a source, described in a context of that form. -/
theorem sourceCtx_of_form? {i : Instr} {f : Form} (hf : i.form? = some f) (s : State) :
    ∃ c rm, i.sourceCtx s = some (c, rm) ∧ c.form = f := by
  cases i with
  | vcvtpd2dqReservedLength => cases hf
  | _ =>
    cases hf
    exact ⟨_, _, rfl, rfl⟩

theorem traps_of_form_precheck {i : Instr} {s : State} {f : Form} {e : Exception} (hf : i.form? = some f)
    (hm : s.mode.admitted = true) (hp : s.precheck f i.reservedEncoding = some e) : Traps i s e .none := by
  obtain ⟨c, rm, hc, rfl⟩ := sourceCtx_of_form? hf s
  exact traps_of_precheck hc hm hp

/-! ## Absent extensions (60_exceptions.md R142) -/

/-- A reserved encoding, which Precheck tests before the extension, takes #UD as well. -/
theorem State.precheck_of_not_extensionPresent {s : State} {f : Form}
    (h : Config.extensionPresent s.cfg f = false) (u : Bool) : s.precheck f u = some .ud := by
  cases u <;> simp [State.precheck, h]

/-- Settles O36: form by form, the condition of 00_scope.md R8 is the one that Precheck tests. -/
theorem absentExtensionIsUndefined : Obligations.AbsentExtensionIsUndefined := by
  intro i s f hm _ hf habsent
  refine traps_of_form_precheck hf hm (State.precheck_of_not_extensionPresent ?_ _)
  cases f with
  | f1 | f2 | f3 => exact habsent
  | f4 | f5 | f6 => simpa [Config.extensionPresent] using habsent

/-! ## Disabled state (60_exceptions.md R143) -/

/-- A field with a clear bit is not all ones. -/
theorem extractLsb'_ne_allOnes {w : Nat} {x : BitVec w} {start len b : Nat} (hlo : start ≤ b)
    (hhi : b < start + len) (hb : x.getLsbD b = false) : x.extractLsb' start len ≠ BitVec.allOnes len := by
  intro h
  have hbit := congrArg (BitVec.getLsbD · (b - start)) h
  have hlt : b - start < len := by omega
  simp [hlt, Nat.add_sub_cancel' hlo, hb] at hbit

/-- XCR0[2:1] is not 11b where one of its bits is clear. -/
theorem State.avxState_ne {s : State} (h : s.xcr0.getLsbD 1 = false ∨ s.xcr0.getLsbD 2 = false) :
    s.xcr0.extractLsb' 1 2 ≠ 3#2 := by
  rcases h with h | h <;> exact extractLsb'_ne_allOnes (by decide) (by decide) h

/-- XCR0[7:5] is not 111b where one of its bits is clear. -/
theorem State.avx512State_ne {s : State}
    (h : s.xcr0.getLsbD 5 = false ∨ s.xcr0.getLsbD 6 = false ∨ s.xcr0.getLsbD 7 = false) :
    s.xcr0.extractLsb' 5 3 ≠ 7#3 := by
  rcases h with h | h | h <;> exact extractLsb'_ne_allOnes (by decide) (by decide) h

theorem State.simdUD_f1_iff {s : State} :
    s.simdUD .f1 = true ↔ s.cr0.getLsbD 2 = true ∨ s.cr4.getLsbD 9 = false := by
  simp only [State.simdUD, Bool.or_eq_true, Bool.not_eq_true']

theorem State.simdUD_vex_iff {s : State} {f : Form} (hf : f = .f2 ∨ f = .f3) :
    s.simdUD f = true ↔ s.cr4.getLsbD 18 = false ∨ s.xcr0.extractLsb' 1 2 ≠ 3#2 := by
  rcases hf with rfl | rfl <;> simp only [State.simdUD, Bool.or_eq_true, Bool.not_eq_true', bne_iff_ne]

theorem State.simdUD_evex_iff {s : State} {f : Form} (hf : f.isEvex = true) :
    s.simdUD f = true ↔
      s.cr4.getLsbD 18 = false ∨ s.xcr0.extractLsb' 1 2 ≠ 3#2 ∨ s.xcr0.extractLsb' 5 3 ≠ 7#3 := by
  cases f with
  | f1 | f2 | f3 => cases hf
  | f4 | f5 | f6 => simp only [State.simdUD, Bool.or_eq_true, Bool.not_eq_true', bne_iff_ne, or_assoc]

/-- Settles O37: each clear bit, and CR0.EM set, makes SimdUD true of the form. -/
theorem disabledStateIsUndefined : Obligations.DisabledStateIsUndefined := by
  intro i s f hm _ hf hoff
  refine traps_of_form_precheck hf hm (State.precheck_of_simdUD ?_ _)
  cases f with
  | f1 => exact State.simdUD_f1_iff.2 hoff
  | f2 | f3 => exact (State.simdUD_vex_iff (by decide)).2 (hoff.imp_right State.avxState_ne)
  | f4 | f5 | f6 =>
    refine (State.simdUD_evex_iff rfl).2 (hoff.imp_right fun hx => ?_)
    rcases hx with h | h | h
    · exact .inl (State.avxState_ne (.inl h))
    · exact .inl (State.avxState_ne (.inr h))
    · exact .inr (State.avx512State_ne h)

/-! ## CR0.TS (60_exceptions.md R144) -/

theorem State.precheck_of_ts {s : State} {f : Form} (hext : Config.extensionPresent s.cfg f = true)
    (hud : s.simdUD f = false) (hts : s.ts = true) : s.precheck f false = some .nm := by
  simp [State.precheck, hext, hud, hts]

/-- Settles O38: with every #UD condition ruled out, Precheck comes to CR0.TS. -/
theorem taskSwitchedIsDeviceNotAvailable : Obligations.TaskSwitchedIsDeviceNotAvailable := by
  intro i s f hm hf hr hext hud hts
  exact traps_of_form_precheck hf hm (hr ▸ State.precheck_of_ts hext hud hts)

end Sys2Proof.Machine

/-! SUPPORT. The faults of a memory operand: of its segment and at page level (60_exceptions.md R145, R148,
20_memory.md R48). -/

namespace Sys2Proof.Machine

section Raise

variable {s t : State} {c : SourceCtx} {a : Address}

/-- Where form F1's demand is met, what MemCheck raises is raised. -/
theorem State.checkOperand_of_memCheck_raise (hal : c.form = .f1 → (s.operandAddr c a).toNat % 16 = 0)
    (h : s.memCheck false (s.operandSegment c a) (s.effAddr c a) (s.operandAddr c a)
      (c.checkedParts s.cfg.faultSuppression) = .raise t) :
    s.checkOperand c a = .raise t := by
  have hno : ¬ (c.form = .f1 ∧ (s.operandAddr c a).toNat % 16 ≠ 0) := fun h => h.2 (hal h.1)
  rw [State.checkOperand, if_neg hno, h, Eff.andThen]

theorem exec_next_of_checkOperand {i : Instr} (hc : i.sourceCtx s = some (c, .mem a))
    (hr : i.reservedEncoding = false) (he : s.enabledFor c.form = true) (h : s.checkOperand c a = .raise t) :
    exec i s = .next t := by
  obtain ⟨k, hexec⟩ := exec_checkOperand hc hr he
  rw [hexec, h]
  rfl

end Raise

/-! ## Segment and canonical violations -/

theorem segmentException_eq (seg : Seg) (cause : SegmentCause) :
    segmentException seg cause = if seg = .ss ∧ cause = .bounds then .ss else .gp := by
  cases seg <;> cases cause <;> rfl

/-- Settles O41: MemCheck takes the exception of the one cause there is. -/
theorem segmentViolationTraps : Obligations.SegmentViolationTraps := by
  intro i s c a cause hc hr he hal refuses hrefuses hunique
  refine traps_of_checkOperand hc hr he (State.checkOperand_of_memCheck_raise hal ?_)
  rw [State.memCheck_of_segmentRefuses hrefuses hunique, segmentException_eq]

/-! ## The order of the page-level checks (log 9) -/

/-- A part's bytes lie in order. -/
theorem Part.pairwise_bytes (p : Part) : p.bytes.Pairwise (· < ·) :=
  List.pairwise_map.2 (List.pairwise_lt_range.imp fun h => Nat.add_lt_add_left h _)

/-- Bytes of parts that lie one after another are in order. -/
theorem pairwise_partBytes {ps : List Part} (h : ps.Pairwise fun p q => p.off + p.n ≤ q.off) :
    (partBytes ps).Pairwise (· < ·) := by
  refine List.pairwise_flatMap.2 ⟨fun p _ => p.pairwise_bytes, h.imp fun {p q} hpq x hx y hy => ?_⟩
  obtain ⟨j, hj, rfl⟩ := Part.mem_bytes.1 hx
  obtain ⟨k, -, rfl⟩ := Part.mem_bytes.1 hy
  omega

/-- The parts MemCheck is asked about lie one after another. -/
theorem SourceCtx.pairwise_checkedParts (c : SourceCtx) (suppress : Bool) :
    (c.checkedParts suppress).Pairwise fun p q => p.off + p.n ≤ q.off := by
  have helements : (((List.range c.form.kl).filter c.enabled).map fun j => (⟨8 * j, 8⟩ : Part)).Pairwise
      fun p q => p.off + p.n ≤ q.off :=
    List.pairwise_map.2 ((List.pairwise_lt_range.filter _).imp fun {j k} (h : j < k) =>
      (by omega : 8 * j + 8 ≤ 8 * k))
  unfold SourceCtx.checkedParts
  split_ifs
  · exact List.pairwise_singleton ..
  · exact List.Pairwise.nil
  · exact helements
  · exact List.pairwise_singleton ..

/-- In a list in order, what `f` answers first is its answer for the least element that it has one for. -/
theorem findSome?_of_least {β : Type} {l : List Nat} {f : Nat → Option β} {o : Nat} {b : β}
    (hl : l.Pairwise (· < ·)) (ho : o ∈ l) (hleast : ∀ o' ∈ l, o' < o → f o' = none) (hb : f o = some b) :
    l.findSome? f = some b := by
  obtain ⟨l₁, l₂, rfl⟩ := List.mem_iff_append.1 ho
  refine List.findSome?_eq_some_iff.2 ⟨l₁, o, l₂, rfl, hb, fun x hx => hleast x (by simp [hx]) ?_⟩
  exact (List.pairwise_append.1 hl).2.2 x hx o (by simp)

/-- What `f` answers for one element alone is what it answers first. -/
theorem findSome?_of_unique {α β : Type} {l : List α} {f : α → Option β} {x : α} {b : β} (hx : x ∈ l)
    (hunique : ∀ y ∈ l, y ≠ x → f y = none) (hb : f x = some b) : l.findSome? f = some b := by
  obtain ⟨l₁, l₂, rfl, hnot⟩ := List.eq_append_cons_of_mem hx
  exact List.findSome?_eq_some_iff.2 ⟨l₁, x, l₂, rfl, hb, fun y hy =>
    hunique y (by simp [hy]) fun h => hnot (h ▸ hy)⟩

section TranslationFault

variable {s : State} {fetch : Bool} {seg : Seg} {ea la : Qword} {ps : List Part}

/-- With nothing against any part as a whole, the page of the lowest faulting byte decides. -/
theorem State.translationFault_of_byte {o : Nat} {code : PageFaultCode} (hps : (partBytes ps).Pairwise (· < ·))
    (hpart : ∀ p ∈ ps, s.partFault fetch seg ea la p = none) (ho : o ∈ partBytes ps)
    (hleast : ∀ o' ∈ partBytes ps, o' < o → s.pageFault fetch (s.byteAddr la o').toNat = none)
    (hpage : s.pageFault fetch (s.byteAddr la o).toNat = some code) :
    s.translationFault fetch seg ea la ps = some (code, s.byteAddr la o) := by
  rw [State.translationFault, Option.or_eq_some_iff]
  refine .inr ⟨List.findSome?_eq_none_iff.2 fun p hp => by rw [hpart p hp], findSome?_of_least hps ho ?_ ?_⟩
  · exact fun o' ho' hlt => by rw [hleast o' ho' hlt, Option.map_none]
  · rw [hpage, Option.map_some]

/-- A page fault answered for one part alone comes before those of bytes. -/
theorem State.translationFault_of_part {p : Part} {b u r k : Bool} {addr : Qword} (hp : p ∈ ps)
    (hfault : s.partFault fetch seg ea la p = some (.page b u r k addr))
    (hunique : ∀ p' ∈ ps, p' ≠ p → s.partFault fetch seg ea la p' = none) :
    s.translationFault fetch seg ea la ps = some (⟨b, false, u, r, fetch, k⟩, addr) := by
  rw [State.translationFault, Option.or_eq_some_iff]
  refine .inl (findSome?_of_unique hp (fun p' hp' hne => ?_) ?_)
  · rw [hunique p' hp' hne]
  · rw [hfault]

end TranslationFault

/-! ## Page faults of an instruction -/

/-- An enabled instruction comes to the page-level checks of its memory operand, and they answer a fault. -/
structure PageFaults (i : Instr) (s : State) (c : SourceCtx) (a : Address) (code : PageFaultCode)
    (addr : Qword) : Prop where
  source : i.sourceCtx s = some (c, .mem a)
  encoding : i.reservedEncoding = false
  enabled : s.enabledFor c.form = true
  aligned : c.form = .f1 → (s.operandAddr c a).toNat % 16 = 0
  segment : s.segmentFault false (s.operandSegment c a) (s.effAddr c a) (s.operandAddr c a)
    (c.checkedParts s.cfg.faultSuppression) = none
  page : s.translationFault false (s.operandSegment c a) (s.effAddr c a) (s.operandAddr c a)
    (c.checkedParts s.cfg.faultSuppression) = some (code, addr)

theorem PageFaults.exec_eq {i : Instr} {s : State} {c : SourceCtx} {a : Address} {code : PageFaultCode}
    {addr : Qword} (h : PageFaults i s c a code addr) :
    exec i s = .next (s.takeException .pf (.page code) (some addr)) :=
  exec_next_of_checkOperand h.source h.encoding h.enabled (State.checkOperand_of_memCheck_raise h.aligned
    (State.memCheck_of_translationFault h.segment h.page))

/-- Settles O42: the segment checks pass, and of the page-level ones those of whole parts come first, then those of
bytes from the lowest on. -/
theorem pageFaultTraps : Obligations.PageFaultTraps := by
  intro i s c a hc hr he hal parts fault hseg
  have hsegFault : s.segmentFault false (s.operandSegment c a) (s.effAddr c a) (s.operandAddr c a) parts = none :=
    Option.eq_none_iff_forall_ne_some.2 fun cause h => hseg cause (State.segmentFault_eq_some h)
  refine ⟨fun o code hpart ho hleast hpage => ?_, fun p b u r k addr hp hfault hunique _ => ?_⟩
  · obtain ⟨hwr, hid⟩ := State.pageFault_wr hpage
    have hbyte := State.translationFault_of_byte (pairwise_partBytes (c.pairwise_checkedParts _)) hpart ho hleast
      hpage
    exact ⟨hwr, hid, PageFaults.exec_eq ⟨hc, hr, he, hal, hsegFault, hbyte⟩⟩
  · exact PageFaults.exec_eq ⟨hc, hr, he, hal, hsegFault, State.translationFault_of_part hp hfault hunique⟩

end Sys2Proof.Machine

/-! SUPPORT. What a trap leaves, and restarting after one (60_exceptions.md R146, R150, R152). -/

namespace Sys2Proof.Machine

/-! ## The ways to trap -/

/-- What MemCheck raises is a fault of the segment, which leaves CR2, or at page level. -/
theorem State.memCheck_raise_cases {s t : State} {fetch : Bool} {seg : Seg} {ea la : Qword} {ps : List Part}
    (h : s.memCheck fetch seg ea la ps = .raise t) :
    (∃ e, t = s.takeException e .zero none) ∨
    ∃ code addr, s.segmentFault fetch seg ea la ps = none ∧
      s.translationFault fetch seg ea la ps = some (code, addr) ∧
      t = s.takeException .pf (.page code) (some addr) := by
  unfold State.memCheck at h
  split at h
  case h_1 =>
    cases h
    exact .inl ⟨_, rfl⟩
  case h_2 hseg =>
    split at h
    case h_1 code addr hpage =>
      cases h
      exact .inr ⟨code, addr, hseg, hpage, rfl⟩
    case h_2 => split at h <;> cases h

/-- How an instruction comes to trap: an exception that writes neither MXCSR nor CR2, a page fault of its operand, or
an unmasked floating-point exception with the flags recorded so far. -/
inductive TrapCause (i : Instr) (s t : State) : Prop where
  | plain (e : Exception) (code : ErrorCode) (ht : t = s.takeException e code none)
  | page {c : SourceCtx} {a : Address} {code : PageFaultCode} {addr : Qword} (h : PageFaults i s c a code addr)
      (ht : t = s.takeException .pf (.page code) (some addr))
  | simd (fl : FpFlags) (ht : t = (s.recordFlags fl).takeException s.simdException .none none)

section TrapCauses

variable {i : Instr} {s t : State} {c : SourceCtx} {rm : RmOperand}

theorem trapCause_of_prologue {form : Form} {u : Bool} (h : s.prologue form u = .raise t) : TrapCause i s t := by
  obtain ⟨e, -, ht⟩ := State.prologue_eq_raise h
  exact .plain e .none ht

theorem trapCause_of_checkOperand {a : Address} (hc : i.sourceCtx s = some (c, .mem a))
    (hr : i.reservedEncoding = false) (he : s.enabledFor c.form = true) (h : s.checkOperand c a = .raise t) :
    TrapCause i s t := by
  by_cases hno : c.form = .f1 ∧ (s.operandAddr c a).toNat % 16 ≠ 0
  · obtain ⟨hf, hal⟩ := hno
    cases (State.checkOperand_of_misaligned hf hal).symm.trans h
    exact .plain .gp .zero rfl
  · have hal : c.form = .f1 → (s.operandAddr c a).toNat % 16 = 0 := by simpa using hno
    rw [State.checkOperand, if_neg hno, Eff.andThen_eq_raise] at h
    rcases h with hmem | ⟨_, -, hac⟩
    · rcases State.memCheck_raise_cases hmem with ⟨e, ht⟩ | ⟨code, addr, hseg, hpage, ht⟩
      · exact .plain e .zero ht
      · exact .page ⟨hc, hr, he, hal, hseg, hpage⟩ ht
    · split at hac <;> cases hac

theorem trapCause_of_loadSource (hc : i.sourceCtx s = some (c, rm)) (hr : i.reservedEncoding = false)
    (he : s.enabledFor c.form = true) (h : s.loadSource c rm = .raise t) : TrapCause i s t := by
  cases rm with
  | reg n => cases h
  | mem a =>
    rcases Eff.andThen_eq_raise.1 h with hcheck | ⟨_, -, hok⟩
    · exact trapCause_of_checkOperand hc hr he hcheck
    · cases hok

theorem trapCause_of_formResponse {er : Option RoundingMode} {lane : Nat → Dword × FpFlags}
    (h : s.formResponse c er lane = .raise t) : TrapCause i s t := by
  unfold State.formResponse at h
  split_ifs at h
  rcases State.exceptionResponse_eq_raise h with ⟨-, -, ht⟩ | ⟨-, -, -, ht⟩
  · exact .simd _ ht
  · exact .simd _ ht

theorem trapCause_of_runForm {d : BitVec 5} {z : Bool} {er : Option RoundingMode}
    (hc : i.sourceCtx s = some (c, rm)) (h : s.runForm c rm i.reservedEncoding d z er = .raise t) :
    TrapCause i s t := by
  simp only [State.runForm, State.convertAndWrite, Eff.andThen_eq_raise, reduceCtorEq, and_false, exists_false,
    or_false] at h
  rcases h with hpro | ⟨_, hpro, hload | ⟨_, -, hresp⟩⟩
  · exact trapCause_of_prologue hpro
  · obtain ⟨hr, he⟩ := State.prologue_eq_ok.1 hpro
    exact trapCause_of_loadSource hc hr he hload
  · exact trapCause_of_formResponse hresp

theorem trapCause_of_undefinedEncoding (h : s.undefinedEncoding.outcome = .next t) : TrapCause i s t := by
  unfold State.undefinedEncoding at h
  split at h
  · cases h
  · cases h
    exact .plain .ud .none rfl

/-- An instruction that trapped did so in one of those ways. -/
theorem exec_trapped (hs : s.trap = none) (h : exec i s = .next t) (ht : t.trap ≠ none) : TrapCause i s t := by
  cases hc : i.sourceCtx s with
  | none =>
    cases i with
    | vcvtpd2dqReservedLength => exact trapCause_of_undefinedEncoding h
    | _ => cases hc
  | some x =>
    obtain ⟨c, rm⟩ := x
    obtain ⟨d, hd⟩ := sourceCtx_destReg hc
    rw [exec_eq_runForm hc hd, Eff.outcome_eq_next, Eff.andThen_eq_ok, Eff.andThen_eq_raise] at h
    rcases h with ⟨u, hrun, hadv⟩ | hrun | ⟨_, -, hadv⟩
    · obtain ⟨-, -, htrap⟩ := State.runForm_eq_ok hrun
      cases hadv
      exact absurd (htrap.trans hs) ht
    · exact trapCause_of_runForm hc hrun
    · cases hadv

end TrapCauses

/-! ## The state after a trap (60_exceptions.md R150) -/

/-- A trap taken with flags recorded, which only #XM and #UD, the exceptions of R146, come with. -/
def TookTrap (s t : State) : Prop :=
  ∃ fl e code addr, t = (s.recordFlags fl).takeException e code addr ∧ (e ≠ .xm → e ≠ .ud → fl = FpFlags.none)

theorem tookTrap_of_plain {s t : State} {e : Exception} {code : ErrorCode} {addr : Option Qword}
    (ht : t = s.takeException e code addr) : TookTrap s t :=
  ⟨FpFlags.none, e, code, addr, by rw [ht, State.recordFlags_none], fun _ _ => rfl⟩

theorem State.simdException_eq (s : State) : s.simdException = .xm ∨ s.simdException = .ud := by
  unfold State.simdException
  split
  · exact .inl rfl
  · exact .inr rfl

theorem TrapCause.tookTrap {i : Instr} {s t : State} (h : TrapCause i s t) : TookTrap s t := by
  cases h with
  | plain e code ht => exact tookTrap_of_plain ht
  | page _ ht => exact tookTrap_of_plain ht
  | simd fl ht =>
    exact ⟨fl, _, _, _, ht, fun hxm hud => (s.simdException_eq.elim hxm hud).elim⟩

/-- A fetch raises what MemCheck raises, for the first byte or for the whole instruction. -/
theorem tookTrap_of_fetchInstr {s t : State} (h : s.fetchInstr = .raise t) : TookTrap s t := by
  have hcheck : ∀ ps, s.memCheck true .cs s.instrPtr s.fetchAddr ps = .raise t → TookTrap s t := by
    intro ps hps
    obtain ⟨e, code, addr, ht, -⟩ := State.memCheck_eq_raise hps
    exact tookTrap_of_plain ht
  unfold State.fetchInstr at h
  split at h
  · cases h
  · rcases Eff.andThen_eq_raise.1 h with hfirst | ⟨_, -, h⟩
    · exact hcheck _ hfirst
    · split at h
      · cases h
      · split at h
        · rcases Eff.andThen_eq_raise.1 h with hall | ⟨_, -, hok⟩
          · exact hcheck _ hall
          · cases hok
        · cases h

theorem step_trapped {s t : State} (h : step s = .next t) (ht : t.trap ≠ none) : TookTrap s t := by
  obtain ⟨hs, -⟩ := step_next h
  cases hf : s.fetchInstr with
  | ok i => exact (exec_trapped hs ((step_of_fetchInstr_ok hs hf).symm.trans h) ht).tookTrap
  | raise u =>
    cases (step_of_fetchInstr_raise hs hf).symm.trans h
    exact tookTrap_of_fetchInstr hf
  | refuse r => cases (step_of_fetchInstr_refuse hs hf).symm.trans h

theorem step_of_trap {t : State} {x : Trap} (h : t.trap = some x) : step t = .fault (.trapped x) := by
  rw [step, h]

/-- Settles O12: taking the exception writes CR2 and the trap record, and recording flags sets IE and PE. -/
theorem trapIsPreciseAndTerminal : Obligations.TrapIsPreciseAndTerminal := by
  intro s t x hstep hx
  have hterminal := step_of_trap hx
  obtain ⟨fl, e, code, addr, rfl, hfl⟩ := step_trapped hstep (by simp [hx])
  obtain rfl : ⟨e, code⟩ = x := Option.some.inj hx
  refine ⟨rfl, rfl, rfl, rfl, rfl, fun b _ h0 h5 => s.getLsbD_mxcsr_recordFlags fl h0 h5, fun hie => ?_,
    fun hpe => ?_, fun hxm hud => ?_, hterminal⟩
  · exact (s.ie_recordFlags fl).trans (by rw [hie, Bool.true_or])
  · exact (s.pe_recordFlags fl).trans (by rw [hpe, Bool.true_or])
  · rw [hfl hxm hud, State.recordFlags_none, State.takeException_mxcsr]

/-! ## Restarting (60_exceptions.md R152) -/

/-- Where the trap record was clear, resuming from an exception undoes it but for CR2. -/
theorem State.resume_takeException {s : State} (hs : s.trap = none) (e : Exception) (code : ErrorCode)
    (addr : Option Qword) : (s.takeException e code addr).resume = { s with cr2 := addr.getD s.cr2 } := by
  simp only [State.takeException, State.resume, hs]

/-- Nothing that leads to a page fault reads CR2. -/
theorem PageFaults.with_cr2 {i : Instr} {s : State} {c : SourceCtx} {a : Address} {code : PageFaultCode}
    {addr : Qword} (h : PageFaults i s c a code addr) (cr2 : Qword) :
    PageFaults i { s with cr2 := cr2 } c a code addr :=
  ⟨h.source, h.encoding, h.enabled, h.aligned, h.segment, h.page⟩

/-- An instruction that recorded flags does the same again when they stand recorded already. -/
theorem exec_recordFlags {i : Instr} {s t : State} {fl : FpFlags} (h : exec i s = .next t)
    (hm : t.mxcsr = (s.recordFlags fl).mxcsr) : exec i (s.recordFlags fl) = .next t := by
  have hself : s.withKMxcsr s.k (s.recordFlags fl).mxcsr = s.recordFlags fl := rfl
  obtain ⟨hnext, -⟩ := exec_twin (i := i) (s := s) (k := s.k) (m := (s.recordFlags fl).mxcsr)
    ⟨s.daz_recordFlags fl, s.im_recordFlags fl, s.pm_recordFlags fl⟩ (fun _ => s.rc_recordFlags fl)
    fun _ _ _ _ _ => rfl
  obtain ⟨t', ht', fl', htk, htm, rfl⟩ := hnext t h
  have hagain : (s.recordFlags fl).mxcsr ||| fl'.bits = t.mxcsr := by
    rw [← hm, htm, BitVec.or_assoc, BitVec.or_self]
  rw [hself, hagain, ← htk] at ht'
  exact ht'

/-- Settles O57: an exception that writes neither MXCSR nor CR2 leaves the state it came from; a page fault comes
again whatever CR2 holds, and a floating-point exception whatever flags stand recorded. -/
theorem restartTrapsAgain : Obligations.RestartTrapsAgain := by
  intro i s t hs hexec htrap
  cases exec_trapped hs hexec htrap with
  | plain e code ht =>
    have hresume : t.resume = s := by
      rw [ht, State.resume_takeException hs]
      rfl
    rw [hresume, hexec]
  | page h ht =>
    rw [ht, State.resume_takeException hs]
    exact (h.with_cr2 _).exec_eq
  | simd fl ht =>
    have hresume : t.resume = s.recordFlags fl := by
      rw [ht, State.resume_takeException ((s.recordFlags_trap fl).trans hs)]
      rfl
    rw [hresume]
    exact exec_recordFlags hexec (by rw [ht, State.takeException_mxcsr])

end Sys2Proof.Machine
